-- ==== Sys2Proof/Word.lean ====
section
/-! DEFINITION. The two word types of the machine: a byte (every data register and every memory
cell) and a word (the program counter and every address), `00_scope.md` R5 and R7. -/

namespace Sys2Proof

/-- An 8-bit unsigned value; bit 0 is the least significant (R7). -/
abbrev Byte := BitVec 8

/-- A 16-bit unsigned value; bit 0 is the least significant (R7). -/
abbrev Word := BitVec 16

end Sys2Proof
end

