-- ==== Sys2Proof/Syntax.lean ====
section
/-! DEFINITION. The instruction set as syntax: the thirteen addressing modes (`30_encoding.md`
R51), the operand forms they give, and one constructor of `Instr` for each mnemonic of the opcode
table (R52) and for its sentinel ILL (R55). A row of `opcode_table.json` is a constructor applied
to the operand form of that row's mode; the 105 ILL rows are `ill` applied to the row's byte. -/

namespace Sys2Proof

/-- The thirteen addressing modes, in the order of the table under R51. -/
inductive Mode where
  | imp | acc | imm | zp | zpx | zpy | abs | abx | aby | ind | izx | izy | rel
  deriving DecidableEq, Repr

/-- The 56 mnemonics in the document's twelve families (R52), and the sentinel ILL. -/
inductive Mnemonic where
  | lda | ldx | ldy | sta | stx | sty
  | tax | tay | txa | tya | tsx | txs
  | pha | php | pla | plp
  | and | eor | ora | bit
  | adc | sbc
  | cmp | cpx | cpy
  | inc | dec | inx | iny | dex | dey
  | asl | lsr | rol | ror
  | jmp | jsr | rts
  | bcc | bcs | beq | bne | bmi | bpl | bvc | bvs
  | clc | cld | cli | clv | sec | sed | sei
  | brk | rti | nop
  | ill
  deriving DecidableEq, Repr

/-- The operand forms whose operand is a byte of memory at a computed address, with their operand
bytes: a page-zero byte `d8`, or a 16-bit address `a16` (R50, R53). -/
inductive MemOperand where
  | zp (d : Byte)
  | zpx (d : Byte)
  | zpy (d : Byte)
  | abs (a : Word)
  | abx (a : Word)
  | aby (a : Word)
  | izx (d : Byte)
  | izy (d : Byte)
  deriving DecidableEq, Repr

/-- The operand of an instruction that reads one byte: the immediate `d8`, or a memory byte. -/
inductive DataOperand where
  | imm (v : Byte)
  | mem (m : MemOperand)
  deriving DecidableEq, Repr

/-- The target of a shift or rotate: the accumulator, or a memory byte (R126). -/
inductive ShiftOperand where
  | acc
  | mem (m : MemOperand)
  deriving DecidableEq, Repr

/-- The target of JMP: an address, or a pointer to one (R132). -/
inductive JumpOperand where
  | abs (a : Word)
  | ind (a : Word)
  deriving DecidableEq, Repr

/-- The instructions. Branches hold their offset byte, JSR its target, ILL the opcode byte it was
read from (R55: any of the 105 unassigned values). -/
inductive Instr where
  -- Load/Store
  | lda (o : DataOperand)
  | ldx (o : DataOperand)
  | ldy (o : DataOperand)
  | sta (m : MemOperand)
  | stx (m : MemOperand)
  | sty (m : MemOperand)
  -- Transfers
  | tax
  | tay
  | txa
  | tya
  | tsx
  | txs
  -- Stack
  | pha
  | php
  | pla
  | plp
  -- Logical
  | and (o : DataOperand)
  | eor (o : DataOperand)
  | ora (o : DataOperand)
  | bit (m : MemOperand)
  -- Arithmetic
  | adc (o : DataOperand)
  | sbc (o : DataOperand)
  -- Compare
  | cmp (o : DataOperand)
  | cpx (o : DataOperand)
  | cpy (o : DataOperand)
  -- Increment/Decrement
  | inc (m : MemOperand)
  | dec (m : MemOperand)
  | inx
  | iny
  | dex
  | dey
  -- Shifts/Rotates
  | asl (o : ShiftOperand)
  | lsr (o : ShiftOperand)
  | rol (o : ShiftOperand)
  | ror (o : ShiftOperand)
  -- Jumps/Calls
  | jmp (t : JumpOperand)
  | jsr (a : Word)
  | rts
  -- Branches
  | bcc (off : Byte)
  | bcs (off : Byte)
  | beq (off : Byte)
  | bne (off : Byte)
  | bmi (off : Byte)
  | bpl (off : Byte)
  | bvc (off : Byte)
  | bvs (off : Byte)
  -- Status flag operations
  | clc
  | cld
  | cli
  | clv
  | sec
  | sed
  | sei
  -- System
  | brk
  | rti
  | nop
  -- The illegal-opcode sentinel
  | ill (op : Byte)
  deriving DecidableEq, Repr

/-- The addressing mode of a memory operand. -/
def MemOperand.mode : MemOperand → Mode
  | .zp _ => .zp
  | .zpx _ => .zpx
  | .zpy _ => .zpy
  | .abs _ => .abs
  | .abx _ => .abx
  | .aby _ => .aby
  | .izx _ => .izx
  | .izy _ => .izy

/-- The addressing mode of a data operand. -/
def DataOperand.mode : DataOperand → Mode
  | .imm _ => .imm
  | .mem m => m.mode

/-- The addressing mode of a shift target. -/
def ShiftOperand.mode : ShiftOperand → Mode
  | .acc => .acc
  | .mem m => m.mode

/-- The addressing mode of a jump target. -/
def JumpOperand.mode : JumpOperand → Mode
  | .abs _ => .abs
  | .ind _ => .ind

end Sys2Proof
end

