-- ==== Sys2Proof/WellFormed.lean ====
section
/-! DEFINITION. Which terms of `Instr` are instructions of the machine: the mnemonic has the mode
(`30_encoding.md` R54), and a sentinel was read from an unassigned opcode (R55). -/

namespace Sys2Proof

/-- The modes of AND, EOR, ORA, ADC, SBC, CMP and LDA (R54). -/
def accumulatorModes : List Mode := [.imm, .zp, .zpx, .abs, .abx, .aby, .izx, .izy]

/-- The modes of LDX (R54, R91). -/
def ldxModes : List Mode := [.imm, .zp, .zpy, .abs, .aby]

/-- The modes of LDY (R54, R92). -/
def ldyModes : List Mode := [.imm, .zp, .zpx, .abs, .abx]

/-- The modes of STA (R54, R93): those of LDA without Immediate. -/
def staModes : List Mode := [.zp, .zpx, .abs, .abx, .aby, .izx, .izy]

/-- The modes of STX (R54, R94). -/
def stxModes : List Mode := [.zp, .zpy, .abs]

/-- The modes of STY (R54, R95). -/
def styModes : List Mode := [.zp, .zpx, .abs]

/-- The modes of BIT (R54, R113). -/
def bitModes : List Mode := [.zp, .abs]

/-- The modes of CPX and CPY (R54, R118, R119). -/
def indexCompareModes : List Mode := [.imm, .zp, .abs]

/-- The modes of INC and DEC (R54, R120, R121). -/
def modifyModes : List Mode := [.zp, .zpx, .abs, .abx]

/-- The modes of ASL, LSR, ROL and ROR (R54, R127 to R130). -/
def shiftModes : List Mode := [.acc, .zp, .zpx, .abs, .abx]

/-- The 105 unassigned opcode values, as R55 lists them. -/
def unassignedOpcodes : List Byte :=
  ([0x02, 0x03, 0x04, 0x07, 0x0B, 0x0C, 0x0F] ++
   [0x12, 0x13, 0x14, 0x17, 0x1A, 0x1B, 0x1C, 0x1F] ++
   [0x22, 0x23, 0x27, 0x2B, 0x2F] ++
   [0x32, 0x33, 0x34, 0x37, 0x3A, 0x3B, 0x3C, 0x3F] ++
   [0x42, 0x43, 0x44, 0x47, 0x4B, 0x4F] ++
   [0x52, 0x53, 0x54, 0x57, 0x5A, 0x5B, 0x5C, 0x5F] ++
   [0x62, 0x63, 0x64, 0x67, 0x6B, 0x6F] ++
   [0x72, 0x73, 0x74, 0x77, 0x7A, 0x7B, 0x7C, 0x7F] ++
   [0x80, 0x82, 0x83, 0x87, 0x89, 0x8B, 0x8F] ++
   [0x92, 0x93, 0x97, 0x9B, 0x9C, 0x9E, 0x9F] ++
   [0xA3, 0xA7, 0xAB, 0xAF] ++
   [0xB2, 0xB3, 0xB7, 0xBB, 0xBF] ++
   [0xC2, 0xC3, 0xC7, 0xCB, 0xCF] ++
   [0xD2, 0xD3, 0xD4, 0xD7, 0xDA, 0xDB, 0xDC, 0xDF] ++
   [0xE2, 0xE3, 0xE7, 0xEB, 0xEF] ++
   [0xF2, 0xF3, 0xF4, 0xF7, 0xFA, 0xFB, 0xFC, 0xFF])

/-- Whether the opcode table has a row for the term: the mnemonic has the operand's mode, and the
byte of a sentinel is unassigned. -/
def Instr.wellFormed : Instr → Bool
  | .lda o | .and o | .eor o | .ora o | .adc o | .sbc o | .cmp o => accumulatorModes.contains o.mode
  | .ldx o => ldxModes.contains o.mode
  | .ldy o => ldyModes.contains o.mode
  | .sta m => staModes.contains m.mode
  | .stx m => stxModes.contains m.mode
  | .sty m => styModes.contains m.mode
  | .bit m => bitModes.contains m.mode
  | .cpx o | .cpy o => indexCompareModes.contains o.mode
  | .inc m | .dec m => modifyModes.contains m.mode
  | .asl o | .lsr o | .rol o | .ror o => shiftModes.contains o.mode
  | .ill op => unassignedOpcodes.contains op
  | .tax | .tay | .txa | .tya | .tsx | .txs | .pha | .php | .pla | .plp
  | .inx | .iny | .dex | .dey | .jmp _ | .jsr _ | .rts
  | .bcc _ | .bcs _ | .beq _ | .bne _ | .bmi _ | .bpl _ | .bvc _ | .bvs _
  | .clc | .cld | .cli | .clv | .sec | .sed | .sei | .brk | .rti | .nop => true

/-- The term is an instruction of the opcode table. -/
abbrev WellFormed (i : Instr) : Prop := i.wellFormed = true

end Sys2Proof
end

