-- ==== Sys2Proof/Decode.lean ====
section
/-! DEFINITION. The opcode table (`30_encoding.md` R54), the lookup that is total through the
sentinel (R55), the decoder (R50, R51, R53) and, after it, the encoder. The byte-order helpers of
instruction operands stand here too. -/

namespace Sys2Proof

/-- The word with high byte `h` and low byte `l`: `{h, l}` of R7. -/
def word16 (h l : Byte) : Word := h ++ l

/-- `hi(w)`, bits 15 to 8 (R7). -/
def hiByte (w : Word) : Byte := w.extractLsb' 8 8

/-- `lo(w)`, bits 7 to 0 (R7). -/
def loByte (w : Word) : Byte := w.extractLsb' 0 8

/-- One entry of the opcode table: the descriptor {code, mnemonic, mode, base cycle cost} of
`00_scope.md` R9. -/
structure Row where
  opcode : Byte
  mnemonic : Mnemonic
  mode : Mode
  cycles : Nat
  deriving DecidableEq, Repr

/-- The rows of Load/Store: R90 to R95. -/
def loadStoreRows : List Row :=
  [⟨0xA9, .lda, .imm, 2⟩, ⟨0xA5, .lda, .zp, 3⟩, ⟨0xB5, .lda, .zpx, 4⟩,
    ⟨0xAD, .lda, .abs, 4⟩, ⟨0xBD, .lda, .abx, 4⟩, ⟨0xB9, .lda, .aby, 4⟩,
    ⟨0xA1, .lda, .izx, 6⟩, ⟨0xB1, .lda, .izy, 5⟩] ++
  [⟨0xA2, .ldx, .imm, 2⟩, ⟨0xA6, .ldx, .zp, 3⟩, ⟨0xB6, .ldx, .zpy, 4⟩,
    ⟨0xAE, .ldx, .abs, 4⟩, ⟨0xBE, .ldx, .aby, 4⟩] ++
  [⟨0xA0, .ldy, .imm, 2⟩, ⟨0xA4, .ldy, .zp, 3⟩, ⟨0xB4, .ldy, .zpx, 4⟩,
    ⟨0xAC, .ldy, .abs, 4⟩, ⟨0xBC, .ldy, .abx, 4⟩] ++
  [⟨0x85, .sta, .zp, 3⟩, ⟨0x95, .sta, .zpx, 4⟩, ⟨0x8D, .sta, .abs, 4⟩,
    ⟨0x9D, .sta, .abx, 5⟩, ⟨0x99, .sta, .aby, 5⟩, ⟨0x81, .sta, .izx, 6⟩,
    ⟨0x91, .sta, .izy, 6⟩] ++
  [⟨0x86, .stx, .zp, 3⟩, ⟨0x96, .stx, .zpy, 4⟩, ⟨0x8E, .stx, .abs, 4⟩] ++
  [⟨0x84, .sty, .zp, 3⟩, ⟨0x94, .sty, .zpx, 4⟩, ⟨0x8C, .sty, .abs, 4⟩]

/-- The rows of Transfers and Stack: R96 to R101, R104 to R107. -/
def transferStackRows : List Row :=
  [⟨0xAA, .tax, .imp, 2⟩, ⟨0xA8, .tay, .imp, 2⟩, ⟨0x8A, .txa, .imp, 2⟩,
    ⟨0x98, .tya, .imp, 2⟩, ⟨0xBA, .tsx, .imp, 2⟩, ⟨0x9A, .txs, .imp, 2⟩,
    ⟨0x48, .pha, .imp, 3⟩, ⟨0x08, .php, .imp, 3⟩] ++
  [⟨0x68, .pla, .imp, 4⟩, ⟨0x28, .plp, .imp, 4⟩]

/-- The rows of Logical: R110 to R113. -/
def logicalRows : List Row :=
  [⟨0x29, .and, .imm, 2⟩, ⟨0x25, .and, .zp, 3⟩, ⟨0x35, .and, .zpx, 4⟩,
    ⟨0x2D, .and, .abs, 4⟩, ⟨0x3D, .and, .abx, 4⟩, ⟨0x39, .and, .aby, 4⟩,
    ⟨0x21, .and, .izx, 6⟩, ⟨0x31, .and, .izy, 5⟩] ++
  [⟨0x49, .eor, .imm, 2⟩, ⟨0x45, .eor, .zp, 3⟩, ⟨0x55, .eor, .zpx, 4⟩,
    ⟨0x4D, .eor, .abs, 4⟩, ⟨0x5D, .eor, .abx, 4⟩, ⟨0x59, .eor, .aby, 4⟩,
    ⟨0x41, .eor, .izx, 6⟩, ⟨0x51, .eor, .izy, 5⟩] ++
  [⟨0x09, .ora, .imm, 2⟩, ⟨0x05, .ora, .zp, 3⟩, ⟨0x15, .ora, .zpx, 4⟩,
    ⟨0x0D, .ora, .abs, 4⟩, ⟨0x1D, .ora, .abx, 4⟩, ⟨0x19, .ora, .aby, 4⟩,
    ⟨0x01, .ora, .izx, 6⟩, ⟨0x11, .ora, .izy, 5⟩] ++
  [⟨0x24, .bit, .zp, 3⟩, ⟨0x2C, .bit, .abs, 4⟩]

/-- The rows of Arithmetic and Compare: R115 to R119. -/
def arithmeticRows : List Row :=
  [⟨0x69, .adc, .imm, 2⟩, ⟨0x65, .adc, .zp, 3⟩, ⟨0x75, .adc, .zpx, 4⟩,
    ⟨0x6D, .adc, .abs, 4⟩, ⟨0x7D, .adc, .abx, 4⟩, ⟨0x79, .adc, .aby, 4⟩,
    ⟨0x61, .adc, .izx, 6⟩, ⟨0x71, .adc, .izy, 5⟩] ++
  [⟨0xE9, .sbc, .imm, 2⟩, ⟨0xE5, .sbc, .zp, 3⟩, ⟨0xF5, .sbc, .zpx, 4⟩,
    ⟨0xED, .sbc, .abs, 4⟩, ⟨0xFD, .sbc, .abx, 4⟩, ⟨0xF9, .sbc, .aby, 4⟩,
    ⟨0xE1, .sbc, .izx, 6⟩, ⟨0xF1, .sbc, .izy, 5⟩] ++
  [⟨0xC9, .cmp, .imm, 2⟩, ⟨0xC5, .cmp, .zp, 3⟩, ⟨0xD5, .cmp, .zpx, 4⟩,
    ⟨0xCD, .cmp, .abs, 4⟩, ⟨0xDD, .cmp, .abx, 4⟩, ⟨0xD9, .cmp, .aby, 4⟩,
    ⟨0xC1, .cmp, .izx, 6⟩, ⟨0xD1, .cmp, .izy, 5⟩] ++
  [⟨0xE0, .cpx, .imm, 2⟩, ⟨0xE4, .cpx, .zp, 3⟩, ⟨0xEC, .cpx, .abs, 4⟩] ++
  [⟨0xC0, .cpy, .imm, 2⟩, ⟨0xC4, .cpy, .zp, 3⟩, ⟨0xCC, .cpy, .abs, 4⟩]

/-- The rows of Increment/Decrement: R120 to R125. -/
def incDecRows : List Row :=
  [⟨0xE6, .inc, .zp, 5⟩, ⟨0xF6, .inc, .zpx, 6⟩, ⟨0xEE, .inc, .abs, 6⟩,
    ⟨0xFE, .inc, .abx, 7⟩] ++
  [⟨0xC6, .dec, .zp, 5⟩, ⟨0xD6, .dec, .zpx, 6⟩, ⟨0xCE, .dec, .abs, 6⟩,
    ⟨0xDE, .dec, .abx, 7⟩, ⟨0xE8, .inx, .imp, 2⟩, ⟨0xC8, .iny, .imp, 2⟩,
    ⟨0xCA, .dex, .imp, 2⟩, ⟨0x88, .dey, .imp, 2⟩]

/-- The rows of Shifts/Rotates: R127 to R130. -/
def shiftRows : List Row :=
  [⟨0x0A, .asl, .acc, 2⟩, ⟨0x06, .asl, .zp, 5⟩, ⟨0x16, .asl, .zpx, 6⟩,
    ⟨0x0E, .asl, .abs, 6⟩, ⟨0x1E, .asl, .abx, 7⟩] ++
  [⟨0x4A, .lsr, .acc, 2⟩, ⟨0x46, .lsr, .zp, 5⟩, ⟨0x56, .lsr, .zpx, 6⟩,
    ⟨0x4E, .lsr, .abs, 6⟩, ⟨0x5E, .lsr, .abx, 7⟩] ++
  [⟨0x2A, .rol, .acc, 2⟩, ⟨0x26, .rol, .zp, 5⟩, ⟨0x36, .rol, .zpx, 6⟩,
    ⟨0x2E, .rol, .abs, 6⟩, ⟨0x3E, .rol, .abx, 7⟩] ++
  [⟨0x6A, .ror, .acc, 2⟩, ⟨0x66, .ror, .zp, 5⟩, ⟨0x76, .ror, .zpx, 6⟩,
    ⟨0x6E, .ror, .abs, 6⟩, ⟨0x7E, .ror, .abx, 7⟩]

/-- The rows of Jumps/Calls and Branches: R132 to R134, R136 to R143. -/
def controlRows : List Row :=
  [⟨0x4C, .jmp, .abs, 3⟩, ⟨0x6C, .jmp, .ind, 5⟩, ⟨0x20, .jsr, .abs, 6⟩,
    ⟨0x60, .rts, .imp, 6⟩, ⟨0x90, .bcc, .rel, 2⟩, ⟨0xB0, .bcs, .rel, 2⟩,
    ⟨0xF0, .beq, .rel, 2⟩, ⟨0xD0, .bne, .rel, 2⟩] ++
  [⟨0x30, .bmi, .rel, 2⟩, ⟨0x10, .bpl, .rel, 2⟩, ⟨0x50, .bvc, .rel, 2⟩,
    ⟨0x70, .bvs, .rel, 2⟩]

/-- The rows of Status flag operations and System: R146 to R155. -/
def systemRows : List Row :=
  [⟨0x18, .clc, .imp, 2⟩, ⟨0xD8, .cld, .imp, 2⟩, ⟨0x58, .cli, .imp, 2⟩,
    ⟨0xB8, .clv, .imp, 2⟩, ⟨0x38, .sec, .imp, 2⟩, ⟨0xF8, .sed, .imp, 2⟩,
    ⟨0x78, .sei, .imp, 2⟩, ⟨0x00, .brk, .imp, 7⟩] ++
  [⟨0x40, .rti, .imp, 6⟩, ⟨0xEA, .nop, .imp, 2⟩]

/-- The 151 assigned rows of the opcode table (R54). -/
def opcodeTable : List Row :=
  loadStoreRows ++ transferStackRows ++ logicalRows ++ arithmeticRows ++ incDecRows ++ shiftRows ++
  controlRows ++ systemRows

/-- The sentinel descriptor {illegal, 0 cycles, Implicit} of an unassigned opcode (R55). -/
def sentinelRow (op : Byte) : Row := ⟨op, .ill, .imp, 0⟩

/-- `lookup(opcode)`: total, by the opcode byte alone (R51, R54, `41_step_dispatch.md` R81). -/
def lookup (op : Byte) : Row :=
  match opcodeTable.find? (fun r => r.opcode == op) with
  | some r => r
  | none => sentinelRow op

/-- How many operand bytes follow the opcode: the table under R51. -/
def Mode.operandWidth : Mode → Nat
  | .imp | .acc => 0
  | .imm | .zp | .zpx | .zpy | .izx | .izy | .rel => 1
  | .abs | .abx | .aby | .ind => 2

/-- The memory operand of a mode from the two operand bytes (R53); `d8` is the first of them and
`a16` is little-endian. -/
def memOperandOf (m : Mode) (b1 b2 : Byte) : Option MemOperand :=
  match m with
  | .zp => some (.zp b1)
  | .zpx => some (.zpx b1)
  | .zpy => some (.zpy b1)
  | .abs => some (.abs (word16 b2 b1))
  | .abx => some (.abx (word16 b2 b1))
  | .aby => some (.aby (word16 b2 b1))
  | .izx => some (.izx b1)
  | .izy => some (.izy b1)
  | .imp | .acc | .imm | .ind | .rel => none

/-- The data operand of a mode from the two operand bytes (R53). -/
def dataOperandOf (m : Mode) (b1 b2 : Byte) : Option DataOperand :=
  match m with
  | .imm => some (.imm b1)
  | m => (memOperandOf m b1 b2).map .mem

/-- The shift target of a mode from the two operand bytes (R126). -/
def shiftOperandOf (m : Mode) (b1 b2 : Byte) : Option ShiftOperand :=
  match m with
  | .acc => some .acc
  | m => (memOperandOf m b1 b2).map .mem

/-- The jump target of a mode from the two operand bytes (R132). -/
def jumpOperandOf (m : Mode) (b1 b2 : Byte) : Option JumpOperand :=
  match m with
  | .abs => some (.abs (word16 b2 b1))
  | .ind => some (.ind (word16 b2 b1))
  | _ => none

/-- The instruction of a table row with operand bytes `b1` and `b2`, and `none` for a pairing of
mnemonic and mode whose operand form does not exist (no row of the table is one). -/
def instrOfRow (r : Row) (b1 b2 : Byte) : Option Instr :=
  match r.mnemonic with
  | .lda => (dataOperandOf r.mode b1 b2).map .lda
  | .ldx => (dataOperandOf r.mode b1 b2).map .ldx
  | .ldy => (dataOperandOf r.mode b1 b2).map .ldy
  | .sta => (memOperandOf r.mode b1 b2).map .sta
  | .stx => (memOperandOf r.mode b1 b2).map .stx
  | .sty => (memOperandOf r.mode b1 b2).map .sty
  | .tax => some .tax
  | .tay => some .tay
  | .txa => some .txa
  | .tya => some .tya
  | .tsx => some .tsx
  | .txs => some .txs
  | .pha => some .pha
  | .php => some .php
  | .pla => some .pla
  | .plp => some .plp
  | .and => (dataOperandOf r.mode b1 b2).map .and
  | .eor => (dataOperandOf r.mode b1 b2).map .eor
  | .ora => (dataOperandOf r.mode b1 b2).map .ora
  | .bit => (memOperandOf r.mode b1 b2).map .bit
  | .adc => (dataOperandOf r.mode b1 b2).map .adc
  | .sbc => (dataOperandOf r.mode b1 b2).map .sbc
  | .cmp => (dataOperandOf r.mode b1 b2).map .cmp
  | .cpx => (dataOperandOf r.mode b1 b2).map .cpx
  | .cpy => (dataOperandOf r.mode b1 b2).map .cpy
  | .inc => (memOperandOf r.mode b1 b2).map .inc
  | .dec => (memOperandOf r.mode b1 b2).map .dec
  | .inx => some .inx
  | .iny => some .iny
  | .dex => some .dex
  | .dey => some .dey
  | .asl => (shiftOperandOf r.mode b1 b2).map .asl
  | .lsr => (shiftOperandOf r.mode b1 b2).map .lsr
  | .rol => (shiftOperandOf r.mode b1 b2).map .rol
  | .ror => (shiftOperandOf r.mode b1 b2).map .ror
  | .jmp => (jumpOperandOf r.mode b1 b2).map .jmp
  | .jsr => some (.jsr (word16 b2 b1))
  | .rts => some .rts
  | .bcc => some (.bcc b1)
  | .bcs => some (.bcs b1)
  | .beq => some (.beq b1)
  | .bne => some (.bne b1)
  | .bmi => some (.bmi b1)
  | .bpl => some (.bpl b1)
  | .bvc => some (.bvc b1)
  | .bvs => some (.bvs b1)
  | .clc => some .clc
  | .cld => some .cld
  | .cli => some .cli
  | .clv => some .clv
  | .sec => some .sec
  | .sed => some .sed
  | .sei => some .sei
  | .brk => some .brk
  | .rti => some .rti
  | .nop => some .nop
  | .ill => some (.ill r.opcode)

/-- The instruction whose opcode byte is `op` and whose operand bytes, as far as its mode has any,
are `b1` and `b2`. Total: `decodeOpcode_row` (Laws/Decode.lean) shows that the last arm is never
taken. -/
def decodeOpcode (op b1 b2 : Byte) : Instr :=
  match instrOfRow (lookup op) b1 b2 with
  | some i => i
  | none => .ill op

/-- Why a list of bytes holds no whole instruction. Every opcode value has a meaning (R55), so the
only ground is that bytes are missing. -/
inductive DecodeError where
  /-- There is no opcode byte. -/
  | noOpcode
  /-- The opcode `op` needs more operand bytes than the list has. -/
  | truncated (op : Byte)
  deriving DecidableEq, Repr

/-- What the decoder answers: an instruction and the bytes after it, or the ground of its refusal. -/
inductive Decoded where
  | instr (i : Instr) (rest : List Byte)
  | rejected (why : DecodeError)
  deriving DecidableEq, Repr

/-- The decoder on any list of bytes, lowest address first (R50, R51). -/
def decode (bytes : List Byte) : Decoded :=
  match bytes with
  | [] => .rejected .noOpcode
  | op :: rest =>
    match (lookup op).mode.operandWidth, rest with
    | 0, rest => .instr (decodeOpcode op 0 0) rest
    | 1, b1 :: rest => .instr (decodeOpcode op b1 0) rest
    | _, b1 :: b2 :: rest => .instr (decodeOpcode op b1 b2) rest
    | _, _ => .rejected (.truncated op)

/-- The mnemonic of an instruction. -/
def Instr.mnemonic : Instr → Mnemonic
  | .lda _ => .lda
  | .ldx _ => .ldx
  | .ldy _ => .ldy
  | .sta _ => .sta
  | .stx _ => .stx
  | .sty _ => .sty
  | .tax => .tax
  | .tay => .tay
  | .txa => .txa
  | .tya => .tya
  | .tsx => .tsx
  | .txs => .txs
  | .pha => .pha
  | .php => .php
  | .pla => .pla
  | .plp => .plp
  | .and _ => .and
  | .eor _ => .eor
  | .ora _ => .ora
  | .bit _ => .bit
  | .adc _ => .adc
  | .sbc _ => .sbc
  | .cmp _ => .cmp
  | .cpx _ => .cpx
  | .cpy _ => .cpy
  | .inc _ => .inc
  | .dec _ => .dec
  | .inx => .inx
  | .iny => .iny
  | .dex => .dex
  | .dey => .dey
  | .asl _ => .asl
  | .lsr _ => .lsr
  | .rol _ => .rol
  | .ror _ => .ror
  | .jmp _ => .jmp
  | .jsr _ => .jsr
  | .rts => .rts
  | .bcc _ => .bcc
  | .bcs _ => .bcs
  | .beq _ => .beq
  | .bne _ => .bne
  | .bmi _ => .bmi
  | .bpl _ => .bpl
  | .bvc _ => .bvc
  | .bvs _ => .bvs
  | .clc => .clc
  | .cld => .cld
  | .cli => .cli
  | .clv => .clv
  | .sec => .sec
  | .sed => .sed
  | .sei => .sei
  | .brk => .brk
  | .rti => .rti
  | .nop => .nop
  | .ill _ => .ill

/-- The addressing mode of an instruction. -/
def Instr.mode : Instr → Mode
  | .lda o | .ldx o | .ldy o | .and o | .eor o | .ora o | .adc o | .sbc o | .cmp o | .cpx o
  | .cpy o => o.mode
  | .sta m | .stx m | .sty m | .bit m | .inc m | .dec m => m.mode
  | .asl o | .lsr o | .rol o | .ror o => o.mode
  | .jmp t => t.mode
  | .jsr _ => .abs
  | .bcc _ | .bcs _ | .beq _ | .bne _ | .bmi _ | .bpl _ | .bvc _ | .bvs _ => .rel
  | .tax | .tay | .txa | .tya | .tsx | .txs | .pha | .php | .pla | .plp | .inx | .iny | .dex | .dey
  | .rts | .clc | .cld | .cli | .clv | .sec | .sed | .sei | .brk | .rti | .nop | .ill _ => .imp

/-- The table row of an instruction, found by mnemonic and mode; a sentinel's row is the sentinel
descriptor of its opcode (R54, R55). -/
def Instr.row? (i : Instr) : Option Row :=
  match i with
  | .ill op => some (sentinelRow op)
  | i => opcodeTable.find? (fun r => decide (r.mnemonic = i.mnemonic) && decide (r.mode = i.mode))

/-- The base cycle cost of an instruction: its row's (R54), 0 for the sentinel (R55). -/
def Instr.baseCycles (i : Instr) : Nat :=
  match i.row? with
  | some r => r.cycles
  | none => 0

/-- The length of an instruction in bytes: one more than its mode's operand width (R51). -/
def Instr.length (i : Instr) : Nat := 1 + i.mode.operandWidth

/-- A 16-bit operand as the instruction stream holds it, low byte first (R50). -/
def wordBytes (a : Word) : List Byte := [loByte a, hiByte a]

/-- The operand bytes of a memory operand. -/
def MemOperand.bytes : MemOperand → List Byte
  | .zp d | .zpx d | .zpy d | .izx d | .izy d => [d]
  | .abs a | .abx a | .aby a => wordBytes a

/-- The operand bytes of a data operand. -/
def DataOperand.bytes : DataOperand → List Byte
  | .imm v => [v]
  | .mem m => m.bytes

/-- The operand bytes of a shift target. -/
def ShiftOperand.bytes : ShiftOperand → List Byte
  | .acc => []
  | .mem m => m.bytes

/-- The operand bytes of a jump target. -/
def JumpOperand.bytes : JumpOperand → List Byte
  | .abs a | .ind a => wordBytes a

/-- The operand bytes of an instruction. -/
def Instr.operandBytes : Instr → List Byte
  | .lda o | .ldx o | .ldy o | .and o | .eor o | .ora o | .adc o | .sbc o | .cmp o | .cpx o
  | .cpy o => o.bytes
  | .sta m | .stx m | .sty m | .bit m | .inc m | .dec m => m.bytes
  | .asl o | .lsr o | .rol o | .ror o => o.bytes
  | .jmp t => t.bytes
  | .jsr a => wordBytes a
  | .bcc d | .bcs d | .beq d | .bne d | .bmi d | .bpl d | .bvc d | .bvs d => [d]
  | .tax | .tay | .txa | .tya | .tsx | .txs | .pha | .php | .pla | .plp | .inx | .iny | .dex | .dey
  | .rts | .clc | .cld | .cli | .clv | .sec | .sed | .sei | .brk | .rti | .nop | .ill _ => []

/-- The encoder: the bytes of a well-formed instruction, lowest address first (R50, R54). A term
that the table has no row for has no bytes. -/
def encode (i : Instr) : List Byte :=
  match i.row? with
  | some r => r.opcode :: i.operandBytes
  | none => []

/-- The bytes of an instruction whose bits are `w`, numbered as `opcode_table.json` numbers them
(the first byte is bits 7 to 0), the bits from `nbits` on being 0, out to the longest instruction. -/
def tableBytes (nbits w : Nat) : List Byte :=
  let v := w % 2 ^ nbits
  [BitVec.ofNat 8 v, BitVec.ofNat 8 (v / 256), BitVec.ofNat 8 (v / 65536)]

/-- The instruction the decoder reads from a word of the opcode table. -/
def decodeTableWord (nbits w : Nat) : Option Instr :=
  match decode (tableBytes nbits w) with
  | .instr i _ => some i
  | .rejected _ => none

end Sys2Proof
end

