-- ==== Sys2Proof/Config.lean ====
section
/-! DEFINITION. What lies outside the core and is left open by the spec: the collaborators behind
the bus (the picture processing unit, its OAM-DMA trigger and the cartridge space that no rule
fills) and the one free value they answer with. -/

namespace Sys2Proof

/-- A collaborator the bus can select: register `addr mod 8` of the PPU window or the OAM-DMA
trigger (`20_memory.md` R36), or the cartridge at an address the spec leaves to `CART` (R38). -/
inductive Device where
  | ppu (register : Fin 8)
  | oamDma
  | cart (address : Word)
  deriving DecidableEq, Repr

/-- One access of the core to a collaborator: a read, or a write event that hands a byte over
(R36, R38). -/
inductive DeviceAccess where
  | read (device : Device)
  | write (device : Device) (value : Byte)
  deriving DecidableEq, Repr

/-- FREE VALUE (assumption 1). What a collaborator answers to a read: any byte, which may depend on
every access made so far. The argument is the whole list of accesses, newest first, the read being
answered at its head. It has no body, so nothing can be proved of it: R36 "any byte; the model
assumes nothing of it". -/
opaque Config.deviceAnswer : List DeviceAccess → Byte

end Sys2Proof
end

