-- ==== Sys2Proof/Machine/State.lean ====
section
/-! DEFINITION. The state of the machine as plain data: the ten items of the core
(`10_state.md` R10), the memory of the bus (`20_memory.md` R35, R38), the launch parameter that
says how the program ROM is mapped, and the record of accesses to the collaborators (R36). Then the
ways a step can stop (none that the spec gives) and the state after reset. -/

namespace Sys2Proof.Machine

/-- How many 16 KiB banks the program ROM has, as far as the map of `20_memory.md` R38 tells sizes
apart: one (mirrored), two (linear), any other number (cartridge answers). -/
inductive PrgSize where
  | one
  | two
  | other
  deriving DecidableEq, Repr

/-- Memory as a list of cells: a cell number and the byte it holds. A cell number below 0x0800 is a
RAM cell (R35); a cell number from 0x8000 on is the program ROM byte `PRG[number - 0x8000]` (R38). -/
abbrev Memory := List Host.Cell

/-- What a cell that is not listed holds (assumption 2). -/
def Memory.unlisted : Byte := 0x00#8

/-- The canonical form of a memory: cell numbers strictly rising, and no cell listed with the byte
an unlisted one holds. -/
abbrev Memory.wf (m : Memory) : Prop :=
  m.Pairwise (fun c d => c.1 < d.1) ∧ ∀ c ∈ m, c.2 ≠ Memory.unlisted

/-- The state. -/
@[ext]
structure State where
  /-- `A`, the accumulator (R11). -/
  a : Byte
  /-- `X`, index register (R12). -/
  x : Byte
  /-- `Y`, index register (R13). -/
  y : Byte
  /-- `SP`, the stack pointer into page 0x01 (R14). -/
  sp : Byte
  /-- `PC`, the program counter (R15). -/
  pc : Word
  /-- `P`, the status register, all eight bits stored (R16, R17). -/
  p : Byte
  /-- `nmi_pending` (R21). -/
  nmiPending : Bool
  /-- `page_crossed`, false at every step boundary (R22). -/
  pageCrossed : Bool
  /-- `extra_eligible`, false at every step boundary (R22). -/
  extraEligible : Bool
  /-- `cycles`, the cumulative cycle counter (R23). -/
  cycles : Nat
  /-- The RAM and program ROM behind the bus (R35, R38). -/
  mem : Memory
  /-- The size of the program ROM, a launch parameter that no step changes (R38). -/
  prg : PrgSize
  /-- The accesses made to collaborators so far, newest first (R36): the write events handed over,
  and the reads, which the free value `Config.deviceAnswer` answers (assumption 1). -/
  devLog : List DeviceAccess
  deriving DecidableEq, Repr

/-- The faults of the machine: none. "No instruction, operand, address or opcode raises a fault"
(`60_exceptions.md` R160), so the type has no constructor and nobody can raise one. -/
inductive Fault where
  deriving DecidableEq, Repr

/-- The grounds on which `exec` can refuse an instruction. -/
inductive Refusal where
  /-- Raised by an arm of `exec` whose instruction has no meaning yet, with its mnemonic. Safe: the
  machine stops where the hardware goes on. No arm of this model raises it. -/
  | notModelled (mnemonic : String)
  deriving DecidableEq, Repr

/-- The state right after `reset()` on the launch memory with nothing listed (`10_state.md` R25,
`70_reset_and_hazards.md` R180, R181). `pc` is `Read16(0xFFFC)` of that memory (`reset_eq_hostReset`
in Laws/Ops.lean). The size of the program ROM and the contents of unlisted cells are
assumptions 2 and 3. -/
def State.reset : State where
  a := 0x00#8
  x := 0x00#8
  y := 0x00#8
  sp := 0xFD#8
  pc := 0x0000#16
  p := 0x24#8
  nmiPending := false
  pageCrossed := false
  extraEligible := false
  cycles := 7
  mem := []
  prg := .one
  devLog := []

end Sys2Proof.Machine
end

