-- ==== Sys2Proof/Machine/Flags.lean ====
section
/-! DEFINITION. The status register and every flag computation of the spec: the eight bits
(`10_state.md` R16, R17), the pushed copy (R19), Zero and Negative (R20), the adder
(`44_logical_arith_compare.md` R114), the comparison (R117 to R119) and the four shifts
(`45_incdec_shift.md` R127 to R130). -/

namespace Sys2Proof.Machine

/-- The bits of `P` by name (R16). -/
inductive Flag where
  | c | z | i | d | b | u | v | n
  deriving DecidableEq, Repr

/-- The number of a flag's bit in `P` (R16). -/
def Flag.bit : Flag → Nat
  | .c => 0
  | .z => 1
  | .i => 2
  | .d => 3
  | .b => 4
  | .u => 5
  | .v => 6
  | .n => 7

/-- Bit `f` of a status byte: `testFlag` (R17). -/
def flagOf (p : Byte) (f : Flag) : Bool := p.getLsbD f.bit

/-- The status byte with bit `f` made `b` and every other bit kept: `setFlag`, `clearFlag` (R17). -/
def withFlag (p : Byte) (f : Flag) (b : Bool) : Byte :=
  if b then p ||| BitVec.twoPow 8 f.bit else p &&& ~~~(BitVec.twoPow 8 f.bit)

/-- Bit `f` of the status register. -/
def State.flag (s : State) (f : Flag) : Bool := flagOf s.p f

/-- Writes bit `f` of the status register and nothing else. -/
def setFlag (f : Flag) (b : Bool) (s : State) : State := { s with p := withFlag s.p f b }

/-- `SetZN(v)`: Zero and Negative, both written in both directions (R20). -/
def setZN (v : Byte) (s : State) : State := setFlag .n (v.getLsbD 7) (setFlag .z (v == 0) s)

/-- `StatusForPush(break_forced)`: bit 5 forced, bit 4 forced for PHP and BRK (R19). -/
def statusForPush (breakForced : Bool) (p : Byte) : Byte :=
  p ||| 0x20#8 ||| (if breakForced then 0x10#8 else 0x00#8)

/-- `AddCore(b)`: the 9-bit sum of A, `b` and Carry; Carry out, signed overflow, Zero and Negative;
Decimal is not read (R114). -/
def addCore (b : Byte) (s : State) : State :=
  let t := s.a.toNat + b.toNat + (s.flag .c).toNat
  let r : Byte := BitVec.ofNat 8 t
  let overflow := (~~~(s.a ^^^ b) &&& (s.a ^^^ r) &&& 0x80#8) != 0
  setZN r { setFlag .v overflow (setFlag .c (decide (255 < t)) s) with a := r }

/-- The comparison of a register with a byte: Carry iff register ≥ byte, Zero iff equal, Negative
from the difference (R117, R118, R119). -/
def compareFlags (r m : Byte) (s : State) : State :=
  setFlag .n ((r - m).getLsbD 7) (setFlag .z (r == m) (setFlag .c (decide (m.toNat ≤ r.toNat)) s))

/-- BIT's flags: Zero from the and, Negative and Overflow from bits 7 and 6 of the byte (R113). -/
def bitFlags (m : Byte) (s : State) : State :=
  setFlag .v (m.getLsbD 6) (setFlag .n (m.getLsbD 7) (setFlag .z ((s.a &&& m) == 0) s))

/-- The carry bit as a byte. -/
def carryByte (c : Bool) : Byte := if c then 1#8 else 0#8

/-- ASL's function: the shifted byte and the bit shifted out; the carry in is not used (R127). -/
def aslByte (v : Byte) (_cin : Bool) : Byte × Bool := (v <<< 1, v.getLsbD 7)

/-- LSR's function (R128). -/
def lsrByte (v : Byte) (_cin : Bool) : Byte × Bool := (v >>> 1, v.getLsbD 0)

/-- ROL's function: the old carry enters bit 0 (R129). -/
def rolByte (v : Byte) (cin : Bool) : Byte × Bool := ((v <<< 1) ||| carryByte cin, v.getLsbD 7)

/-- ROR's function: the old carry enters bit 7 (R130). -/
def rorByte (v : Byte) (cin : Bool) : Byte × Bool :=
  ((v >>> 1) ||| (carryByte cin <<< 7), v.getLsbD 0)

end Sys2Proof.Machine
end

