-- ==== Sys2Proof/Machine/Ops.lean ====
section
/-! DEFINITION. The named operations over memory and registers: the cells of memory, the bus and its
address map (`20_memory.md`), the stack (`43_stack.md`), taking an interrupt and returning from one
(`60_exceptions.md`), cycle accounting (`41_step_dispatch.md`), and what the host can do between
steps (`60_exceptions.md` R170). -/

namespace Sys2Proof.Machine

/-- What `exec` and `step` answer. -/
abbrev Out := Host.Outcome State Fault Refusal

/-- Fixed addresses of the core (`20_memory.md` R46, `00_scope.md` R5). -/
def stackBase : Word := 0x0100#16

/-- Where NMI service takes PC from (R46, R164). -/
def nmiVector : Word := 0xFFFA#16

/-- Where reset takes PC from (R46, R180). -/
def resetVector : Word := 0xFFFC#16

/-- Where BRK takes PC from (R46, R153). -/
def brkVector : Word := 0xFFFE#16

/-- A byte as a word: `zext_16(b)` (`00_scope.md` R7). -/
def zext (b : Byte) : Word := b.setWidth 16

/-- A byte as a signed word: `sext_16(b)` (R7). -/
def sext (b : Byte) : Word := b.signExtend 16

/-! ### Memory cells -/

/-- The byte in cell `k`. -/
def Memory.read : Memory → Nat → Byte
  | [], _ => Memory.unlisted
  | c :: m, k => if c.1 = k then c.2 else Memory.read m k

/-- The list without any entry for cell `k`. -/
def Memory.erase : Memory → Nat → Memory
  | [], _ => []
  | c :: m, k => if c.1 = k then Memory.erase m k else c :: Memory.erase m k

/-- The list with an entry for cell `k` put in front of the first higher cell number. -/
def Memory.insert : Memory → Nat → Byte → Memory
  | [], k, v => [(k, v)]
  | c :: m, k, v => if k < c.1 then (k, v) :: c :: m else c :: Memory.insert m k v

/-- Writes `v` into cell `k`, keeping the canonical form: a cell that comes to hold what an unlisted
one holds is not listed. -/
def Memory.write (m : Memory) (k : Nat) (v : Byte) : Memory :=
  if v = Memory.unlisted then Memory.erase m k else Memory.insert (Memory.erase m k) k v

/-! ### The bus -/

/-- What the bus selects for an address. -/
inductive Target where
  | ram (cell : Nat)
  | rom (cell : Nat)
  | unmapped
  | device (d : Device)
  deriving DecidableEq, Repr

/-- Whether a target is a RAM cell, the only place a bus write can change (R35, R37, R38). -/
def Target.isRam : Target → Bool
  | .ram _ => true
  | .rom _ => false
  | .unmapped => false
  | .device _ => false

/-- The partition of the address space (R34), with the mirrors of R35, R36 and R38. -/
def route (prg : PrgSize) (addr : Word) : Target :=
  let n := addr.toNat
  if n < 0x2000 then .ram (n % 0x0800)
  else if n < 0x4000 then .device (.ppu (Fin.ofNat 8 n))
  else if n = 0x4014 then .device .oamDma
  else if n < 0x4020 then .unmapped
  else if n < 0x8000 then .device (.cart addr)
  else match prg with
    | .one => .rom (0x8000 + n % 0x4000)
    | .two => .rom n
    | .other => .device (.cart addr)

/-- What the bus of state `s` selects for an address. -/
def State.target (s : State) (addr : Word) : Target := route s.prg addr

/-- One read of a collaborator: the access is recorded and the free value answers (R36, R38,
assumption 1). -/
def deviceRead (d : Device) (s : State) : Byte × State :=
  let log := .read d :: s.devLog
  (Config.deviceAnswer log, { s with devLog := log })

/-- `MemRead(addr, 1)` (R31): the byte, and the state after the access. -/
def memRead (addr : Word) (s : State) : Byte × State :=
  match s.target addr with
  | .ram k => (s.mem.read k, s)
  | .rom k => (s.mem.read k, s)
  | .unmapped => (0x00#8, s)
  | .device d => deviceRead d s

/-- `MemWrite(addr, 1, v)` (R32): RAM takes the byte, ROM and unmapped addresses discard it (R37,
R38), a collaborator is handed it (R36). -/
def memWrite (addr : Word) (v : Byte) (s : State) : State :=
  match s.target addr with
  | .ram k => { s with mem := s.mem.write k v }
  | .rom _ => s
  | .unmapped => s
  | .device d => { s with devLog := .write d v :: s.devLog }

/-- The byte an address holds, where the bus routes it to memory or to nothing: what `memRead` reads
there (`memRead_of_stored` in Laws/Ops.lean). `none` where a collaborator answers. -/
def State.stored (s : State) (addr : Word) : Option Byte :=
  match s.target addr with
  | .ram k => some (s.mem.read k)
  | .rom k => some (s.mem.read k)
  | .unmapped => some 0x00#8
  | .device _ => none

/-- `Read16(addr)`: low byte first, then the byte at `addr + 1` modulo 65536 (R40). -/
def read16 (addr : Word) (s : State) : Word × State :=
  let l := memRead addr s
  let h := memRead (addr + 1) l.2
  (word16 h.1 l.1, h.2)

/-- `Fetch8()` (`40_addressing_modes.md` R65). -/
def fetch8 (s : State) : Byte × State :=
  let b := memRead s.pc s
  (b.1, { b.2 with pc := b.2.pc + 1 })

/-! ### The stack -/

/-- The address of the cell `SP` designates (`10_state.md` R14). -/
def stackAddr (sp : Byte) : Word := stackBase + zext sp

/-- `Push(v)`: write, then decrement (`43_stack.md` R102). -/
def push (v : Byte) (s : State) : State :=
  let s := memWrite (stackAddr s.sp) v s
  { s with sp := s.sp - 1 }

/-- `Pull()`: increment, then read (R103). -/
def pull (s : State) : Byte × State :=
  let s := { s with sp := s.sp + 1 }
  memRead (stackAddr s.sp) s

/-- A word pushed high byte first (`46_jumps_branches.md` R133). -/
def pushWord (w : Word) (s : State) : State := push (loByte w) (push (hiByte w) s)

/-- A word pulled low byte first (R134). -/
def pullWord (s : State) : Word × State :=
  let l := pull s
  let h := pull l.2
  (word16 h.1 l.1, h.2)

/-! ### Taking an interrupt and returning from one -/

/-- The interrupt sequence that BRK and NMI service share (`47_flagops_system.md` R153,
`60_exceptions.md` R164): push the return address and a copy of the status, set Interrupt-Disable,
load PC from the vector. -/
def takeInterrupt (ret : Word) (breakForced : Bool) (vector : Word) (s : State) : State :=
  let s := push (statusForPush breakForced s.p) (pushWord ret s)
  let w := read16 vector (setFlag .i true s)
  { w.2 with pc := w.1 }

/-- The return from an interrupt (R154): all eight bits of P, then PC with no increment. -/
def returnFromInterrupt (s : State) : State :=
  let q := pull s
  let w := pullWord { q.2 with p := q.1 }
  { w.2 with pc := w.1 }

/-! ### Cycle accounting -/

/-- The end of a step: `n` cycles are added and both transient flags cleared (`41_step_dispatch.md`
R80). -/
def account (n : Nat) (s : State) : State :=
  { s with cycles := s.cycles + n, pageCrossed := false, extraEligible := false }

/-- The page-cross cycle: 1 if both transient flags are set, else 0 (R82). -/
def pageCrossCycle (s : State) : Nat := if s.pageCrossed && s.extraEligible then 1 else 0

/-- The end of instruction `i`, whose handler added `extra` cycles of its own (R80, R84). -/
def finishWith (extra : Nat) (i : Instr) (s : State) : Out :=
  .next (account (i.baseCycles + extra + pageCrossCycle s) s)

/-- The end of an instruction whose handler adds no cycles of its own. -/
def finish (i : Instr) (s : State) : Out := finishWith 0 i s

/-- `extra_eligible <- true` (R83). -/
def markEligible (s : State) : State := { s with extraEligible := true }

/-- `ServiceNMI()` as a whole step (`60_exceptions.md` R164, `41_step_dispatch.md` R80): the
interrupt sequence with the status as held, the request cleared, 7 cycles. -/
def serviceNmi (s : State) : State :=
  account 7 { takeInterrupt s.pc false nmiVector s with nmiPending := false }

/-! ### The host's calls between steps (R170) -/

/-- `requestNMI()` (R163). -/
def requestNmi (s : State) : State := { s with nmiPending := true }

/-- `reset()` (`70_reset_and_hazards.md` R180): the registers, then PC from the reset vector; memory
and collaborators are left as they are. -/
def hostReset (s : State) : State :=
  let s := { s with
    a := 0x00#8, x := 0x00#8, y := 0x00#8, sp := 0xFD#8, p := 0x24#8, nmiPending := false,
    pageCrossed := false, extraEligible := false, cycles := 7 }
  let w := read16 resetVector s
  { w.2 with pc := w.1 }

/-- `peek(a)`: a bus read (R170). -/
def peek (addr : Word) (s : State) : Byte × State := memRead addr s

/-- `poke(a, v)`: a bus write (R170). -/
def poke (addr : Word) (v : Byte) (s : State) : State := memWrite addr v s

end Sys2Proof.Machine
end

