-- ==== Sys2Proof/Machine/Operands.lean ====
section
/-! DEFINITION. The addressing-mode resolver (`40_addressing_modes.md`): the effective address of
every operand form, and the reads, writes and read-modify-writes through it. The operand bytes have
been fetched and `pc` is the address of the next sequential instruction (`41_step_dispatch.md` R81). -/

namespace Sys2Proof.Machine

/-- `base + index` modulo 65536, with `page_crossed` set when the high byte changes (R74, R75, R78). -/
def indexed (base : Word) (index : Byte) (s : State) : Word × State :=
  let ea := base + zext index
  (ea, if hiByte ea = hiByte base then s else { s with pageCrossed := true })

/-- The pointer at page-zero address `z`, its high byte taken modulo 256 within page zero (R77, R78). -/
def zeroPagePointer (z : Byte) (s : State) : Word × State :=
  let l := memRead (zext z) s
  let h := memRead (zext (z + 1)) l.2
  (word16 h.1 l.1, h.2)

/-- The pointer of JMP Indirect: its high byte is read from the same page as its low byte (R76). -/
def indirectPointer (ptr : Word) (s : State) : Word × State :=
  let l := memRead ptr s
  let h := memRead (word16 (hiByte ptr) (loByte ptr + 1)) l.2
  (word16 h.1 l.1, h.2)

/-- The effective address of a memory operand and the state after the resolver's accesses (R66,
R70 to R75, R77, R78). -/
def resolve (m : MemOperand) (s : State) : Word × State :=
  match m with
  | .zp d => (zext d, s)
  | .zpx d => (zext (d + s.x), s)
  | .zpy d => (zext (d + s.y), s)
  | .abs a => (a, s)
  | .abx a => indexed a s.x s
  | .aby a => indexed a s.y s
  | .izx d => zeroPagePointer (d + s.x) s
  | .izy d =>
    let p := zeroPagePointer d s
    indexed p.1 p.2.y p.2

/-- The target of a jump (R73, R76). -/
def resolveJump (t : JumpOperand) (s : State) : Word × State :=
  match t with
  | .abs a => (a, s)
  | .ind a => indirectPointer a s

/-- The target of a branch: the next instruction's address plus the signed offset, modulo 65536
(R79). -/
def branchTarget (next : Word) (off : Byte) : Word := next + sext off

/-- The byte of a memory operand. -/
def readMem (m : MemOperand) (s : State) : Byte × State :=
  let ea := resolve m s
  memRead ea.1 ea.2

/-- The byte of a data operand: for Immediate the operand byte itself, which the fetch has read
(R69, assumption 4). -/
def readData (o : DataOperand) (s : State) : Byte × State :=
  match o with
  | .imm v => (v, s)
  | .mem m => readMem m s

/-- One write at a memory operand; the cell is not read first (`42_load_store_transfer.md` R93). -/
def writeMem (m : MemOperand) (v : Byte) (s : State) : State :=
  let ea := resolve m s
  memWrite ea.1 v ea.2

/-- One read then one write of the byte at a memory operand: the new byte, and the state after both
(`20_memory.md` R42). -/
def modifyMem (f : Byte → Byte) (m : MemOperand) (s : State) : Byte × State :=
  let ea := resolve m s
  let b := memRead ea.1 ea.2
  (f b.1, memWrite ea.1 (f b.1) b.2)

end Sys2Proof.Machine
end

