-- ==== Sys2Proof/Machine/Arith.lean ====
section
/-! DEFINITION. Addition and subtraction (`44_logical_arith_compare.md` R114 to R116). -/

namespace Sys2Proof.Machine

/-- ADC (R115). -/
def execAdc (o : DataOperand) (s : State) : Out :=
  let m := readData o s
  finish (.adc o) (markEligible (addCore m.1 m.2))

/-- SBC: the adder on the complemented byte (R116). -/
def execSbc (o : DataOperand) (s : State) : Out :=
  let m := readData o s
  finish (.sbc o) (markEligible (addCore (~~~m.1) m.2))

end Sys2Proof.Machine
end

