-- ==== Sys2Proof/Machine/Branch.lean ====
section
/-! DEFINITION. The eight branches (`46_jumps_branches.md` R135 to R143). -/

namespace Sys2Proof.Machine

/-- The cycles a taken branch adds: 1, and 1 more when the target is in another page than the next
instruction (R135). -/
def takenCycles (next target : Word) : Nat := if hiByte next = hiByte target then 1 else 2

/-- `Branch(cond)` of branch instruction `i` with offset byte `off` (R135). -/
def branch (cond : Bool) (i : Instr) (off : Byte) (s : State) : Out :=
  let target := branchTarget s.pc off
  if cond then finishWith (takenCycles s.pc target) i { s with pc := target } else finish i s

/-- BCC: branch if carry clear (R136). -/
def execBcc (off : Byte) (s : State) : Out := branch (!s.flag .c) (.bcc off) off s

/-- BCS: branch if carry set (R137). -/
def execBcs (off : Byte) (s : State) : Out := branch (s.flag .c) (.bcs off) off s

/-- BEQ: branch if Zero set (R138). -/
def execBeq (off : Byte) (s : State) : Out := branch (s.flag .z) (.beq off) off s

/-- BNE: branch if Zero clear (R139). -/
def execBne (off : Byte) (s : State) : Out := branch (!s.flag .z) (.bne off) off s

/-- BMI: branch if Negative set (R140). -/
def execBmi (off : Byte) (s : State) : Out := branch (s.flag .n) (.bmi off) off s

/-- BPL: branch if Negative clear (R141). -/
def execBpl (off : Byte) (s : State) : Out := branch (!s.flag .n) (.bpl off) off s

/-- BVC: branch if overflow clear (R142). -/
def execBvc (off : Byte) (s : State) : Out := branch (!s.flag .v) (.bvc off) off s

/-- BVS: branch if overflow set (R143). -/
def execBvs (off : Byte) (s : State) : Out := branch (s.flag .v) (.bvs off) off s

end Sys2Proof.Machine
end

