-- ==== Sys2Proof/Machine/Compare.lean ====
section
/-! DEFINITION. Comparisons (`44_logical_arith_compare.md` R117 to R119). -/

namespace Sys2Proof.Machine

/-- CMP (R117). -/
def execCmp (o : DataOperand) (s : State) : Out :=
  let m := readData o s
  finish (.cmp o) (markEligible (compareFlags m.2.a m.1 m.2))

/-- CPX (R118). -/
def execCpx (o : DataOperand) (s : State) : Out :=
  let m := readData o s
  finish (.cpx o) (compareFlags m.2.x m.1 m.2)

/-- CPY (R119). -/
def execCpy (o : DataOperand) (s : State) : Out :=
  let m := readData o s
  finish (.cpy o) (compareFlags m.2.y m.1 m.2)

end Sys2Proof.Machine
end

