-- ==== Sys2Proof/Machine/FlagOps.lean ====
section
/-! DEFINITION. Status flag operations (`47_flagops_system.md` R146 to R152): one bit each. -/

namespace Sys2Proof.Machine

/-- CLC (R146). -/
def execClc (s : State) : Out := finish .clc (setFlag .c false s)

/-- CLD (R147). -/
def execCld (s : State) : Out := finish .cld (setFlag .d false s)

/-- CLI (R148). -/
def execCli (s : State) : Out := finish .cli (setFlag .i false s)

/-- CLV (R149). -/
def execClv (s : State) : Out := finish .clv (setFlag .v false s)

/-- SEC (R150). -/
def execSec (s : State) : Out := finish .sec (setFlag .c true s)

/-- SED (R151). -/
def execSed (s : State) : Out := finish .sed (setFlag .d true s)

/-- SEI (R152). -/
def execSei (s : State) : Out := finish .sei (setFlag .i true s)

end Sys2Proof.Machine
end

