-- ==== Sys2Proof/Machine/IncDec.lean ====
section
/-! DEFINITION. Increment and decrement (`45_incdec_shift.md` R120 to R125). -/

namespace Sys2Proof.Machine

/-- INC (R120). -/
def execInc (m : MemOperand) (s : State) : Out :=
  let r := modifyMem (fun b => b + 1) m s
  finish (.inc m) (setZN r.1 r.2)

/-- DEC (R121). -/
def execDec (m : MemOperand) (s : State) : Out :=
  let r := modifyMem (fun b => b - 1) m s
  finish (.dec m) (setZN r.1 r.2)

/-- INX (R122). -/
def execInx (s : State) : Out := finish .inx (setZN (s.x + 1) { s with x := s.x + 1 })

/-- INY (R123). -/
def execIny (s : State) : Out := finish .iny (setZN (s.y + 1) { s with y := s.y + 1 })

/-- DEX (R124). -/
def execDex (s : State) : Out := finish .dex (setZN (s.x - 1) { s with x := s.x - 1 })

/-- DEY (R125). -/
def execDey (s : State) : Out := finish .dey (setZN (s.y - 1) { s with y := s.y - 1 })

end Sys2Proof.Machine
end

