-- ==== Sys2Proof/Machine/Jump.lean ====
section
/-! DEFINITION. Jumps and calls (`46_jumps_branches.md` R132 to R134). -/

namespace Sys2Proof.Machine

/-- JMP (R132). -/
def execJmp (t : JumpOperand) (s : State) : Out :=
  let ea := resolveJump t s
  finish (.jmp t) { ea.2 with pc := ea.1 }

/-- JSR: pushes the address of its own last byte (R133). -/
def execJsr (a : Word) (s : State) : Out :=
  finish (.jsr a) { pushWord (s.pc - 1) s with pc := a }

/-- RTS: the pulled word plus 1 (R134). -/
def execRts (s : State) : Out :=
  let w := pullWord s
  finish .rts { w.2 with pc := w.1 + 1 }

end Sys2Proof.Machine
end

