-- ==== Sys2Proof/Machine/LoadStore.lean ====
section
/-! DEFINITION. Load and store (`42_load_store_transfer.md` R90 to R95). -/

namespace Sys2Proof.Machine

/-- LDA (R90). -/
def execLda (o : DataOperand) (s : State) : Out :=
  let m := readData o s
  finish (.lda o) (markEligible (setZN m.1 { m.2 with a := m.1 }))

/-- LDX (R91). -/
def execLdx (o : DataOperand) (s : State) : Out :=
  let m := readData o s
  finish (.ldx o) (markEligible (setZN m.1 { m.2 with x := m.1 }))

/-- LDY (R92). -/
def execLdy (o : DataOperand) (s : State) : Out :=
  let m := readData o s
  finish (.ldy o) (markEligible (setZN m.1 { m.2 with y := m.1 }))

/-- STA (R93). -/
def execSta (m : MemOperand) (s : State) : Out := finish (.sta m) (writeMem m s.a s)

/-- STX (R94). -/
def execStx (m : MemOperand) (s : State) : Out := finish (.stx m) (writeMem m s.x s)

/-- STY (R95). -/
def execSty (m : MemOperand) (s : State) : Out := finish (.sty m) (writeMem m s.y s)

end Sys2Proof.Machine
end

