-- ==== Sys2Proof/Machine/Logical.lean ====
section
/-! DEFINITION. Logical instructions (`44_logical_arith_compare.md` R110 to R113). -/

namespace Sys2Proof.Machine

/-- AND (R110). -/
def execAnd (o : DataOperand) (s : State) : Out :=
  let m := readData o s
  let r := m.2.a &&& m.1
  finish (.and o) (markEligible (setZN r { m.2 with a := r }))

/-- EOR (R111). -/
def execEor (o : DataOperand) (s : State) : Out :=
  let m := readData o s
  let r := m.2.a ^^^ m.1
  finish (.eor o) (markEligible (setZN r { m.2 with a := r }))

/-- ORA (R112). -/
def execOra (o : DataOperand) (s : State) : Out :=
  let m := readData o s
  let r := m.2.a ||| m.1
  finish (.ora o) (markEligible (setZN r { m.2 with a := r }))

/-- BIT: flags only (R113). -/
def execBit (m : MemOperand) (s : State) : Out :=
  let b := readMem m s
  finish (.bit m) (bitFlags b.1 b.2)

end Sys2Proof.Machine
end

