-- ==== Sys2Proof/Machine/Shift.lean ====
section
/-! DEFINITION. Shifts and rotates (`45_incdec_shift.md` R126 to R130). -/

namespace Sys2Proof.Machine

/-- `ShiftOp(f, opnd)`: the accumulator, or one read then one write of the memory byte; then Carry,
Zero and Negative (R126). -/
def shiftOp (f : Byte → Bool → Byte × Bool) (o : ShiftOperand) (s : State) : State :=
  match o with
  | .acc =>
    let r := f s.a (s.flag .c)
    setZN r.1 (setFlag .c r.2 { s with a := r.1 })
  | .mem m =>
    let ea := resolve m s
    let b := memRead ea.1 ea.2
    let r := f b.1 (b.2.flag .c)
    setZN r.1 (setFlag .c r.2 (memWrite ea.1 r.1 b.2))

/-- ASL (R127). -/
def execAsl (o : ShiftOperand) (s : State) : Out := finish (.asl o) (shiftOp aslByte o s)

/-- LSR (R128). -/
def execLsr (o : ShiftOperand) (s : State) : Out := finish (.lsr o) (shiftOp lsrByte o s)

/-- ROL (R129). -/
def execRol (o : ShiftOperand) (s : State) : Out := finish (.rol o) (shiftOp rolByte o s)

/-- ROR (R130). -/
def execRor (o : ShiftOperand) (s : State) : Out := finish (.ror o) (shiftOp rorByte o s)

end Sys2Proof.Machine
end

