-- ==== Sys2Proof/Machine/Stack.lean ====
section
/-! DEFINITION. The stack instructions (`43_stack.md` R104 to R107). -/

namespace Sys2Proof.Machine

/-- PHA (R104). -/
def execPha (s : State) : Out := finish .pha (push s.a s)

/-- PHP: the pushed copy has bits 4 and 5 set, P is not changed (R105). -/
def execPhp (s : State) : Out := finish .php (push (statusForPush true s.p) s)

/-- PLA (R106). -/
def execPla (s : State) : Out :=
  let v := pull s
  finish .pla (setZN v.1 { v.2 with a := v.1 })

/-- PLP: all eight bits (R107). -/
def execPlp (s : State) : Out :=
  let v := pull s
  finish .plp { v.2 with p := v.1 }

end Sys2Proof.Machine
end

