-- ==== Sys2Proof/Machine/System.lean ====
section
/-! DEFINITION. BRK, RTI, NOP and the illegal-opcode sentinel (`47_flagops_system.md` R153 to R156). -/

namespace Sys2Proof.Machine

/-- BRK: the interrupt sequence with the address of the opcode plus 2 and Break set in the pushed
copy (R153). -/
def execBrk (s : State) : Out := finish .brk (takeInterrupt (s.pc + 1) true brkVector s)

/-- RTI (R154). -/
def execRti (s : State) : Out := finish .rti (returnFromInterrupt s)

/-- NOP (R155). -/
def execNop (s : State) : Out := finish .nop s

/-- ILL, the sentinel: no effect and no cycles (R156). -/
def execIll (op : Byte) (s : State) : Out := finish (.ill op) s

end Sys2Proof.Machine
end

