-- ==== Sys2Proof/Machine/Transfer.lean ====
section
/-! DEFINITION. Register transfers (`42_load_store_transfer.md` R96 to R101). -/

namespace Sys2Proof.Machine

/-- TAX (R96). -/
def execTax (s : State) : Out := finish .tax (setZN s.a { s with x := s.a })

/-- TAY (R97). -/
def execTay (s : State) : Out := finish .tay (setZN s.a { s with y := s.a })

/-- TXA (R98). -/
def execTxa (s : State) : Out := finish .txa (setZN s.x { s with a := s.x })

/-- TYA (R99). -/
def execTya (s : State) : Out := finish .tya (setZN s.y { s with a := s.y })

/-- TSX (R100). -/
def execTsx (s : State) : Out := finish .tsx (setZN s.sp { s with x := s.sp })

/-- TXS: no flags (R101). -/
def execTxs (s : State) : Out := finish .txs { s with sp := s.x }

end Sys2Proof.Machine
end

