-- ==== Sys2Proof/Machine/Fetch.lean ====
section
/-! DEFINITION. Fetching an instruction (`41_step_dispatch.md` R80, `40_addressing_modes.md` R65),
and placing one where it will be fetched (assumption 5). -/

namespace Sys2Proof.Machine

/-- The instruction at `pc`: the opcode byte, then as many operand bytes as its mode has, each by
`Fetch8`, and the state after those fetches, whose `pc` is the address of the next sequential
instruction (R15, R65, R80, R81). -/
def fetchInstr (s : State) : Instr × State :=
  let op := fetch8 s
  match (lookup op.1).mode.operandWidth with
  | 0 => (decodeOpcode op.1 0 0, op.2)
  | 1 =>
    let b1 := fetch8 op.2
    (decodeOpcode op.1 b1.1 0, b1.2)
  | _ =>
    let b1 := fetch8 op.2
    let b2 := fetch8 b1.2
    (decodeOpcode op.1 b1.1 b2.1, b2.2)

/-- Loads one byte into the RAM or ROM cell behind an address, as an image loader does; an address
with no cell behind it is left alone. -/
def loadByte (addr : Word) (v : Byte) (s : State) : State :=
  match s.target addr with
  | .ram k => { s with mem := s.mem.write k v }
  | .rom k => { s with mem := s.mem.write k v }
  | .unmapped => s
  | .device _ => s

/-- Loads bytes at consecutive addresses. -/
def loadBytes (addr : Word) : List Byte → State → State
  | [], s => s
  | b :: bs, s => loadBytes (addr + 1) bs (loadByte addr b s)

/-- Whether an address has a RAM or ROM cell behind it. -/
def hasCell (s : State) (addr : Word) : Bool :=
  match s.target addr with
  | .ram _ => true
  | .rom _ => true
  | .unmapped => false
  | .device _ => false

/-- Whether `n` consecutive addresses have cells behind them. -/
def hasCells (s : State) (addr : Word) : Nat → Bool
  | 0 => true
  | n + 1 => hasCell s addr && hasCells s (addr + 1) n

/-- Where an instruction of `n` bytes is placed: at `pc`, or at 0x0200 when an address from `pc` on
has no cell behind it (assumption 5). -/
def placeAddr (s : State) (n : Nat) : Word := if hasCells s s.pc n then s.pc else 0x0200#16

/-- The state with `bytes` placed where the next step fetches, and no NMI request to pre-empt the
fetch (assumption 5). -/
def placeInstr (bytes : List Byte) (s : State) : State :=
  let at_ := placeAddr s bytes.length
  loadBytes at_ bytes { s with pc := at_, nmiPending := false }

end Sys2Proof.Machine
end

