-- ==== Sys2Proof/Machine/Step.lean ====
section
/-! DEFINITION. `step()`, the one transition of the machine (`41_step_dispatch.md` R80). -/

namespace Sys2Proof.Machine

/-- One step: a pending NMI is serviced in place of normal fetch; otherwise one instruction is
fetched and executed. The cycles it returns are the growth of `cycles`. -/
def step (s : State) : Host.Outcome State Fault Refusal :=
  if s.nmiPending then .next (serviceNmi s)
  else exec (fetchInstr s).1 (fetchInstr s).2

/-- The state with the instruction of an opcode-table word placed where `step` fetches next. -/
def State.withFetchWord (s : State) (nbits w : Nat) : State := placeInstr (tableBytes nbits w) s

end Sys2Proof.Machine
end

