-- ==== Sys2Proof/Safety.lean ====
section
/-! DEFINITION. The terms the statements use: the invariant of the machine at step boundaries, what
an instruction leaves unchanged, and the tables of the spec that say who writes what. -/

namespace Sys2Proof.Machine

/-! ### The invariant at a step boundary -/

/-- Both transient flags are false, as at every step boundary (`10_state.md` R22). -/
abbrev Boundary (s : State) : Prop := s.pageCrossed = false ∧ s.extraEligible = false

/-- Whether a cell number is one of the map: a RAM cell, or a byte of the program ROM (R35, R38). -/
def isCell (prg : PrgSize) (k : Nat) : Bool :=
  decide (k < 0x0800) ||
    (decide (0x8000 ≤ k) &&
      match prg with
      | .one => decide (k < 0xC000)
      | .two => decide (k < 0x10000)
      | .other => false)

/-- The invariant: memory is in canonical form and lists cells of the map only, and the transient
flags are false. -/
abbrev State.Inv (s : State) : Prop :=
  s.mem.wf ∧ (∀ c ∈ s.mem, isCell s.prg c.1 = true) ∧ Boundary s

/-! ### What is left unchanged -/

/-- The 8-bit registers by name. -/
inductive Reg where
  | a | x | y | sp
  deriving DecidableEq, Repr

/-- The value of an 8-bit register. -/
def State.reg (s : State) : Reg → Byte
  | .a => s.a
  | .x => s.x
  | .y => s.y
  | .sp => s.sp

/-- Every 8-bit register not listed is unchanged. -/
def KeepsRegsBut (regs : List Reg) (s t : State) : Prop := ∀ r, r ∉ regs → t.reg r = s.reg r

/-- Every bit of P not listed is unchanged. -/
def KeepsFlagsBut (flags : List Flag) (s t : State) : Prop := ∀ f, f ∉ flags → t.flag f = s.flag f

/-- Every address reads as before. -/
def KeepsMemory (s t : State) : Prop := ∀ b, t.stored b = s.stored b

/-- Every address reads as before, but the mirrors of the addresses listed (R34, R35). -/
def KeepsMemoryBut (addrs : List Word) (s t : State) : Prop :=
  ∀ b, (∀ a ∈ addrs, s.target b ≠ s.target a) → t.stored b = s.stored b

/-- What a store of `v` at `addr` leaves: where a RAM cell is selected, every mirror of it reads `v`
(R35); every other address reads as before; where a collaborator is selected, it is handed `v`
(R36), and otherwise no collaborator is accessed. -/
def Stores (addr : Word) (v : Byte) (s t : State) : Prop :=
  ((s.target addr).isRam = true → ∀ b, s.target b = s.target addr → t.stored b = some v) ∧
  ((s.target addr).isRam = false → KeepsMemory s t) ∧
  KeepsMemoryBut [addr] s t ∧
  t.devLog =
    match s.target addr with
    | .device d => .write d v :: s.devLog
    | _ => s.devLog

/-- The end of a step from `s` to `t`: the 8-bit registers and the bits of P not listed are
unchanged, `nmi_pending` and the size of the ROM too, both transient flags are false, and the step
cost `cost` cycles. -/
def Ends (regs : List Reg) (flags : List Flag) (cost : Nat) (s t : State) : Prop :=
  KeepsRegsBut regs s t ∧ KeepsFlagsBut flags s t ∧ t.cycles = s.cycles + cost ∧
  t.nmiPending = s.nmiPending ∧ t.prg = s.prg ∧ Boundary t

/-- Zero and Negative are those of `v`: Zero iff `v` is 0, Negative iff bit 7 is set (R20). -/
def ShowsZN (v : Byte) (t : State) : Prop :=
  t.flag .z = decide (v.toNat = 0) ∧ t.flag .n = decide (128 ≤ v.toNat)

/-- Every mirror of an address reads `v` (R35). -/
def Holds (addr : Word) (v : Byte) (t : State) : Prop :=
  ∀ b, t.target b = t.target addr → t.stored b = some v

/-- No control transfer, no store and no access to a collaborator. -/
def Quiet (s t : State) : Prop := t.pc = s.pc ∧ KeepsMemory s t ∧ t.devLog = s.devLog

/-- No control transfer, no store, and no access to a collaborator but those that reading the operand
makes. -/
def OnlyReads (o : DataOperand) (s t : State) : Prop :=
  t.pc = s.pc ∧ KeepsMemory s t ∧ t.devLog = (readData o s).2.devLog

/-- The interrupt sequence from `s` to `t` (`47_flagops_system.md` R153, `60_exceptions.md` R164):
the return address high byte first and the status byte lie on the stack, SP is three lower modulo
256, Interrupt-Disable is set, and PC is the word at the vector, low byte first. -/
def EntersHandler (ret : Word) (status : Byte) (vector : Word) (s t : State) : Prop :=
  Holds (stackAddr s.sp) (hiByte ret) t ∧ Holds (stackAddr (s.sp - 1)) (loByte ret) t ∧
  Holds (stackAddr (s.sp - 2)) status t ∧
  KeepsMemoryBut [stackAddr s.sp, stackAddr (s.sp - 1), stackAddr (s.sp - 2)] s t ∧
  t.sp.toNat = (s.sp.toNat + 253) % 256 ∧ t.flag .i = true ∧
  t.pc = (read16 vector s).1 ∧ t.devLog = (read16 vector s).2.devLog

/-! ### Page crossing -/

/-- Whether adding an index to a base changes the high byte (`40_addressing_modes.md` R74). -/
def crossesPage (base : Word) (index : Byte) : Bool :=
  decide ((base.toNat + index.toNat) % 65536 / 256 ≠ base.toNat / 256)

/-- Whether the effective address of a memory operand crosses a page: in the modes Absolute,X,
Absolute,Y and Indirect Indexed (Y) only (R74, R75, R78). -/
def memCrosses (m : MemOperand) (s : State) : Bool :=
  match m with
  | .abx a => crossesPage a s.x
  | .aby a => crossesPage a s.y
  | .izy d => crossesPage (zeroPagePointer d s).1 s.y
  | .zp _ | .zpx _ | .zpy _ | .abs _ | .izx _ => false

/-- Whether a data operand crosses a page. -/
def dataCrosses (o : DataOperand) (s : State) : Bool :=
  match o with
  | .imm _ => false
  | .mem m => memCrosses m s

/-- The cost of an instruction that takes the page-cross cycle (`41_step_dispatch.md` R82). -/
def readCost (i : Instr) (o : DataOperand) (s : State) : Nat :=
  i.baseCycles + if dataCrosses o s then 1 else 0

/-! ### The spec's tables, as statements compare against them -/

/-- What a rule's **Encoding** line says of an instruction: it is well-formed iff its mode is in the
line, and in that mode it is encoded with the line's opcode and costs the line's base cycles. -/
def HasRows (i : Instr) (rows : List (Mode × Byte × Nat)) : Prop :=
  (WellFormed i ↔ i.mode ∈ rows.map (fun r => r.1)) ∧
  ∀ r ∈ rows, i.mode = r.1 → encode i = r.2.1 :: i.operandBytes ∧ i.baseCycles = r.2.2

/-- The mnemonics that write a bit of P: the column "written by" of `10_state.md` R18. -/
def flagWriters : Flag → List Mnemonic
  | .c => [.adc, .sbc, .cmp, .cpx, .cpy, .asl, .lsr, .rol, .ror, .clc, .sec, .plp, .rti]
  | .z | .n =>
    [.lda, .ldx, .ldy, .tax, .tay, .txa, .tya, .tsx, .pla, .and, .eor, .ora, .adc, .sbc, .inc, .dec,
      .inx, .iny, .dex, .dey, .asl, .lsr, .rol, .ror, .bit, .cmp, .cpx, .cpy, .plp, .rti]
  | .i => [.sei, .cli, .brk, .plp, .rti]
  | .d => [.sed, .cld, .plp, .rti]
  | .b | .u => [.plp, .rti]
  | .v => [.adc, .sbc, .bit, .clv, .plp, .rti]

/-- The mnemonics that write an 8-bit register (`10_state.md` R11 to R14). -/
def regWriters : Reg → List Mnemonic
  | .a => [.lda, .pla, .txa, .tya, .and, .eor, .ora, .adc, .sbc, .asl, .lsr, .rol, .ror]
  | .x => [.ldx, .tax, .tsx, .inx, .dex]
  | .y => [.ldy, .tay, .iny, .dey]
  | .sp => [.txs, .pha, .php, .pla, .plp, .jsr, .rts, .brk, .rti]

/-- The mnemonics that overwrite PC (`10_state.md` R15). -/
def pcWriters : List Mnemonic :=
  [.jmp, .jsr, .rts, .rti, .brk, .bcc, .bcs, .beq, .bne, .bmi, .bpl, .bvc, .bvs]

/-- The mnemonics that write memory: stores, read-modify-writes and pushes
(`42_load_store_transfer.md` R93 to R95, `43_stack.md` R102, `45_incdec_shift.md` R120, R121, R126). -/
def memoryWriters : List Mnemonic :=
  [.sta, .stx, .sty, .inc, .dec, .asl, .lsr, .rol, .ror, .pha, .php, .jsr, .brk]

/-- The opcodes that take the page-cross cycle (`41_step_dispatch.md` R83). -/
def pageCrossOpcodes : List Byte :=
  [0x7D, 0x79, 0x71] ++ [0x3D, 0x39, 0x31] ++ [0xDD, 0xD9, 0xD1] ++ [0x5D, 0x59, 0x51] ++
  [0xBD, 0xB9, 0xB1] ++ [0xBE] ++ [0xBC] ++ [0x1D, 0x19, 0x11] ++ [0xFD, 0xF9, 0xF1]

/-- Whether the address computation of an instruction crosses a page. -/
def instrCrosses (i : Instr) (s : State) : Bool :=
  match i with
  | .lda o | .ldx o | .ldy o | .and o | .eor o | .ora o | .adc o | .sbc o | .cmp o | .cpx o
  | .cpy o => dataCrosses o s
  | .sta m | .stx m | .sty m | .bit m | .inc m | .dec m => memCrosses m s
  | .asl o | .lsr o | .rol o | .ror o =>
    match o with
    | .acc => false
    | .mem m => memCrosses m s
  | .tax | .tay | .txa | .tya | .tsx | .txs | .pha | .php | .pla | .plp | .inx | .iny | .dex | .dey
  | .jmp _ | .jsr _ | .rts | .bcc _ | .bcs _ | .beq _ | .bne _ | .bmi _ | .bpl _ | .bvc _ | .bvs _
  | .clc | .cld | .cli | .clv | .sec | .sed | .sei | .brk | .rti | .nop | .ill _ => false

end Sys2Proof.Machine
end

