-- ==== Sys2Proof/Certificates/Slice0/Obligations.lean ====
section
/-! DEFINITION. The statements for the provers. Each docstring names the rules of the spec it
formalises. `exec` starts where the instruction's bytes have been fetched: `s.pc` is the address of
the next sequential instruction (`41_step_dispatch.md` R81 (a)). Opcode values, base cycles and the
opcodes that take the page-cross cycle are rules of the spec that it settles by its own decisions D12
and D13 (`92_eei_decisions.md`), the order of pushes and pulls by D5, the pushed status by D6 and D7,
the wraps of 16-bit sums by D16. -/

open Sys2Proof Sys2Proof.Machine

/-! ### Encoding -/

/-- Decoding the bytes of a well-formed instruction gives it back, with every operand at every value,
and leaves the bytes after it (R50, R51, R53, R54, R55). -/
def Obligations.DecodeEncodeRoundTrip : Prop :=
  ∀ (i : Instr) (rest : List Byte), WellFormed i → decode (encode i ++ rest) = .instr i rest

/-- Whatever the decoder reads is a well-formed instruction, and the bytes it read are that
instruction's encoding (R50, R51, R54, R55). -/
def Obligations.DecodedBytesAreTheEncoding : Prop :=
  ∀ (bytes : List Byte) (i : Instr) (rest : List Byte), decode bytes = .instr i rest →
    WellFormed i ∧ encode i ++ rest = bytes

/-- The length of an instruction is found from its opcode byte alone: one more than the operand width
of the mode of its table row (R51). That a list with too few operand bytes is refused as truncated is
the model's own choice (assumption 13): in the machine every address answers a fetch. -/
def Obligations.OpcodeAloneGivesLength : Prop :=
  (∀ (op : Byte) (rest : List Byte), (lookup op).mode.operandWidth ≤ rest.length →
    ∃ i, decode (op :: rest) = .instr i (rest.drop (lookup op).mode.operandWidth) ∧
      i.length = 1 + (lookup op).mode.operandWidth ∧ i.mode = (lookup op).mode) ∧
  (∀ (op : Byte) (rest : List Byte), rest.length < (lookup op).mode.operandWidth →
    decode (op :: rest) = .rejected (.truncated op)) ∧
  (∀ m : Mode, m.operandWidth =
    if m ∈ [Mode.imp, .acc] then 0
    else if m ∈ [Mode.imm, .zp, .zpx, .zpy, .izx, .izy, .rel] then 1
    else 2) ∧
  ∀ op ∈ unassignedOpcodes, (lookup op).mode = .imp

/-- The example words of R56, byte by byte, decode to the instructions they stand for. -/
def Obligations.SpecExampleWordsDecode : Prop :=
  decode [0xE8] = .instr .inx [] ∧
  decode [0x0A] = .instr (.asl .acc) [] ∧
  decode [0xA9, 0x10] = .instr (.lda (.imm 0x10)) [] ∧
  decode [0xA5, 0x10] = .instr (.lda (.mem (.zp 0x10))) [] ∧
  decode [0xB5, 0x10] = .instr (.lda (.mem (.zpx 0x10))) [] ∧
  decode [0xB6, 0x10] = .instr (.ldx (.mem (.zpy 0x10))) [] ∧
  decode [0xAD, 0x34, 0x12] = .instr (.lda (.mem (.abs 0x1234))) [] ∧
  decode [0xBD, 0x34, 0x12] = .instr (.lda (.mem (.abx 0x1234))) [] ∧
  decode [0xB9, 0x34, 0x12] = .instr (.lda (.mem (.aby 0x1234))) [] ∧
  decode [0x6C, 0x34, 0x12] = .instr (.jmp (.ind 0x1234)) [] ∧
  decode [0xA1, 0x10] = .instr (.lda (.mem (.izx 0x10))) [] ∧
  decode [0xB1, 0x10] = .instr (.lda (.mem (.izy 0x10))) [] ∧
  decode [0xD0, 0xFB] = .instr (.bne 0xFB) []

/-! ### The bus -/

/-- What a bus read answers at each address of the map, and what it changes (R31, R34 to R38). The
answer of a collaborator is the free value of assumption 1, and the record of accesses is the
model's own. -/
def Obligations.BusReadsByRegion : Prop :=
  ∀ (a : Word) (s : State),
    let n := a.toNat
    let asked (d : Device) : Byte × State :=
      (Config.deviceAnswer (.read d :: s.devLog), { s with devLog := .read d :: s.devLog })
    memRead a s =
      if n < 0x2000 then (s.mem.read (n % 0x0800), s)
      else if n < 0x4000 then asked (.ppu (Fin.ofNat 8 n))
      else if n < 0x4014 then (0x00#8, s)
      else if n = 0x4014 then asked .oamDma
      else if n < 0x4020 then (0x00#8, s)
      else if n < 0x8000 then asked (.cart a)
      else if s.prg = .one then
        (s.mem.read (0x8000 + if n < 0xC000 then n - 0x8000 else n - 0xC000), s)
      else if s.prg = .two then (s.mem.read (0x8000 + (n - 0x8000)), s)
      else asked (.cart a)

/-- What a bus write does at each address of the map (R32, R34 to R38): RAM takes the byte, unmapped
addresses and program ROM discard it, a collaborator is handed it. The record of accesses is the
model's own (assumption 1). -/
def Obligations.BusWritesByRegion : Prop :=
  ∀ (a : Word) (v : Byte) (s : State),
    let n := a.toNat
    let told (d : Device) : State := { s with devLog := .write d v :: s.devLog }
    memWrite a v s =
      if n < 0x2000 then { s with mem := s.mem.write (n % 0x0800) v }
      else if n < 0x4000 then told (.ppu (Fin.ofNat 8 n))
      else if n < 0x4014 then s
      else if n = 0x4014 then told .oamDma
      else if n < 0x4020 then s
      else if n < 0x8000 then told (.cart a)
      else if s.prg = .one ∨ s.prg = .two then s
      else told (.cart a)

/-- Internal RAM (R35): reads have no side effect; the four addresses that agree modulo 0x0800 are
one cell; a write sets that cell, is read back at every mirror, and changes nothing else. -/
def Obligations.RamIsMirroredStorage : Prop :=
  ∀ (a : Word) (s : State), a.toNat < 0x2000 →
    (memRead a s).2 = s ∧
    (∀ b : Word, b.toNat < 0x2000 → b.toNat % 0x0800 = a.toNat % 0x0800 →
      (memRead b s).1 = (memRead a s).1) ∧
    ∀ v : Byte,
      (∀ b : Word, (memWrite a v s).stored b =
        if b.toNat < 0x2000 ∧ b.toNat % 0x0800 = a.toNat % 0x0800 then some v else s.stored b) ∧
      (∀ b : Word, b.toNat < 0x2000 → b.toNat % 0x0800 = a.toNat % 0x0800 →
        (memRead b (memWrite a v s)).1 = v) ∧
      memWrite a v s = { s with mem := (memWrite a v s).mem }

/-- Unmapped addresses (R37): a read answers 0x00 and changes nothing, a write is discarded, and a
load from there completes in its base cycles and leaves 0x00 with Zero set and Negative clear. -/
def Obligations.UnmappedAddressesReadZero : Prop :=
  ∀ (a : Word) (s : State),
    (0x4000 ≤ a.toNat ∧ a.toNat ≤ 0x4013) ∨ (0x4015 ≤ a.toNat ∧ a.toNat ≤ 0x401F) →
      memRead a s = (0x00#8, s) ∧ (∀ v, memWrite a v s = s) ∧
      ∃ t, exec (.lda (.mem (.abs a))) s = .next t ∧ t.a = 0x00#8 ∧ t.flag .z = true ∧
        t.flag .n = false ∧ (Boundary s → t.cycles = s.cycles + 4)

/-- Program ROM of one or two banks (R38): writes to 0x8000 to 0xFFFF are discarded and reads have no
side effect; one bank reads equal at `a` and `a + 0x4000`. -/
def Obligations.ProgramRomIsReadOnly : Prop :=
  ∀ (a : Word) (s : State), 0x8000 ≤ a.toNat → s.prg = .one ∨ s.prg = .two →
    (memRead a s).2 = s ∧ (∀ v, memWrite a v s = s) ∧
    (s.prg = .one → a.toNat < 0xC000 → memRead (a + 0x4000#16) s = memRead a s)

/-- A 16-bit read takes the low byte from `addr` first, then the high byte from `addr + 1` modulo
65536, in the state the first read left (R40). -/
def Obligations.Read16IsLittleEndian : Prop :=
  ∀ (a : Word) (s : State),
    let l := memRead a s
    let h := memRead (BitVec.ofNat 16 ((a.toNat + 1) % 65536)) l.2
    (read16 a s).1.toNat = h.1.toNat * 256 + l.1.toNat ∧ (read16 a s).2 = h.2

/-- A bus write keeps memory in canonical form, and a memory in canonical form is determined by what
its cells read as (the model's own representation, assumption 2). -/
def Obligations.MemoryStaysCanonical : Prop :=
  (∀ (a : Word) (v : Byte) (s : State), s.mem.wf → (memWrite a v s).mem.wf) ∧
  ∀ m m' : Memory, m.wf → m'.wf → (∀ k, m.read k = m'.read k) → m = m'

/-! ### The stack -/

/-- `Push` writes the byte at 0x0100 + SP and then decrements SP modulo 256; `Pull` increments SP
modulo 256 and then reads at 0x0100 + SP; a push then a pull gives the byte back and restores SP, for
every SP (R102, R103). -/
def Obligations.PushAndPull : Prop :=
  (∀ sp : Byte, (stackAddr sp).toNat = 0x0100 + sp.toNat) ∧
  (∀ (v : Byte) (s : State),
    Holds (stackAddr s.sp) v (push v s) ∧ KeepsMemoryBut [stackAddr s.sp] s (push v s) ∧
    (push v s).sp.toNat = (s.sp.toNat + 255) % 256 ∧
    push v s = { s with sp := (push v s).sp, mem := (push v s).mem }) ∧
  (∀ s : State, ∃ sp : Byte, sp.toNat = (s.sp.toNat + 1) % 256 ∧
    s.stored (stackAddr sp) = some (pull s).1 ∧ (pull s).2 = { s with sp := sp }) ∧
  ∀ (v : Byte) (s : State),
    (pull (push v s)).1 = v ∧ (pull (push v s)).2 = { s with mem := (push v s).mem }

/-! ### Addressing modes -/

/-- Zero Page, Zero Page,X and Zero Page,Y: one operand byte; the address is the byte, or the byte plus
the index modulo 256, so never 0x0100 or above; nothing is changed; Zero Page,Y is a mode of LDX and
STX only (R70, R71, R72). -/
def Obligations.ZeroPageAddresses : Prop :=
  (∀ i : Instr, WellFormed i → i.mode = .zpy → i.mnemonic = .ldx ∨ i.mnemonic = .stx) ∧
  ∀ (d : Byte) (s : State),
    (resolve (.zp d) s).1.toNat = d.toNat ∧ (resolve (.zp d) s).2 = s ∧
    (resolve (.zpx d) s).1.toNat = (d.toNat + s.x.toNat) % 256 ∧ (resolve (.zpx d) s).2 = s ∧
    (resolve (.zpy d) s).1.toNat = (d.toNat + s.y.toNat) % 256 ∧ (resolve (.zpy d) s).2 = s ∧
    (MemOperand.zp d).bytes = [d] ∧ (MemOperand.zpx d).bytes = [d] ∧ (MemOperand.zpy d).bytes = [d]

/-- Absolute, Absolute,X and Absolute,Y: two operand bytes, low byte first; the address is the operand,
or the operand plus the index modulo 65536; `page_crossed` is set exactly when an index changes the
high byte, and nothing else is changed (R73, R74, R75). -/
def Obligations.AbsoluteAddresses : Prop :=
  ∀ (a : Word) (s : State),
    let crossed (ix : Byte) : Bool :=
      decide ((a.toNat + ix.toNat) % 65536 / 256 ≠ a.toNat / 256)
    (resolve (.abs a) s).1 = a ∧ (resolve (.abs a) s).2 = s ∧
    (resolve (.abx a) s).1.toNat = (a.toNat + s.x.toNat) % 65536 ∧
    (resolve (.abx a) s).2 = { s with pageCrossed := s.pageCrossed || crossed s.x } ∧
    (resolve (.aby a) s).1.toNat = (a.toNat + s.y.toNat) % 65536 ∧
    (resolve (.aby a) s).2 = { s with pageCrossed := s.pageCrossed || crossed s.y } ∧
    ∃ l h : Byte, a.toNat = h.toNat * 256 + l.toNat ∧ (MemOperand.abs a).bytes = [l, h] ∧
      (MemOperand.abx a).bytes = [l, h] ∧ (MemOperand.aby a).bytes = [l, h]

/-- Indexed Indirect (X): the operand byte plus X modulo 256 designates the pointer's low byte in page
zero, the next byte modulo 256 its high byte; nothing is changed (R77). -/
def Obligations.IndexedIndirectAddress : Prop :=
  ∀ (d : Byte) (s : State), ∃ l h : Byte,
    s.stored (BitVec.ofNat 16 ((d.toNat + s.x.toNat) % 256)) = some l ∧
    s.stored (BitVec.ofNat 16 ((d.toNat + s.x.toNat + 1) % 256)) = some h ∧
    (resolve (.izx d) s).1.toNat = h.toNat * 256 + l.toNat ∧ (resolve (.izx d) s).2 = s ∧
    (MemOperand.izx d).bytes = [d]

/-- Indirect Indexed (Y): the pointer lies at the operand byte in page zero, its high byte modulo 256;
Y is added modulo 65536; `page_crossed` is set exactly when that changes the high byte, and nothing
else is changed (R78). -/
def Obligations.IndirectIndexedAddress : Prop :=
  ∀ (d : Byte) (s : State), ∃ l h : Byte,
    s.stored (BitVec.ofNat 16 d.toNat) = some l ∧
    s.stored (BitVec.ofNat 16 ((d.toNat + 1) % 256)) = some h ∧
    let base := h.toNat * 256 + l.toNat
    (resolve (.izy d) s).1.toNat = (base + s.y.toNat) % 65536 ∧
    (resolve (.izy d) s).2 =
      { s with pageCrossed :=
          s.pageCrossed || decide ((base + s.y.toNat) % 65536 / 256 ≠ base / 256) } ∧
    (MemOperand.izy d).bytes = [d]

/-! ### Loads, stores, transfers -/

/-- LDA, LDX, LDY: the register takes the operand byte, Zero and Negative are the byte's, nothing else
changes; base cycles, and one more on a page crossing (R90, R91, R92). -/
def Obligations.LoadsFillTheRegister : Prop :=
  (∀ o, HasRows (.lda o) [(.imm, 0xA9, 2), (.zp, 0xA5, 3), (.zpx, 0xB5, 4), (.abs, 0xAD, 4),
    (.abx, 0xBD, 4), (.aby, 0xB9, 4), (.izx, 0xA1, 6), (.izy, 0xB1, 5)]) ∧
  (∀ o, HasRows (.ldx o) [(.imm, 0xA2, 2), (.zp, 0xA6, 3), (.zpy, 0xB6, 4), (.abs, 0xAE, 4),
    (.aby, 0xBE, 4)]) ∧
  (∀ o, HasRows (.ldy o) [(.imm, 0xA0, 2), (.zp, 0xA4, 3), (.zpx, 0xB4, 4), (.abs, 0xAC, 4),
    (.abx, 0xBC, 4)]) ∧
  (∀ v s, readData (.imm v) s = (v, s)) ∧
  (∀ m s, readData (.mem m) s = memRead (resolve m s).1 (resolve m s).2) ∧
  ∀ (o : DataOperand) (s : State), Boundary s →
    (∃ t, exec (.lda o) s = .next t ∧ t.a = (readData o s).1 ∧ ShowsZN (readData o s).1 t ∧
      Ends [.a] [.z, .n] (readCost (.lda o) o s) s t ∧ OnlyReads o s t) ∧
    (∃ t, exec (.ldx o) s = .next t ∧ t.x = (readData o s).1 ∧ ShowsZN (readData o s).1 t ∧
      Ends [.x] [.z, .n] (readCost (.ldx o) o s) s t ∧ OnlyReads o s t) ∧
    (∃ t, exec (.ldy o) s = .next t ∧ t.y = (readData o s).1 ∧ ShowsZN (readData o s).1 t ∧
      Ends [.y] [.z, .n] (readCost (.ldy o) o s) s t ∧ OnlyReads o s t)

/-- STA, STX, STY: the register is written at the operand's address, which is not read; no flag, no
register and no other address changes; base cycles, never a page-cross cycle (R93, R94, R95). -/
def Obligations.StoresWriteTheRegister : Prop :=
  (∀ m, HasRows (.sta m) [(.zp, 0x85, 3), (.zpx, 0x95, 4), (.abs, 0x8D, 4), (.abx, 0x9D, 5),
    (.aby, 0x99, 5), (.izx, 0x81, 6), (.izy, 0x91, 6)]) ∧
  (∀ m, HasRows (.stx m) [(.zp, 0x86, 3), (.zpy, 0x96, 4), (.abs, 0x8E, 4)]) ∧
  (∀ m, HasRows (.sty m) [(.zp, 0x84, 3), (.zpx, 0x94, 4), (.abs, 0x8C, 4)]) ∧
  ∀ (m : MemOperand) (s : State), Boundary s →
    (∃ t, exec (.sta m) s = .next t ∧ Stores (resolve m s).1 s.a s t ∧ t.pc = s.pc ∧
      Ends [] [] (Instr.sta m).baseCycles s t) ∧
    (∃ t, exec (.stx m) s = .next t ∧ Stores (resolve m s).1 s.x s t ∧ t.pc = s.pc ∧
      Ends [] [] (Instr.stx m).baseCycles s t) ∧
    (∃ t, exec (.sty m) s = .next t ∧ Stores (resolve m s).1 s.y s t ∧ t.pc = s.pc ∧
      Ends [] [] (Instr.sty m).baseCycles s t)

/-- TAX, TAY, TXA, TYA, TSX copy a register and set Zero and Negative from the copied value; TXS copies
X to SP and sets no flag; nothing else changes; two cycles (R96 to R101). -/
def Obligations.TransfersCopyRegisters : Prop :=
  HasRows .tax [(.imp, 0xAA, 2)] ∧ HasRows .tay [(.imp, 0xA8, 2)] ∧
  HasRows .txa [(.imp, 0x8A, 2)] ∧ HasRows .tya [(.imp, 0x98, 2)] ∧
  HasRows .tsx [(.imp, 0xBA, 2)] ∧ HasRows .txs [(.imp, 0x9A, 2)] ∧
  ∀ s : State, Boundary s →
    (∃ t, exec .tax s = .next t ∧ t.x = s.a ∧ ShowsZN s.a t ∧ Ends [.x] [.z, .n] 2 s t ∧ Quiet s t) ∧
    (∃ t, exec .tay s = .next t ∧ t.y = s.a ∧ ShowsZN s.a t ∧ Ends [.y] [.z, .n] 2 s t ∧ Quiet s t) ∧
    (∃ t, exec .txa s = .next t ∧ t.a = s.x ∧ ShowsZN s.x t ∧ Ends [.a] [.z, .n] 2 s t ∧ Quiet s t) ∧
    (∃ t, exec .tya s = .next t ∧ t.a = s.y ∧ ShowsZN s.y t ∧ Ends [.a] [.z, .n] 2 s t ∧ Quiet s t) ∧
    (∃ t, exec .tsx s = .next t ∧ t.x = s.sp ∧ ShowsZN s.sp t ∧ Ends [.x] [.z, .n] 2 s t ∧
      Quiet s t) ∧
    (∃ t, exec .txs s = .next t ∧ t.sp = s.x ∧ Ends [.sp] [] 2 s t ∧ Quiet s t)

/-! ### Stack instructions -/

/-- PHA pushes A, PHP pushes a copy of P with bits 4 and 5 set; SP goes down by one modulo 256, P and
every other register and address are unchanged; three cycles (R104, R105). -/
def Obligations.PushInstructions : Prop :=
  HasRows .pha [(.imp, 0x48, 3)] ∧ HasRows .php [(.imp, 0x08, 3)] ∧
  ∀ s : State, Boundary s →
    (∃ t, exec .pha s = .next t ∧ Holds (stackAddr s.sp) s.a t ∧
      t.sp.toNat = (s.sp.toNat + 255) % 256 ∧ KeepsMemoryBut [stackAddr s.sp] s t ∧ t.pc = s.pc ∧
      t.devLog = s.devLog ∧ Ends [.sp] [] 3 s t) ∧
    (∃ t, exec .php s = .next t ∧ Holds (stackAddr s.sp) (s.p ||| 0x30#8) t ∧
      t.sp.toNat = (s.sp.toNat + 255) % 256 ∧ KeepsMemoryBut [stackAddr s.sp] s t ∧ t.pc = s.pc ∧
      t.devLog = s.devLog ∧ t.p = s.p ∧ Ends [.sp] [] 3 s t)

/-- PLA pulls A and sets Zero and Negative from it; PLP pulls all eight bits of P; SP goes up by one
modulo 256 and no memory changes; four cycles (R106, R107). -/
def Obligations.PullInstructions : Prop :=
  HasRows .pla [(.imp, 0x68, 4)] ∧ HasRows .plp [(.imp, 0x28, 4)] ∧
  ∀ s : State, Boundary s →
    (∃ t, exec .pla s = .next t ∧ s.stored (stackAddr (s.sp + 1)) = some t.a ∧ ShowsZN t.a t ∧
      t.sp.toNat = (s.sp.toNat + 1) % 256 ∧ Ends [.a, .sp] [.z, .n] 4 s t ∧ Quiet s t) ∧
    (∃ t, exec .plp s = .next t ∧ s.stored (stackAddr (s.sp + 1)) = some t.p ∧
      t.sp.toNat = (s.sp.toNat + 1) % 256 ∧
      Ends [.sp] [.c, .z, .i, .d, .b, .u, .v, .n] 4 s t ∧ Quiet s t)

/-! ### Logical and arithmetic -/

/-- AND, EOR, ORA: A takes the bitwise result with the operand byte, Zero and Negative are the result's,
nothing else changes (R110, R111, R112). -/
def Obligations.LogicalOperations : Prop :=
  (∀ o, HasRows (.and o) [(.imm, 0x29, 2), (.zp, 0x25, 3), (.zpx, 0x35, 4), (.abs, 0x2D, 4),
    (.abx, 0x3D, 4), (.aby, 0x39, 4), (.izx, 0x21, 6), (.izy, 0x31, 5)]) ∧
  (∀ o, HasRows (.eor o) [(.imm, 0x49, 2), (.zp, 0x45, 3), (.zpx, 0x55, 4), (.abs, 0x4D, 4),
    (.abx, 0x5D, 4), (.aby, 0x59, 4), (.izx, 0x41, 6), (.izy, 0x51, 5)]) ∧
  (∀ o, HasRows (.ora o) [(.imm, 0x09, 2), (.zp, 0x05, 3), (.zpx, 0x15, 4), (.abs, 0x0D, 4),
    (.abx, 0x1D, 4), (.aby, 0x19, 4), (.izx, 0x01, 6), (.izy, 0x11, 5)]) ∧
  ∀ (o : DataOperand) (s : State), Boundary s →
    let m := (readData o s).1
    (∃ t, exec (.and o) s = .next t ∧
      (∀ k, t.a.getLsbD k = (s.a.getLsbD k && m.getLsbD k)) ∧ ShowsZN t.a t ∧
      Ends [.a] [.z, .n] (readCost (.and o) o s) s t ∧ OnlyReads o s t) ∧
    (∃ t, exec (.eor o) s = .next t ∧
      (∀ k, t.a.getLsbD k = (s.a.getLsbD k ^^ m.getLsbD k)) ∧ ShowsZN t.a t ∧
      Ends [.a] [.z, .n] (readCost (.eor o) o s) s t ∧ OnlyReads o s t) ∧
    (∃ t, exec (.ora o) s = .next t ∧
      (∀ k, t.a.getLsbD k = (s.a.getLsbD k || m.getLsbD k)) ∧ ShowsZN t.a t ∧
      Ends [.a] [.z, .n] (readCost (.ora o) o s) s t ∧ OnlyReads o s t)

/-- BIT: Zero iff A and the byte have no bit in common, Negative and Overflow are bits 7 and 6 of the
byte; A and everything else is unchanged (R113). -/
def Obligations.BitTestsMemory : Prop :=
  (∀ m, HasRows (.bit m) [(.zp, 0x24, 3), (.abs, 0x2C, 4)]) ∧
  ∀ (m : MemOperand) (s : State), Boundary s →
    let b := (readMem m s).1
    ∃ t, exec (.bit m) s = .next t ∧
      (t.flag .z = true ↔ ∀ k, (s.a.getLsbD k && b.getLsbD k) = false) ∧
      t.flag .n = b.getLsbD 7 ∧ t.flag .v = b.getLsbD 6 ∧
      Ends [] [.z, .n, .v] (Instr.bit m).baseCycles s t ∧ OnlyReads (.mem m) s t

/-- ADC: A takes the sum of A, the byte and Carry modulo 256; Carry iff the sum exceeds 255, Overflow
iff the signed sum is outside -128 to 127, Zero and Negative of the 8-bit result; Decimal is not
read (R114, R115). -/
def Obligations.AdcAddsWithCarry : Prop :=
  (∀ o, HasRows (.adc o) [(.imm, 0x69, 2), (.zp, 0x65, 3), (.zpx, 0x75, 4), (.abs, 0x6D, 4),
    (.abx, 0x7D, 4), (.aby, 0x79, 4), (.izx, 0x61, 6), (.izy, 0x71, 5)]) ∧
  ∀ (o : DataOperand) (s : State), Boundary s →
    let m := (readData o s).1
    let carry := if s.flag .c then 1 else 0
    let sum := s.a.toNat + m.toNat + carry
    let signed := s.a.toInt + m.toInt + carry
    ∃ t, exec (.adc o) s = .next t ∧ t.a.toNat = sum % 256 ∧ t.flag .c = decide (255 < sum) ∧
      t.flag .v = decide (signed < -128 ∨ 127 < signed) ∧ ShowsZN t.a t ∧
      Ends [.a] [.c, .v, .z, .n] (readCost (.adc o) o s) s t ∧ OnlyReads o s t

/-- SBC: A takes A minus the byte minus the borrow (1 - Carry) modulo 256; Carry iff no borrow,
Overflow iff the signed difference is outside -128 to 127, Zero and Negative of the 8-bit result
(R116). -/
def Obligations.SbcSubtractsWithBorrow : Prop :=
  (∀ o, HasRows (.sbc o) [(.imm, 0xE9, 2), (.zp, 0xE5, 3), (.zpx, 0xF5, 4), (.abs, 0xED, 4),
    (.abx, 0xFD, 4), (.aby, 0xF9, 4), (.izx, 0xE1, 6), (.izy, 0xF1, 5)]) ∧
  ∀ (o : DataOperand) (s : State), Boundary s →
    let m := (readData o s).1
    let borrow := if s.flag .c then 0 else 1
    let signed := s.a.toInt - m.toInt - borrow
    ∃ t, exec (.sbc o) s = .next t ∧
      (t.a.toNat : Int) = ((s.a.toNat : Int) - m.toNat - borrow) % 256 ∧
      t.flag .c = decide (m.toNat + borrow ≤ s.a.toNat) ∧
      t.flag .v = decide (signed < -128 ∨ 127 < signed) ∧ ShowsZN t.a t ∧
      Ends [.a] [.c, .v, .z, .n] (readCost (.sbc o) o s) s t ∧ OnlyReads o s t

/-- The Decimal flag changes nothing about ADC and SBC but its own bit: arithmetic is binary whatever
it holds (R114, R18). Both runs ask the same collaborators, which answer equal records of accesses
alike: the model's choice (assumption 1). -/
def Obligations.DecimalFlagIsIgnored : Prop :=
  ∀ (o : DataOperand) (s : State) (b : Bool),
    (∃ t, exec (.adc o) s = .next t ∧ exec (.adc o) (setFlag .d b s) = .next (setFlag .d b t)) ∧
    (∃ t, exec (.sbc o) s = .next t ∧ exec (.sbc o) (setFlag .d b s) = .next (setFlag .d b t))

/-- The round trip of R116: CLC and ADC of a value, then SEC and SBC of the same value, give A back for
every A and every value; Carry ends set iff the addition did not pass 255, since only then is there no
borrow. -/
def Obligations.AddThenSubtractRestoresA : Prop :=
  ∀ (v : Byte) (s : State), ∃ s1 s2 s3 s4,
    exec .clc s = .next s1 ∧ exec (.adc (.imm v)) s1 = .next s2 ∧ exec .sec s2 = .next s3 ∧
    exec (.sbc (.imm v)) s3 = .next s4 ∧ s4.a = s.a ∧
    s4.flag .c = decide (s.a.toNat + v.toNat < 256)

/-- CMP, CPX, CPY: Carry iff the register is at least the byte (unsigned), Zero iff they are equal,
Negative is bit 7 of the difference modulo 256; the register, Overflow and everything else is
unchanged (R117, R118, R119). -/
def Obligations.ComparesSetFlags : Prop :=
  let compared (r m : Byte) (t : State) : Prop :=
    t.flag .c = decide (m.toNat ≤ r.toNat) ∧ t.flag .z = decide (r = m) ∧
    t.flag .n = decide (128 ≤ (r.toNat + 256 - m.toNat) % 256)
  (∀ o, HasRows (.cmp o) [(.imm, 0xC9, 2), (.zp, 0xC5, 3), (.zpx, 0xD5, 4), (.abs, 0xCD, 4),
    (.abx, 0xDD, 4), (.aby, 0xD9, 4), (.izx, 0xC1, 6), (.izy, 0xD1, 5)]) ∧
  (∀ o, HasRows (.cpx o) [(.imm, 0xE0, 2), (.zp, 0xE4, 3), (.abs, 0xEC, 4)]) ∧
  (∀ o, HasRows (.cpy o) [(.imm, 0xC0, 2), (.zp, 0xC4, 3), (.abs, 0xCC, 4)]) ∧
  ∀ (o : DataOperand) (s : State), Boundary s →
    let m := (readData o s).1
    (∃ t, exec (.cmp o) s = .next t ∧ compared s.a m t ∧
      Ends [] [.c, .z, .n] (readCost (.cmp o) o s) s t ∧ OnlyReads o s t) ∧
    (∃ t, exec (.cpx o) s = .next t ∧ compared s.x m t ∧
      Ends [] [.c, .z, .n] (Instr.cpx o).baseCycles s t ∧ OnlyReads o s t) ∧
    (∃ t, exec (.cpy o) s = .next t ∧ compared s.y m t ∧
      Ends [] [.c, .z, .n] (Instr.cpy o).baseCycles s t ∧ OnlyReads o s t)

/-! ### Increments, decrements, shifts -/

/-- INC and DEC: the byte at the operand's address is read once, and once written back plus or minus
one modulo 256; Zero and Negative are the new value's; no register and no other flag or address
changes; base cycles (R120, R121). -/
def Obligations.MemoryIncrementDecrement : Prop :=
  (∀ m, HasRows (.inc m) [(.zp, 0xE6, 5), (.zpx, 0xF6, 6), (.abs, 0xEE, 6), (.abx, 0xFE, 7)]) ∧
  (∀ m, HasRows (.dec m) [(.zp, 0xC6, 5), (.zpx, 0xD6, 6), (.abs, 0xCE, 6), (.abx, 0xDE, 7)]) ∧
  ∀ (m : MemOperand) (s : State), Boundary s →
    let ea := (resolve m s).1
    let b := readMem m s
    (∃ t r, exec (.inc m) s = .next t ∧ r.toNat = (b.1.toNat + 1) % 256 ∧ Stores ea r b.2 t ∧
      KeepsMemoryBut [ea] s t ∧ ShowsZN r t ∧ t.pc = s.pc ∧
      Ends [] [.z, .n] (Instr.inc m).baseCycles s t) ∧
    (∃ t r, exec (.dec m) s = .next t ∧ r.toNat = (b.1.toNat + 255) % 256 ∧ Stores ea r b.2 t ∧
      KeepsMemoryBut [ea] s t ∧ ShowsZN r t ∧ t.pc = s.pc ∧
      Ends [] [.z, .n] (Instr.dec m).baseCycles s t)

/-- INX, INY, DEX, DEY: the register plus or minus one modulo 256, Zero and Negative of the new value,
nothing else changes; two cycles (R122 to R125). -/
def Obligations.RegisterIncrementDecrement : Prop :=
  HasRows .inx [(.imp, 0xE8, 2)] ∧ HasRows .iny [(.imp, 0xC8, 2)] ∧
  HasRows .dex [(.imp, 0xCA, 2)] ∧ HasRows .dey [(.imp, 0x88, 2)] ∧
  ∀ s : State, Boundary s →
    (∃ t, exec .inx s = .next t ∧ t.x.toNat = (s.x.toNat + 1) % 256 ∧ ShowsZN t.x t ∧
      Ends [.x] [.z, .n] 2 s t ∧ Quiet s t) ∧
    (∃ t, exec .iny s = .next t ∧ t.y.toNat = (s.y.toNat + 1) % 256 ∧ ShowsZN t.y t ∧
      Ends [.y] [.z, .n] 2 s t ∧ Quiet s t) ∧
    (∃ t, exec .dex s = .next t ∧ t.x.toNat = (s.x.toNat + 255) % 256 ∧ ShowsZN t.x t ∧
      Ends [.x] [.z, .n] 2 s t ∧ Quiet s t) ∧
    (∃ t, exec .dey s = .next t ∧ t.y.toNat = (s.y.toNat + 255) % 256 ∧ ShowsZN t.y t ∧
      Ends [.y] [.z, .n] 2 s t ∧ Quiet s t)

/-- ASL, LSR, ROL, ROR: the accumulator, or the byte at the operand's address read once and written
once, is shifted by one bit; the rotates feed the old Carry into the vacated bit; Carry is the bit
shifted out, Zero and Negative are the result's; nothing else changes; base cycles (R126 to R130). -/
def Obligations.ShiftsAndRotates : Prop :=
  (∀ o, HasRows (.asl o) [(.acc, 0x0A, 2), (.zp, 0x06, 5), (.zpx, 0x16, 6), (.abs, 0x0E, 6),
    (.abx, 0x1E, 7)]) ∧
  (∀ o, HasRows (.lsr o) [(.acc, 0x4A, 2), (.zp, 0x46, 5), (.zpx, 0x56, 6), (.abs, 0x4E, 6),
    (.abx, 0x5E, 7)]) ∧
  (∀ o, HasRows (.rol o) [(.acc, 0x2A, 2), (.zp, 0x26, 5), (.zpx, 0x36, 6), (.abs, 0x2E, 6),
    (.abx, 0x3E, 7)]) ∧
  (∀ o, HasRows (.ror o) [(.acc, 0x6A, 2), (.zp, 0x66, 5), (.zpx, 0x76, 6), (.abs, 0x6E, 6),
    (.abx, 0x7E, 7)]) ∧
  let shifts (k : ShiftOperand → Instr) (f : Nat → Nat → Nat) (out : Nat → Bool) : Prop :=
    ∀ s : State, Boundary s →
      let cin := if s.flag .c then 1 else 0
      (∃ t, exec (k .acc) s = .next t ∧ t.a.toNat = f s.a.toNat cin ∧
        t.flag .c = out s.a.toNat ∧ ShowsZN t.a t ∧
        Ends [.a] [.c, .z, .n] (k .acc).baseCycles s t ∧ Quiet s t) ∧
      ∀ m : MemOperand,
        let ea := (resolve m s).1
        let b := readMem m s
        ∃ t r, exec (k (.mem m)) s = .next t ∧ r.toNat = f b.1.toNat cin ∧ Stores ea r b.2 t ∧
          KeepsMemoryBut [ea] s t ∧ t.flag .c = out b.1.toNat ∧ ShowsZN r t ∧ t.pc = s.pc ∧
          Ends [] [.c, .z, .n] (k (.mem m)).baseCycles s t
  shifts .asl (fun v _ => 2 * v % 256) (fun v => decide (128 ≤ v)) ∧
  shifts .lsr (fun v _ => v / 2) (fun v => decide (v % 2 = 1)) ∧
  shifts .rol (fun v cin => 2 * v % 256 + cin) (fun v => decide (128 ≤ v)) ∧
  shifts .ror (fun v cin => v / 2 + 128 * cin) (fun v => decide (v % 2 = 1))

/-! ### Jumps, calls, branches -/

/-- JMP: PC takes the operand, or the word at the pointer, whose high byte is read from the same page as
its low byte even when the low byte's address ends in 0xFF; nothing else changes; no other
instruction has Indirect mode (R132, R76). -/
def Obligations.JumpSetsPc : Prop :=
  (∀ i : Instr, i.mode = .ind → i.mnemonic = .jmp) ∧
  (∀ t, HasRows (.jmp t) [(.abs, 0x4C, 3), (.ind, 0x6C, 5)]) ∧
  ∀ (a : Word) (s : State), Boundary s →
    (∃ t, exec (.jmp (.abs a)) s = .next t ∧ t.pc = a ∧ KeepsMemory s t ∧ t.devLog = s.devLog ∧
      Ends [] [] 3 s t) ∧
    (let l := memRead a s
     let h := memRead (BitVec.ofNat 16 (a.toNat / 256 * 256 + (a.toNat + 1) % 256)) l.2
     ∃ t, exec (.jmp (.ind a)) s = .next t ∧ t.pc.toNat = h.1.toNat * 256 + l.1.toNat ∧
      KeepsMemory s t ∧ t.devLog = h.2.devLog ∧ Ends [] [] 5 s t)

/-- JSR: pushes the address of its own last byte, high byte then low byte, and jumps to its operand; six
cycles (R133). -/
def Obligations.JsrPushesReturnAddress : Prop :=
  (∀ a, HasRows (.jsr a) [(.abs, 0x20, 6)]) ∧
  ∀ (a : Word) (s : State), Boundary s → ∃ t ret, exec (.jsr a) s = .next t ∧
    ret.toNat = (s.pc.toNat + 65535) % 65536 ∧ t.pc = a ∧
    Holds (stackAddr s.sp) (hiByte ret) t ∧ Holds (stackAddr (s.sp - 1)) (loByte ret) t ∧
    KeepsMemoryBut [stackAddr s.sp, stackAddr (s.sp - 1)] s t ∧
    t.sp.toNat = (s.sp.toNat + 254) % 256 ∧ t.devLog = s.devLog ∧ Ends [.sp] [] 6 s t

/-- RTS: pulls the low byte, then the high byte, and resumes at that word plus one modulo 65536; six
cycles (R134). -/
def Obligations.RtsReturns : Prop :=
  HasRows .rts [(.imp, 0x60, 6)] ∧
  ∀ s : State, Boundary s → ∃ t l h, exec .rts s = .next t ∧
    s.stored (stackAddr (s.sp + 1)) = some l ∧ s.stored (stackAddr (s.sp + 2)) = some h ∧
    t.pc.toNat = (h.toNat * 256 + l.toNat + 1) % 65536 ∧ t.sp.toNat = (s.sp.toNat + 2) % 256 ∧
    KeepsMemory s t ∧ t.devLog = s.devLog ∧ Ends [.sp] [] 6 s t

/-- A JSR and then an RTS that finds the stack as the JSR left it resume at the instruction after the
JSR with SP restored, whatever SP and PC are (R133, R134). -/
def Obligations.JsrThenRtsReturns : Prop :=
  ∀ (a : Word) (s : State), ∃ t u, exec (.jsr a) s = .next t ∧ exec .rts t = .next u ∧
    u.pc = s.pc ∧ KeepsRegsBut [] s u ∧ KeepsFlagsBut [] s u

/-- The eight branches: if the condition holds, PC takes the address of the next instruction plus the
signed offset modulo 65536, at 3 cycles in the same page and 4 in another; if not, PC stays, at 2
cycles; nothing else changes; no other instruction has Relative mode (R79, R135 to R143). -/
def Obligations.BranchesOnFlags : Prop :=
  let branches (k : Byte → Instr) (op : Byte) (f : Flag) (b : Bool) : Prop :=
    (∀ off, HasRows (k off) [(.rel, op, 2)] ∧ (k off).operandBytes = [off]) ∧
    ∀ (off : Byte) (s : State), Boundary s → ∃ target : Word,
      (target.toNat : Int) = ((s.pc.toNat : Int) + off.toInt) % 65536 ∧
      (s.flag f = b → ∃ t, exec (k off) s = .next t ∧ t.pc = target ∧
        Ends [] [] (if s.pc.toNat / 256 = target.toNat / 256 then 3 else 4) s t ∧
        KeepsMemory s t ∧ t.devLog = s.devLog) ∧
      (s.flag f ≠ b → ∃ t, exec (k off) s = .next t ∧ Ends [] [] 2 s t ∧ Quiet s t)
  (∀ i : Instr, i.mode = .rel →
    i.mnemonic ∈ [Mnemonic.bcc, .bcs, .beq, .bne, .bmi, .bpl, .bvc, .bvs]) ∧
  branches .bcc 0x90 .c false ∧ branches .bcs 0xB0 .c true ∧ branches .beq 0xF0 .z true ∧
  branches .bne 0xD0 .z false ∧ branches .bmi 0x30 .n true ∧ branches .bpl 0x10 .n false ∧
  branches .bvc 0x50 .v false ∧ branches .bvs 0x70 .v true

/-! ### Flag operations and system instructions -/

/-- The seven flag operations write their one bit and nothing else; two cycles (R146 to R152). -/
def Obligations.FlagOperations : Prop :=
  let writes (i : Instr) (op : Byte) (f : Flag) (b : Bool) : Prop :=
    HasRows i [(.imp, op, 2)] ∧
    ∀ s : State, Boundary s → ∃ t, exec i s = .next t ∧ t.flag f = b ∧ Ends [] [f] 2 s t ∧ Quiet s t
  writes .clc 0x18 .c false ∧ writes .cld 0xD8 .d false ∧ writes .cli 0x58 .i false ∧
  writes .clv 0xB8 .v false ∧ writes .sec 0x38 .c true ∧ writes .sed 0xF8 .d true ∧
  writes .sei 0x78 .i true

/-- BRK enters the handler at 0xFFFE: the return address is that of the opcode plus two, the pushed copy
of P has bits 4 and 5 set, Interrupt-Disable is set and no other bit of P changes; seven cycles
(R153). -/
def Obligations.BrkEntersHandler : Prop :=
  HasRows .brk [(.imp, 0x00, 7)] ∧
  ∀ s : State, Boundary s → ∃ t ret, exec .brk s = .next t ∧
    ret.toNat = (s.pc.toNat + 1) % 65536 ∧ EntersHandler ret (s.p ||| 0x30#8) 0xFFFE#16 s t ∧
    Ends [.sp] [.i] 7 s t

/-- RTI pulls all eight bits of P, then PC low and PC high, with no increment; six cycles (R154). -/
def Obligations.RtiRestoresStatusAndPc : Prop :=
  HasRows .rti [(.imp, 0x40, 6)] ∧
  ∀ s : State, Boundary s → ∃ t l h, exec .rti s = .next t ∧
    s.stored (stackAddr (s.sp + 1)) = some t.p ∧ s.stored (stackAddr (s.sp + 2)) = some l ∧
    s.stored (stackAddr (s.sp + 3)) = some h ∧ t.pc.toNat = h.toNat * 256 + l.toNat ∧
    t.sp.toNat = (s.sp.toNat + 3) % 256 ∧ KeepsMemory s t ∧ t.devLog = s.devLog ∧
    Ends [.sp] [.c, .z, .i, .d, .b, .u, .v, .n] 6 s t

/-- A BRK and then an RTI that finds the stack as the BRK left it resume at the opcode's address plus
two with P as pushed: bits 4 and 5 set, the others as before; the registers are restored (R153,
R154). -/
def Obligations.BrkThenRtiReturns : Prop :=
  ∀ s : State, ∃ t u, exec .brk s = .next t ∧ exec .rti t = .next u ∧ u.pc = s.pc + 1 ∧
    u.p = s.p ||| 0x30#8 ∧ KeepsRegsBut [] s u ∧ u.nmiPending = s.nmiPending

/-- NOP changes nothing but the cycle count, by two; a step that reads its opcode moves PC by one, and
nothing else changes beyond what the read itself does (R155). -/
def Obligations.NopDoesNothing : Prop :=
  HasRows .nop [(.imp, 0xEA, 2)] ∧
  (∀ s : State, Boundary s → exec .nop s = .next { s with cycles := s.cycles + 2 }) ∧
  ∀ s : State, Boundary s → s.nmiPending = false → (memRead s.pc s).1 = 0xEA#8 →
    step s = .next { (memRead s.pc s).2 with pc := s.pc + 1, cycles := s.cycles + 2 }

/-- The 105 unassigned opcodes decode to the sentinel, one byte long and of no cost, and it changes
nothing; a step that reads one moves PC by exactly one, and nothing else changes beyond what the read
itself does (R55, R156). -/
def Obligations.UnassignedOpcodesDoNothing : Prop :=
  unassignedOpcodes.length = 105 ∧ unassignedOpcodes.Nodup ∧
  (∀ op : Byte, op ∈ unassignedOpcodes ↔ (lookup op).mnemonic = .ill) ∧
  (∀ op ∈ unassignedOpcodes, ∀ rest, decode (op :: rest) = .instr (.ill op) rest) ∧
  ∀ op : Byte, (Instr.ill op).length = 1 ∧ (Instr.ill op).baseCycles = 0 ∧
    (∀ s : State, Boundary s → exec (.ill op) s = .next s) ∧
    ∀ s : State, op ∈ unassignedOpcodes → Boundary s → s.nmiPending = false →
      (memRead s.pc s).1 = op → step s = .next { (memRead s.pc s).2 with pc := s.pc + 1 }

/-! ### The step -/

/-- Where the bytes from PC on are held by memory and decode to an instruction, the step is `exec` of
it on the state whose PC has moved past those bytes (R15, R65, R80, R81). -/
def Obligations.StepRunsTheDecodedInstruction : Prop :=
  ∀ (bytes : List Byte) (i : Instr) (s : State), s.nmiPending = false →
    decode bytes = .instr i [] →
    (∀ k (h : k < bytes.length), s.stored (s.pc + BitVec.ofNat 16 k) = some bytes[k]) →
    step s = exec i { s with pc := s.pc + BitVec.ofNat 16 bytes.length }

/-- A pending NMI is serviced in place of normal fetch, whatever P holds: PC and a copy of P with bit 5
set and Break as held are pushed, Interrupt-Disable is set, PC is the word at 0xFFFA, the request is
cleared and seven cycles are charged (R164). -/
def Obligations.StepServicesPendingNmi : Prop :=
  ∀ s : State, s.nmiPending = true → ∃ t, step s = .next t ∧
    EntersHandler s.pc (s.p ||| 0x20#8) 0xFFFA#16 s t ∧ t.nmiPending = false ∧
    t.cycles = s.cycles + 7 ∧ KeepsRegsBut [.sp] s t ∧ KeepsFlagsBut [.i] s t ∧ t.prg = s.prg ∧
    Boundary t

/-- Every state has a next state: no opcode, operand or address makes a step fault or be refused (R85,
R160). -/
def Obligations.EveryStepCompletes : Prop := ∀ s : State, ∃ t, step s = .next t

/-- The invariant is kept by every step: memory stays in canonical form and lists cells of the map only,
and the transient flags are false (R22, R35, R38; the canonical form is the model's own,
assumption 2). -/
def Obligations.StepKeepsTheInvariant : Prop :=
  ∀ s t : State, s.Inv → step s = .next t → t.Inv

/-- The invariant holds after reset. That the transient flags are false is R25; the canonical form of
memory and the empty memory of `State.reset` are the model's choice (assumptions 2 and 3). -/
def Obligations.ResetMeetsTheInvariant : Prop := State.reset.Inv

/-- `reset()` from any state (R25, R180): the registers, the status, the cycle counter and the flags at
their values, PC from the word at 0xFFFC, low byte first, and memory as it was. The values of A, X, Y
and PC and the clearing of the request are the spec's own decisions D2, D3, D4. -/
def Obligations.HostResetEstablishesPowerOnState : Prop :=
  ∀ s : State,
    let t := hostReset s
    t.a = 0x00#8 ∧ t.x = 0x00#8 ∧ t.y = 0x00#8 ∧ t.sp = 0xFD#8 ∧ t.p = 0x24#8 ∧
    t.nmiPending = false ∧ t.pageCrossed = false ∧ t.extraEligible = false ∧ t.cycles = 7 ∧
    t.pc = (read16 0xFFFC#16 s).1 ∧ t.devLog = (read16 0xFFFC#16 s).2.devLog ∧ KeepsMemory s t ∧
    t.mem = s.mem ∧ t.prg = s.prg

/-- The host's other calls: `requestNMI()` sets the request and does nothing else, also when it is set;
`peek` answers what a bus read answers and changes no state of the core; `poke` is a bus write and
changes no state of the core (R163, R170). -/
def Obligations.HostCallsLeaveTheCoreAlone : Prop :=
  ∀ (a : Word) (v : Byte) (s : State),
    requestNmi s = { s with nmiPending := true } ∧ requestNmi (requestNmi s) = requestNmi s ∧
    (peek a s).1 = (memRead a s).1 ∧ (peek a s).2 = { s with devLog := (memRead a s).2.devLog } ∧
    poke a v s = { s with mem := (memWrite a v s).mem, devLog := (memWrite a v s).devLog }

/-- What a step costs (R191): 0, 2, 3, 4, 5, 6 or 7 cycles; 0 exactly for an unassigned opcode; 7
exactly for NMI service, BRK and the Absolute,X forms of the read-modify-write instructions. -/
def Obligations.StepCostInRange : Prop :=
  ∀ s t : State, Boundary s → step s = .next t → ∃ n ∈ [0, 2, 3, 4, 5, 6, 7],
    t.cycles = s.cycles + n ∧
    let i := (fetchInstr s).1
    (n = 0 ↔ s.nmiPending = false ∧ i.mnemonic = .ill) ∧
    (n = 7 ↔ s.nmiPending = true ∨ i.mnemonic = .brk ∨
      (i.mode = .abx ∧ i.mnemonic ∈ [Mnemonic.asl, .lsr, .rol, .ror, .inc, .dec]))

/-- The page-cross cycle (R82, R83): an instruction that is no branch costs its base cycles, and one
more exactly when its opcode is one of the 22 of R83 and its address computation crosses a page. -/
def Obligations.PageCrossCycleForListedOpcodes : Prop :=
  ∀ (i : Instr) (s t : State), WellFormed i → i.mode ≠ .rel → Boundary s → exec i s = .next t →
    t.cycles = s.cycles + i.baseCycles +
      if (∃ op ∈ pageCrossOpcodes, (encode i).head? = some op) ∧ instrCrosses i s = true then 1 else 0

/-- No rule's result depends on the cycle counter (R23, R84): from a state that differs only in it, a
step gives the same next state with the counter advanced by the same number. Both steps ask the same
collaborators (assumption 1). -/
def Obligations.CyclesAreNeverRead : Prop :=
  ∀ (s : State) (c : Nat), ∃ t n, step s = .next t ∧ t.cycles = s.cycles + n ∧
    step { s with cycles := c } = .next { t with cycles := c + n }

/-- Only RAM changes: no step changes what a ROM address or an unmapped address reads as, nor the size
of the ROM (R37, R38, R47). -/
def Obligations.OnlyRamChanges : Prop :=
  ∀ s t : State, step s = .next t →
    t.prg = s.prg ∧ ∀ b, (s.target b).isRam = false → t.stored b = s.stored b

/-- Only stores, memory read-modify-writes and pushes change memory (R42, R102; R93 to R95, R120, R121,
R126). -/
def Obligations.OnlyWritersChangeMemory : Prop :=
  ∀ (i : Instr) (s t : State), exec i s = .next t →
    i.mnemonic ∉ memoryWriters ∨ i.mode = .acc → KeepsMemory s t

/-- An instruction not named as a writer of a bit of P leaves that bit unchanged (R18, column "written
by"): in particular only PLP and RTI change Break and the Unused bit. -/
def Obligations.FlagWritersAreTheListedOnes : Prop :=
  ∀ (i : Instr) (s t : State) (f : Flag), exec i s = .next t → i.mnemonic ∉ flagWriters f →
    t.flag f = s.flag f

/-- An instruction not named as a writer of A, X, Y or SP leaves it unchanged (R11, R12, R13, R14). -/
def Obligations.RegisterWritersAreTheListedOnes : Prop :=
  ∀ (i : Instr) (s t : State) (r : Reg), exec i s = .next t → i.mnemonic ∉ regWriters r →
    t.reg r = s.reg r

/-- An instruction that transfers no control leaves PC at the next sequential instruction (R15). -/
def Obligations.OnlyTransfersMovePc : Prop :=
  ∀ (i : Instr) (s t : State), exec i s = .next t → i.mnemonic ∉ pcWriters → t.pc = s.pc

/-- No instruction writes the NMI request or the size of the ROM, and every instruction ends with both
transient flags false (R21, R22, R80). -/
def Obligations.NoInstructionTouchesTheRequest : Prop :=
  ∀ (i : Instr) (s t : State), exec i s = .next t →
    t.nmiPending = s.nmiPending ∧ t.prg = s.prg ∧ Boundary t
end

