-- ==== Sys2Proof/Laws/Decode.lean ====
section
/-! SUPPORT. The laws of the opcode table and of the byte-order helpers. -/

namespace Sys2Proof

/-- The high byte of a word as a number. -/
theorem hiByte_toNat (w : Word) : (hiByte w).toNat = w.toNat / 256 := by
  have := w.isLt
  simp [hiByte, BitVec.extractLsb'_toNat, Nat.shiftRight_eq_div_pow]
  omega

/-- The low byte of a word as a number. -/
theorem loByte_toNat (w : Word) : (loByte w).toNat = w.toNat % 256 := by
  simp [loByte, BitVec.extractLsb'_toNat]

/-- A word from its two bytes, as a number (R7). -/
theorem word16_toNat (h l : Byte) : (word16 h l).toNat = h.toNat * 256 + l.toNat := by
  have := l.isLt
  simp only [word16, BitVec.toNat_append]
  rw [Nat.shiftLeft_eq, ← Nat.shiftLeft_eq, ← Nat.shiftLeft_add_eq_or_of_lt this,
    Nat.shiftLeft_eq]

@[simp] theorem hiByte_word16 (h l : Byte) : hiByte (word16 h l) = h := by
  have := l.isLt
  apply BitVec.eq_of_toNat_eq
  rw [hiByte_toNat, word16_toNat]
  omega

@[simp] theorem loByte_word16 (h l : Byte) : loByte (word16 h l) = l := by
  have := l.isLt
  apply BitVec.eq_of_toNat_eq
  rw [loByte_toNat, word16_toNat]
  omega

@[simp] theorem word16_bytes (w : Word) : word16 (hiByte w) (loByte w) = w := by
  apply BitVec.eq_of_toNat_eq
  rw [word16_toNat, hiByte_toNat, loByte_toNat]
  omega

/-- The lookup finds every row of the table by its opcode: no two rows have one opcode. -/
theorem lookup_row {r : Row} (h : r ∈ opcodeTable) : lookup r.opcode = r := by
  have key : ∀ r ∈ opcodeTable, lookup r.opcode = r := by
    simp only [opcodeTable, List.forall_mem_append]
    decide +kernel
  exact key r h

/-- The row the lookup answers has the opcode looked up. -/
theorem lookup_opcode (op : Byte) : (lookup op).opcode = op := by
  unfold lookup
  split
  · rename_i r h
    simpa using List.find?_some h
  · rfl

/-- The row the lookup answers is a row of the table or the sentinel's. -/
theorem lookup_mem (op : Byte) : lookup op ∈ opcodeTable ∨ lookup op = sentinelRow op := by
  unfold lookup
  split
  · rename_i r h
    exact .inl (List.mem_of_find?_eq_some h)
  · exact .inr rfl

/-- Every row of the table pairs a mnemonic with a mode whose operand form exists. -/
theorem instrOfRow_isSome_of_mem {r : Row} (h : r ∈ opcodeTable) (b1 b2 : Byte) :
    (instrOfRow r b1 b2).isSome = true := by
  have key : ∀ r ∈ opcodeTable, ∀ b1 b2, (instrOfRow r b1 b2).isSome = true := by
    simp only [opcodeTable, loadStoreRows, transferStackRows, logicalRows, arithmeticRows,
      incDecRows, shiftRows, controlRows, systemRows, List.forall_mem_append, List.forall_mem_cons]
    simp [instrOfRow, dataOperandOf, memOperandOf, shiftOperandOf, jumpOperandOf]
  exact key r h b1 b2

/-- The decoder's last arm is never taken: every opcode's row has an instruction. -/
theorem decodeOpcode_row (op b1 b2 : Byte) :
    instrOfRow (lookup op) b1 b2 = some (decodeOpcode op b1 b2) := by
  have h : (instrOfRow (lookup op) b1 b2).isSome = true := by
    rcases lookup_mem op with h | h
    · exact instrOfRow_isSome_of_mem h b1 b2
    · rw [h]; rfl
  unfold decodeOpcode
  cases hi : instrOfRow (lookup op) b1 b2 with
  | none => simp [hi] at h
  | some i => rfl

/-- An unassigned opcode has the sentinel's row (R55). -/
theorem lookup_unassigned (op : Byte) (h : op ∈ unassignedOpcodes) : lookup op = sentinelRow op := by
  have key : ∀ op ∈ unassignedOpcodes, lookup op = sentinelRow op := by decide +kernel
  exact key op h

end Sys2Proof
end

