-- ==== Sys2Proof/Laws/Memory.lean ====
section
/-! SUPPORT. The laws of memory cells: what a read gives after a write, for every list of cells, and
that every memory operation keeps the canonical form. -/

namespace Sys2Proof.Machine

@[simp] theorem Memory.read_nil (j : Nat) : Memory.read [] j = Memory.unlisted := rfl

theorem Memory.read_erase (m : Memory) (k j : Nat) :
    (m.erase k).read j = if j = k then Memory.unlisted else m.read j := by
  induction m with
  | nil => simp [Memory.erase]
  | cons c m ih =>
    by_cases hc : c.1 = k
    · simp only [Memory.erase, hc, if_true, ih, Memory.read]
      by_cases hj : j = k
      · simp [hj]
      · have hkj : ¬k = j := fun h => hj h.symm
        simp [hj, hkj]
    · simp only [Memory.erase, hc, if_false, Memory.read, ih]
      by_cases hj : j = k
      · simp [hj, hc]
      · simp [hj]

theorem Memory.read_insert (m : Memory) (k : Nat) (v : Byte) (h : ∀ c ∈ m, c.1 ≠ k) (j : Nat) :
    (m.insert k v).read j = if j = k then v else m.read j := by
  induction m with
  | nil => simp [Memory.insert, Memory.read, eq_comm]
  | cons c m ih =>
    have hc : c.1 ≠ k := h c (by simp)
    have ih := ih (fun d hd => h d (by simp [hd]))
    simp only [Memory.insert]
    split
    · simp [Memory.read, eq_comm]
    · simp only [Memory.read, ih]
      by_cases hj : j = k
      · simp [hj, hc]
      · simp [hj]

theorem Memory.erase_no_key (m : Memory) (k : Nat) : ∀ c ∈ m.erase k, c.1 ≠ k := by
  induction m with
  | nil => simp [Memory.erase]
  | cons c m ih =>
    simp only [Memory.erase]
    split
    · exact ih
    · intro d hd
      rcases List.mem_cons.1 hd with rfl | hd
      · assumption
      · exact ih d hd

/-- A read after a write: the written cell holds the byte, every other cell what it held. -/
@[simp] theorem Memory.read_write (m : Memory) (k : Nat) (v : Byte) (j : Nat) :
    (m.write k v).read j = if j = k then v else m.read j := by
  unfold Memory.write
  split
  · rename_i hv
    rw [Memory.read_erase, hv]
  · rw [Memory.read_insert _ _ _ (Memory.erase_no_key m k), Memory.read_erase]
    by_cases hj : j = k <;> simp [hj]

theorem Memory.erase_sublist (m : Memory) (k : Nat) : (m.erase k).Sublist m := by
  induction m with
  | nil => simp [Memory.erase]
  | cons c m ih =>
    simp only [Memory.erase]
    split
    · exact ih.trans (List.sublist_cons_self c m)
    · exact ih.cons_cons c

theorem Memory.mem_insert (m : Memory) (k : Nat) (v : Byte) (c : Host.Cell) :
    c ∈ m.insert k v ↔ c = (k, v) ∨ c ∈ m := by
  induction m with
  | nil => simp [Memory.insert]
  | cons d m ih =>
    simp only [Memory.insert]
    split
    · simp
    · simp only [List.mem_cons, ih]
      tauto

theorem Memory.insert_sorted (m : Memory) (k : Nat) (v : Byte) (hk : ∀ c ∈ m, c.1 ≠ k)
    (hm : m.Pairwise (fun c d => c.1 < d.1)) :
    (m.insert k v).Pairwise (fun c d => c.1 < d.1) := by
  induction m with
  | nil => simp [Memory.insert]
  | cons c m ih =>
    rw [List.pairwise_cons] at hm
    simp only [Memory.insert]
    split
    · rename_i hlt
      rw [List.pairwise_cons]
      refine ⟨fun d hd => ?_, List.pairwise_cons.2 hm⟩
      rcases List.mem_cons.1 hd with rfl | hd
      · exact hlt
      · exact hlt.trans (hm.1 d hd)
    · rename_i hlt
      rw [List.pairwise_cons]
      refine ⟨fun d hd => ?_, ih (fun d hd => hk d (by simp [hd])) hm.2⟩
      rcases (Memory.mem_insert m k v d).1 hd with rfl | hd
      · exact lt_of_le_of_ne (not_lt.1 hlt) (hk c (by simp))
      · exact hm.1 d hd

/-- Every memory operation keeps the canonical form. -/
theorem Memory.write_wf (m : Memory) (k : Nat) (v : Byte) (h : m.wf) : (m.write k v).wf := by
  have he : (m.erase k).wf :=
    ⟨h.1.sublist (Memory.erase_sublist m k), fun c hc => h.2 c ((Memory.erase_sublist m k).subset hc)⟩
  unfold Memory.write
  split
  · exact he
  · rename_i hv
    refine ⟨Memory.insert_sorted _ k v (Memory.erase_no_key m k) he.1, fun c hc => ?_⟩
    rcases (Memory.mem_insert _ k v c).1 hc with rfl | hc
    · exact hv
    · exact he.2 c hc

/-- A write lists no cell but the ones listed before and the one written. -/
theorem Memory.mem_write (m : Memory) (k : Nat) (v : Byte) (c : Host.Cell) (h : c ∈ m.write k v) :
    c.1 = k ∨ c ∈ m := by
  unfold Memory.write at h
  split at h
  · exact .inr ((Memory.erase_sublist m k).subset h)
  · rcases (Memory.mem_insert _ k v c).1 h with rfl | h
    · exact .inl rfl
    · exact .inr ((Memory.erase_sublist m k).subset h)

theorem Memory.reset_wf : State.reset.mem.wf := by decide

end Sys2Proof.Machine
end

