-- ==== Sys2Proof/Laws/State.lean ====
section
/-! SUPPORT. One lemma per field per named update of the state, true by unfolding and tagged simp, so
that no later proof unfolds a record update; and what each update does to the flags. -/

namespace Sys2Proof.Machine

/-! ### Single flags -/

/-- The bits of a status byte after one is written. -/
theorem flagOf_withFlag (p : Byte) (f g : Flag) (b : Bool) :
    flagOf (withFlag p f b) g = if g = f then b else flagOf p g := by
  cases b <;> cases f <;> cases g <;>
    simp [flagOf, withFlag, Flag.bit]

@[simp] theorem flag_setFlag (f g : Flag) (b : Bool) (s : State) :
    (setFlag f b s).flag g = if g = f then b else s.flag g := flagOf_withFlag s.p f g b

/-- Two status bytes with the same eight bits are equal. -/
theorem status_ext (p q : Byte) (h : ∀ f, flagOf p f = flagOf q f) : p = q := by
  apply BitVec.eq_of_getLsbD_eq
  intro i hi
  have hc := h .c
  have hz := h .z
  have hI := h .i
  have hd := h .d
  have hb := h .b
  have hu := h .u
  have hv := h .v
  have hn := h .n
  simp only [flagOf, Flag.bit] at hc hz hI hd hb hu hv hn
  interval_cases i <;> assumption

/-! ### The fields after `setFlag` -/

@[simp] theorem setFlag_a (f : Flag) (b : Bool) (s : State) : (setFlag f b s).a = s.a := rfl
@[simp] theorem setFlag_x (f : Flag) (b : Bool) (s : State) : (setFlag f b s).x = s.x := rfl
@[simp] theorem setFlag_y (f : Flag) (b : Bool) (s : State) : (setFlag f b s).y = s.y := rfl
@[simp] theorem setFlag_sp (f : Flag) (b : Bool) (s : State) : (setFlag f b s).sp = s.sp := rfl
@[simp] theorem setFlag_pc (f : Flag) (b : Bool) (s : State) : (setFlag f b s).pc = s.pc := rfl
@[simp] theorem setFlag_nmiPending (f : Flag) (b : Bool) (s : State) : (setFlag f b s).nmiPending = s.nmiPending := rfl
@[simp] theorem setFlag_pageCrossed (f : Flag) (b : Bool) (s : State) : (setFlag f b s).pageCrossed = s.pageCrossed := rfl
@[simp] theorem setFlag_extraEligible (f : Flag) (b : Bool) (s : State) : (setFlag f b s).extraEligible = s.extraEligible := rfl
@[simp] theorem setFlag_cycles (f : Flag) (b : Bool) (s : State) : (setFlag f b s).cycles = s.cycles := rfl
@[simp] theorem setFlag_mem (f : Flag) (b : Bool) (s : State) : (setFlag f b s).mem = s.mem := rfl
@[simp] theorem setFlag_prg (f : Flag) (b : Bool) (s : State) : (setFlag f b s).prg = s.prg := rfl
@[simp] theorem setFlag_devLog (f : Flag) (b : Bool) (s : State) : (setFlag f b s).devLog = s.devLog := rfl

@[simp] theorem stored_setFlag (f : Flag) (b : Bool) (s : State) (a : Word) :
    (setFlag f b s).stored a = s.stored a := rfl

/-! ### The fields after `setZN` -/

@[simp] theorem setZN_a (v : Byte) (s : State) : (setZN v s).a = s.a := rfl
@[simp] theorem setZN_x (v : Byte) (s : State) : (setZN v s).x = s.x := rfl
@[simp] theorem setZN_y (v : Byte) (s : State) : (setZN v s).y = s.y := rfl
@[simp] theorem setZN_sp (v : Byte) (s : State) : (setZN v s).sp = s.sp := rfl
@[simp] theorem setZN_pc (v : Byte) (s : State) : (setZN v s).pc = s.pc := rfl
@[simp] theorem setZN_nmiPending (v : Byte) (s : State) : (setZN v s).nmiPending = s.nmiPending := rfl
@[simp] theorem setZN_pageCrossed (v : Byte) (s : State) : (setZN v s).pageCrossed = s.pageCrossed := rfl
@[simp] theorem setZN_extraEligible (v : Byte) (s : State) : (setZN v s).extraEligible = s.extraEligible := rfl
@[simp] theorem setZN_cycles (v : Byte) (s : State) : (setZN v s).cycles = s.cycles := rfl
@[simp] theorem setZN_mem (v : Byte) (s : State) : (setZN v s).mem = s.mem := rfl
@[simp] theorem setZN_prg (v : Byte) (s : State) : (setZN v s).prg = s.prg := rfl
@[simp] theorem setZN_devLog (v : Byte) (s : State) : (setZN v s).devLog = s.devLog := rfl

/-- `setZN` writes Zero and Negative and no other bit (R20). -/
@[simp] theorem flag_setZN (v : Byte) (s : State) (g : Flag) :
    (setZN v s).flag g =
      if g = .n then v.getLsbD 7 else if g = .z then v == 0 else s.flag g := by
  simp only [setZN, flag_setFlag]

/-! ### The fields after `account` -/

@[simp] theorem account_a (n : Nat) (s : State) : (account n s).a = s.a := rfl
@[simp] theorem account_x (n : Nat) (s : State) : (account n s).x = s.x := rfl
@[simp] theorem account_y (n : Nat) (s : State) : (account n s).y = s.y := rfl
@[simp] theorem account_sp (n : Nat) (s : State) : (account n s).sp = s.sp := rfl
@[simp] theorem account_pc (n : Nat) (s : State) : (account n s).pc = s.pc := rfl
@[simp] theorem account_p (n : Nat) (s : State) : (account n s).p = s.p := rfl
@[simp] theorem account_nmiPending (n : Nat) (s : State) : (account n s).nmiPending = s.nmiPending := rfl
@[simp] theorem account_mem (n : Nat) (s : State) : (account n s).mem = s.mem := rfl
@[simp] theorem account_prg (n : Nat) (s : State) : (account n s).prg = s.prg := rfl
@[simp] theorem account_devLog (n : Nat) (s : State) : (account n s).devLog = s.devLog := rfl
@[simp] theorem account_cycles (n : Nat) (s : State) : (account n s).cycles = s.cycles + n := rfl
@[simp] theorem account_pageCrossed (n : Nat) (s : State) : (account n s).pageCrossed = false := rfl
@[simp] theorem account_extraEligible (n : Nat) (s : State) :
    (account n s).extraEligible = false := rfl
@[simp] theorem flag_account (n : Nat) (s : State) (f : Flag) : (account n s).flag f = s.flag f := rfl
@[simp] theorem stored_account (n : Nat) (s : State) (a : Word) :
    (account n s).stored a = s.stored a := rfl
@[simp] theorem target_account (n : Nat) (s : State) (a : Word) :
    (account n s).target a = s.target a := rfl

/-! ### The fields after `markEligible` -/

@[simp] theorem markEligible_a (s : State) : (markEligible s).a = s.a := rfl
@[simp] theorem markEligible_x (s : State) : (markEligible s).x = s.x := rfl
@[simp] theorem markEligible_y (s : State) : (markEligible s).y = s.y := rfl
@[simp] theorem markEligible_sp (s : State) : (markEligible s).sp = s.sp := rfl
@[simp] theorem markEligible_pc (s : State) : (markEligible s).pc = s.pc := rfl
@[simp] theorem markEligible_p (s : State) : (markEligible s).p = s.p := rfl
@[simp] theorem markEligible_nmiPending (s : State) : (markEligible s).nmiPending = s.nmiPending := rfl
@[simp] theorem markEligible_pageCrossed (s : State) : (markEligible s).pageCrossed = s.pageCrossed := rfl
@[simp] theorem markEligible_cycles (s : State) : (markEligible s).cycles = s.cycles := rfl
@[simp] theorem markEligible_mem (s : State) : (markEligible s).mem = s.mem := rfl
@[simp] theorem markEligible_prg (s : State) : (markEligible s).prg = s.prg := rfl
@[simp] theorem markEligible_devLog (s : State) : (markEligible s).devLog = s.devLog := rfl
@[simp] theorem markEligible_extraEligible (s : State) : (markEligible s).extraEligible = true := rfl
@[simp] theorem flag_markEligible (s : State) (f : Flag) : (markEligible s).flag f = s.flag f := rfl
@[simp] theorem stored_markEligible (s : State) (a : Word) :
    (markEligible s).stored a = s.stored a := rfl

/-! ### The fields after the flag computations -/

@[simp] theorem addCore_x (b : Byte) (s : State) : (addCore b s).x = s.x := rfl
@[simp] theorem addCore_y (b : Byte) (s : State) : (addCore b s).y = s.y := rfl
@[simp] theorem addCore_sp (b : Byte) (s : State) : (addCore b s).sp = s.sp := rfl
@[simp] theorem addCore_pc (b : Byte) (s : State) : (addCore b s).pc = s.pc := rfl
@[simp] theorem addCore_nmiPending (b : Byte) (s : State) : (addCore b s).nmiPending = s.nmiPending := rfl
@[simp] theorem addCore_pageCrossed (b : Byte) (s : State) : (addCore b s).pageCrossed = s.pageCrossed := rfl
@[simp] theorem addCore_extraEligible (b : Byte) (s : State) : (addCore b s).extraEligible = s.extraEligible := rfl
@[simp] theorem addCore_cycles (b : Byte) (s : State) : (addCore b s).cycles = s.cycles := rfl
@[simp] theorem addCore_mem (b : Byte) (s : State) : (addCore b s).mem = s.mem := rfl
@[simp] theorem addCore_prg (b : Byte) (s : State) : (addCore b s).prg = s.prg := rfl
@[simp] theorem addCore_devLog (b : Byte) (s : State) : (addCore b s).devLog = s.devLog := rfl

@[simp] theorem compareFlags_a (r m : Byte) (s : State) : (compareFlags r m s).a = s.a := rfl
@[simp] theorem compareFlags_x (r m : Byte) (s : State) : (compareFlags r m s).x = s.x := rfl
@[simp] theorem compareFlags_y (r m : Byte) (s : State) : (compareFlags r m s).y = s.y := rfl
@[simp] theorem compareFlags_sp (r m : Byte) (s : State) : (compareFlags r m s).sp = s.sp := rfl
@[simp] theorem compareFlags_pc (r m : Byte) (s : State) : (compareFlags r m s).pc = s.pc := rfl
@[simp] theorem compareFlags_nmiPending (r m : Byte) (s : State) : (compareFlags r m s).nmiPending = s.nmiPending := rfl
@[simp] theorem compareFlags_pageCrossed (r m : Byte) (s : State) : (compareFlags r m s).pageCrossed = s.pageCrossed := rfl
@[simp] theorem compareFlags_extraEligible (r m : Byte) (s : State) : (compareFlags r m s).extraEligible = s.extraEligible := rfl
@[simp] theorem compareFlags_cycles (r m : Byte) (s : State) : (compareFlags r m s).cycles = s.cycles := rfl
@[simp] theorem compareFlags_mem (r m : Byte) (s : State) : (compareFlags r m s).mem = s.mem := rfl
@[simp] theorem compareFlags_prg (r m : Byte) (s : State) : (compareFlags r m s).prg = s.prg := rfl
@[simp] theorem compareFlags_devLog (r m : Byte) (s : State) : (compareFlags r m s).devLog = s.devLog := rfl

@[simp] theorem bitFlags_a (m : Byte) (s : State) : (bitFlags m s).a = s.a := rfl
@[simp] theorem bitFlags_x (m : Byte) (s : State) : (bitFlags m s).x = s.x := rfl
@[simp] theorem bitFlags_y (m : Byte) (s : State) : (bitFlags m s).y = s.y := rfl
@[simp] theorem bitFlags_sp (m : Byte) (s : State) : (bitFlags m s).sp = s.sp := rfl
@[simp] theorem bitFlags_pc (m : Byte) (s : State) : (bitFlags m s).pc = s.pc := rfl
@[simp] theorem bitFlags_nmiPending (m : Byte) (s : State) : (bitFlags m s).nmiPending = s.nmiPending := rfl
@[simp] theorem bitFlags_pageCrossed (m : Byte) (s : State) : (bitFlags m s).pageCrossed = s.pageCrossed := rfl
@[simp] theorem bitFlags_extraEligible (m : Byte) (s : State) : (bitFlags m s).extraEligible = s.extraEligible := rfl
@[simp] theorem bitFlags_cycles (m : Byte) (s : State) : (bitFlags m s).cycles = s.cycles := rfl
@[simp] theorem bitFlags_mem (m : Byte) (s : State) : (bitFlags m s).mem = s.mem := rfl
@[simp] theorem bitFlags_prg (m : Byte) (s : State) : (bitFlags m s).prg = s.prg := rfl
@[simp] theorem bitFlags_devLog (m : Byte) (s : State) : (bitFlags m s).devLog = s.devLog := rfl

/-- The sum the adder leaves in A (R114). -/
theorem addCore_a (b : Byte) (s : State) :
    (addCore b s).a = BitVec.ofNat 8 (s.a.toNat + b.toNat + (s.flag .c).toNat) := rfl

/-- The flags after the adder (R114). -/
theorem flag_addCore (b : Byte) (s : State) (g : Flag) :
    (addCore b s).flag g =
      if g = .n then (addCore b s).a.getLsbD 7
      else if g = .z then (addCore b s).a == 0
      else if g = .v then (~~~(s.a ^^^ b) &&& (s.a ^^^ (addCore b s).a) &&& 0x80#8) != 0
      else if g = .c then decide (255 < s.a.toNat + b.toNat + (s.flag .c).toNat)
      else s.flag g := by
  cases g <;> simp [addCore, State.flag, setFlag, setZN, flagOf_withFlag]

/-- The flags after a comparison (R117). -/
theorem flag_compareFlags (r m : Byte) (s : State) (g : Flag) :
    (compareFlags r m s).flag g =
      if g = .n then (r - m).getLsbD 7
      else if g = .z then r == m
      else if g = .c then decide (m.toNat ≤ r.toNat)
      else s.flag g := by
  simp only [compareFlags, flag_setFlag]

/-- The flags after BIT (R113). -/
theorem flag_bitFlags (m : Byte) (s : State) (g : Flag) :
    (bitFlags m s).flag g =
      if g = .v then m.getLsbD 6
      else if g = .n then m.getLsbD 7
      else if g = .z then (s.a &&& m) == 0
      else s.flag g := by
  simp only [bitFlags, flag_setFlag]

/-- The bits of the pushed status byte: bits 5 and, where forced, 4 are set, the others are P's
(R19). -/
theorem flagOf_statusForPush (brk : Bool) (p : Byte) (g : Flag) :
    flagOf (statusForPush brk p) g =
      if g = .u then true else if g = .b then brk || flagOf p .b else flagOf p g := by
  cases brk <;> cases g <;> simp [flagOf, statusForPush, Flag.bit]

end Sys2Proof.Machine
end

