-- ==== Sys2Proof/Laws/Ops.lean ====
section
/-! SUPPORT. The laws of the shared operations: what the bus, the stack, the interrupt sequence and
the host's calls can change, and what an address holds after each. -/

namespace Sys2Proof.Machine

/-! ### RAM targets -/

@[simp] theorem isRam_ram (k : Nat) : (Target.ram k).isRam = true := rfl
@[simp] theorem isRam_rom (k : Nat) : (Target.rom k).isRam = false := rfl
@[simp] theorem isRam_unmapped : Target.unmapped.isRam = false := rfl
@[simp] theorem isRam_device (d : Device) : (Target.device d).isRam = false := rfl

/-! ### One bus read -/

@[simp] theorem memRead_a (addr : Word) (s : State) : ((memRead addr s).2).a = s.a := by
  unfold memRead; split <;> rfl
@[simp] theorem memRead_x (addr : Word) (s : State) : ((memRead addr s).2).x = s.x := by
  unfold memRead; split <;> rfl
@[simp] theorem memRead_y (addr : Word) (s : State) : ((memRead addr s).2).y = s.y := by
  unfold memRead; split <;> rfl
@[simp] theorem memRead_sp (addr : Word) (s : State) : ((memRead addr s).2).sp = s.sp := by
  unfold memRead; split <;> rfl
@[simp] theorem memRead_pc (addr : Word) (s : State) : ((memRead addr s).2).pc = s.pc := by
  unfold memRead; split <;> rfl
@[simp] theorem memRead_p (addr : Word) (s : State) : ((memRead addr s).2).p = s.p := by
  unfold memRead; split <;> rfl
@[simp] theorem memRead_nmiPending (addr : Word) (s : State) : ((memRead addr s).2).nmiPending = s.nmiPending := by
  unfold memRead; split <;> rfl
@[simp] theorem memRead_pageCrossed (addr : Word) (s : State) : ((memRead addr s).2).pageCrossed = s.pageCrossed := by
  unfold memRead; split <;> rfl
@[simp] theorem memRead_extraEligible (addr : Word) (s : State) : ((memRead addr s).2).extraEligible = s.extraEligible := by
  unfold memRead; split <;> rfl
@[simp] theorem memRead_cycles (addr : Word) (s : State) : ((memRead addr s).2).cycles = s.cycles := by
  unfold memRead; split <;> rfl
@[simp] theorem memRead_mem (addr : Word) (s : State) : ((memRead addr s).2).mem = s.mem := by
  unfold memRead; split <;> rfl
@[simp] theorem memRead_prg (addr : Word) (s : State) : ((memRead addr s).2).prg = s.prg := by
  unfold memRead; split <;> rfl

/-- Everything one bus read can do: where memory or nothing answers, the state is unchanged. -/
theorem memRead_of_stored {s : State} {addr : Word} {v : Byte} (h : s.stored addr = some v) :
    memRead addr s = (v, s) := by
  unfold State.stored at h
  unfold memRead
  split at h <;> simp_all

/-- Everything one bus read can do: a collaborator records the access and its answer is free. -/
theorem memRead_of_device {s : State} {addr : Word} {d : Device} (h : s.target addr = .device d) :
    memRead addr s =
      (Config.deviceAnswer (.read d :: s.devLog), { s with devLog := .read d :: s.devLog }) := by
  simp [memRead, h, deviceRead]

@[simp] theorem target_memRead (addr b : Word) (s : State) :
    (memRead addr s).2.target b = s.target b := by
  simp [State.target]

@[simp] theorem stored_memRead (addr b : Word) (s : State) :
    (memRead addr s).2.stored b = s.stored b := by
  simp [State.stored]

@[simp] theorem flag_memRead (addr : Word) (s : State) (f : Flag) :
    (memRead addr s).2.flag f = s.flag f := by
  simp [State.flag]

/-! ### One bus write -/

@[simp] theorem memWrite_a (addr : Word) (v : Byte) (s : State) : (memWrite addr v s).a = s.a := by
  unfold memWrite; split <;> rfl
@[simp] theorem memWrite_x (addr : Word) (v : Byte) (s : State) : (memWrite addr v s).x = s.x := by
  unfold memWrite; split <;> rfl
@[simp] theorem memWrite_y (addr : Word) (v : Byte) (s : State) : (memWrite addr v s).y = s.y := by
  unfold memWrite; split <;> rfl
@[simp] theorem memWrite_sp (addr : Word) (v : Byte) (s : State) : (memWrite addr v s).sp = s.sp := by
  unfold memWrite; split <;> rfl
@[simp] theorem memWrite_pc (addr : Word) (v : Byte) (s : State) : (memWrite addr v s).pc = s.pc := by
  unfold memWrite; split <;> rfl
@[simp] theorem memWrite_p (addr : Word) (v : Byte) (s : State) : (memWrite addr v s).p = s.p := by
  unfold memWrite; split <;> rfl
@[simp] theorem memWrite_nmiPending (addr : Word) (v : Byte) (s : State) : (memWrite addr v s).nmiPending = s.nmiPending := by
  unfold memWrite; split <;> rfl
@[simp] theorem memWrite_pageCrossed (addr : Word) (v : Byte) (s : State) : (memWrite addr v s).pageCrossed = s.pageCrossed := by
  unfold memWrite; split <;> rfl
@[simp] theorem memWrite_extraEligible (addr : Word) (v : Byte) (s : State) : (memWrite addr v s).extraEligible = s.extraEligible := by
  unfold memWrite; split <;> rfl
@[simp] theorem memWrite_cycles (addr : Word) (v : Byte) (s : State) : (memWrite addr v s).cycles = s.cycles := by
  unfold memWrite; split <;> rfl
@[simp] theorem memWrite_prg (addr : Word) (v : Byte) (s : State) : (memWrite addr v s).prg = s.prg := by
  unfold memWrite; split <;> rfl

/-- What a bus write does to memory: a RAM cell takes the byte, nothing else changes. -/
theorem memWrite_mem (addr : Word) (v : Byte) (s : State) :
    (memWrite addr v s).mem =
      match s.target addr with
      | .ram k => s.mem.write k v
      | _ => s.mem := by
  unfold memWrite; split <;> simp_all

/-- What a bus write does to the record of accesses: a collaborator is handed the byte. -/
theorem memWrite_devLog (addr : Word) (v : Byte) (s : State) :
    (memWrite addr v s).devLog =
      match s.target addr with
      | .device d => .write d v :: s.devLog
      | _ => s.devLog := by
  unfold memWrite; split <;> simp_all

@[simp] theorem target_memWrite (addr b : Word) (v : Byte) (s : State) :
    (memWrite addr v s).target b = s.target b := by
  simp [State.target]

@[simp] theorem flag_memWrite (addr : Word) (v : Byte) (s : State) (f : Flag) :
    (memWrite addr v s).flag f = s.flag f := by
  simp [State.flag]

/-- A ROM cell and a RAM cell are never the same cell (R34). -/
theorem route_ram_lt {prg : PrgSize} {addr : Word} {k : Nat} (h : route prg addr = .ram k) :
    k < 0x0800 := by
  unfold route at h
  dsimp only at h
  split_ifs at h
  all_goals first | (cases h; omega) | (cases prg <;> simp at h)

theorem route_rom_ge {prg : PrgSize} {addr : Word} {k : Nat} (h : route prg addr = .rom k) :
    0x8000 ≤ k := by
  unfold route at h
  dsimp only at h
  split_ifs at h
  cases prg <;> simp at h <;> omega

/-- What an address holds after a bus write: the mirrors of a RAM cell hold the byte, every other
address what it held. -/
theorem stored_memWrite (addr b : Word) (v : Byte) (s : State) :
    (memWrite addr v s).stored b =
      if s.target b = s.target addr ∧ (s.target addr).isRam = true then some v else s.stored b := by
  unfold State.stored
  rw [target_memWrite, memWrite_mem]
  cases ha : s.target addr with
  | ram k =>
    cases hb : s.target b with
    | ram j => by_cases hj : j = k <;> simp [hj]
    | rom j =>
      have h1 := route_ram_lt ha
      have h2 := route_rom_ge hb
      have h3 : ¬j = k := by omega
      simp [h3]
    | unmapped => simp
    | device d => simp
  | rom k => cases hb : s.target b <;> simp
  | unmapped => cases hb : s.target b <;> simp
  | device d => cases hb : s.target b <;> simp

/-! ### A 16-bit read -/

@[simp] theorem read16_a (addr : Word) (s : State) : ((read16 addr s).2).a = s.a := by
  simp [read16]
@[simp] theorem read16_x (addr : Word) (s : State) : ((read16 addr s).2).x = s.x := by
  simp [read16]
@[simp] theorem read16_y (addr : Word) (s : State) : ((read16 addr s).2).y = s.y := by
  simp [read16]
@[simp] theorem read16_sp (addr : Word) (s : State) : ((read16 addr s).2).sp = s.sp := by
  simp [read16]
@[simp] theorem read16_pc (addr : Word) (s : State) : ((read16 addr s).2).pc = s.pc := by
  simp [read16]
@[simp] theorem read16_p (addr : Word) (s : State) : ((read16 addr s).2).p = s.p := by
  simp [read16]
@[simp] theorem read16_nmiPending (addr : Word) (s : State) : ((read16 addr s).2).nmiPending = s.nmiPending := by
  simp [read16]
@[simp] theorem read16_pageCrossed (addr : Word) (s : State) : ((read16 addr s).2).pageCrossed = s.pageCrossed := by
  simp [read16]
@[simp] theorem read16_extraEligible (addr : Word) (s : State) : ((read16 addr s).2).extraEligible = s.extraEligible := by
  simp [read16]
@[simp] theorem read16_cycles (addr : Word) (s : State) : ((read16 addr s).2).cycles = s.cycles := by
  simp [read16]
@[simp] theorem read16_mem (addr : Word) (s : State) : ((read16 addr s).2).mem = s.mem := by
  simp [read16]
@[simp] theorem read16_prg (addr : Word) (s : State) : ((read16 addr s).2).prg = s.prg := by
  simp [read16]

@[simp] theorem target_read16 (addr b : Word) (s : State) :
    (read16 addr s).2.target b = s.target b := by
  simp [read16]

@[simp] theorem stored_read16 (addr b : Word) (s : State) :
    (read16 addr s).2.stored b = s.stored b := by
  simp [read16]

@[simp] theorem flag_read16 (addr : Word) (s : State) (f : Flag) :
    (read16 addr s).2.flag f = s.flag f := by
  simp [read16]

/-! ### The stack page -/

/-- The stack page is RAM: the cell `SP` designates is cell `0x0100 + SP` (R14, R35). -/
@[simp] theorem target_stackAddr (s : State) (sp : Byte) :
    s.target (stackAddr sp) = .ram (0x0100 + sp.toNat) := by
  have h : (stackAddr sp).toNat = 0x0100 + sp.toNat := by
    have := sp.isLt
    simp [stackAddr, stackBase, zext]
    omega
  have := sp.isLt
  simp only [State.target, route, h]
  rw [if_pos (by omega), Nat.mod_eq_of_lt (by omega)]

@[simp] theorem stackAddr_inj (p q : Byte) : stackAddr p = stackAddr q ↔ p = q := by
  constructor
  · intro h
    have := congrArg BitVec.toNat h
    have := p.isLt
    have := q.isLt
    simp [stackAddr, stackBase, zext] at *
    apply BitVec.eq_of_toNat_eq
    omega
  · rintro rfl; rfl

/-- What the stack cell at `sp` holds. -/
theorem stored_stackAddr (s : State) (sp : Byte) :
    s.stored (stackAddr sp) = some (s.mem.read (0x0100 + sp.toNat)) := by
  simp [State.stored]

/-! ### Push and pull -/

@[simp] theorem push_a (v : Byte) (s : State) : (push v s).a = s.a := by
  simp [push]
@[simp] theorem push_x (v : Byte) (s : State) : (push v s).x = s.x := by
  simp [push]
@[simp] theorem push_y (v : Byte) (s : State) : (push v s).y = s.y := by
  simp [push]
@[simp] theorem push_pc (v : Byte) (s : State) : (push v s).pc = s.pc := by
  simp [push]
@[simp] theorem push_p (v : Byte) (s : State) : (push v s).p = s.p := by
  simp [push]
@[simp] theorem push_nmiPending (v : Byte) (s : State) : (push v s).nmiPending = s.nmiPending := by
  simp [push]
@[simp] theorem push_pageCrossed (v : Byte) (s : State) : (push v s).pageCrossed = s.pageCrossed := by
  simp [push]
@[simp] theorem push_extraEligible (v : Byte) (s : State) : (push v s).extraEligible = s.extraEligible := by
  simp [push]
@[simp] theorem push_cycles (v : Byte) (s : State) : (push v s).cycles = s.cycles := by
  simp [push]
@[simp] theorem push_prg (v : Byte) (s : State) : (push v s).prg = s.prg := by
  simp [push]

@[simp] theorem push_sp (v : Byte) (s : State) : (push v s).sp = s.sp - 1 := by
  simp [push]

@[simp] theorem push_devLog (v : Byte) (s : State) : (push v s).devLog = s.devLog := by
  simp [push, memWrite_devLog]

/-- A push writes the RAM cell `SP` designates (R102). -/
theorem push_mem (v : Byte) (s : State) :
    (push v s).mem = s.mem.write (0x0100 + s.sp.toNat) v := by
  simp [push, memWrite_mem]

@[simp] theorem target_push (v : Byte) (s : State) (b : Word) :
    (push v s).target b = s.target b := by
  simp [State.target]

@[simp] theorem flag_push (v : Byte) (s : State) (f : Flag) : (push v s).flag f = s.flag f := by
  simp [State.flag]

/-- What an address holds after a push: the mirrors of the stack cell hold the byte. -/
theorem stored_push (v : Byte) (s : State) (b : Word) :
    (push v s).stored b =
      if s.target b = .ram (0x0100 + s.sp.toNat) then some v else s.stored b := by
  have h : (push v s).stored b = (memWrite (stackAddr s.sp) v s).stored b := rfl
  rw [h, stored_memWrite]
  simp

/-- Everything a pull does: SP goes up, the byte is the stack cell's (R103). -/
theorem pull_eq (s : State) :
    pull s = (s.mem.read (0x0100 + (s.sp + 1).toNat), { s with sp := s.sp + 1 }) :=
  memRead_of_stored (stored_stackAddr { s with sp := s.sp + 1 } (s.sp + 1))


@[simp] theorem pull_a (s : State) : ((pull s).2).a = s.a := by
  simp [pull_eq]
@[simp] theorem pull_x (s : State) : ((pull s).2).x = s.x := by
  simp [pull_eq]
@[simp] theorem pull_y (s : State) : ((pull s).2).y = s.y := by
  simp [pull_eq]
@[simp] theorem pull_pc (s : State) : ((pull s).2).pc = s.pc := by
  simp [pull_eq]
@[simp] theorem pull_p (s : State) : ((pull s).2).p = s.p := by
  simp [pull_eq]
@[simp] theorem pull_nmiPending (s : State) : ((pull s).2).nmiPending = s.nmiPending := by
  simp [pull_eq]
@[simp] theorem pull_pageCrossed (s : State) : ((pull s).2).pageCrossed = s.pageCrossed := by
  simp [pull_eq]
@[simp] theorem pull_extraEligible (s : State) : ((pull s).2).extraEligible = s.extraEligible := by
  simp [pull_eq]
@[simp] theorem pull_cycles (s : State) : ((pull s).2).cycles = s.cycles := by
  simp [pull_eq]
@[simp] theorem pull_mem (s : State) : ((pull s).2).mem = s.mem := by
  simp [pull_eq]
@[simp] theorem pull_prg (s : State) : ((pull s).2).prg = s.prg := by
  simp [pull_eq]
@[simp] theorem pull_devLog (s : State) : ((pull s).2).devLog = s.devLog := by
  simp [pull_eq]

@[simp] theorem pull_sp (s : State) : (pull s).2.sp = s.sp + 1 := by
  simp [pull_eq]

/-- The pulled byte as what the stack cell holds (R103). -/
theorem pull_stored (s : State) : s.stored (stackAddr (s.sp + 1)) = some (pull s).1 := by
  rw [stored_stackAddr, pull_eq]

@[simp] theorem target_pull (s : State) (b : Word) : (pull s).2.target b = s.target b := by
  simp [State.target]

@[simp] theorem stored_pull (s : State) (b : Word) : (pull s).2.stored b = s.stored b := by
  simp [State.stored]

@[simp] theorem flag_pull (s : State) (f : Flag) : (pull s).2.flag f = s.flag f := by
  simp [State.flag]

/-! ### Words on the stack -/

@[simp] theorem pushWord_a (w : Word) (s : State) : (pushWord w s).a = s.a := by
  simp [pushWord]
@[simp] theorem pushWord_x (w : Word) (s : State) : (pushWord w s).x = s.x := by
  simp [pushWord]
@[simp] theorem pushWord_y (w : Word) (s : State) : (pushWord w s).y = s.y := by
  simp [pushWord]
@[simp] theorem pushWord_pc (w : Word) (s : State) : (pushWord w s).pc = s.pc := by
  simp [pushWord]
@[simp] theorem pushWord_p (w : Word) (s : State) : (pushWord w s).p = s.p := by
  simp [pushWord]
@[simp] theorem pushWord_nmiPending (w : Word) (s : State) : (pushWord w s).nmiPending = s.nmiPending := by
  simp [pushWord]
@[simp] theorem pushWord_pageCrossed (w : Word) (s : State) : (pushWord w s).pageCrossed = s.pageCrossed := by
  simp [pushWord]
@[simp] theorem pushWord_extraEligible (w : Word) (s : State) : (pushWord w s).extraEligible = s.extraEligible := by
  simp [pushWord]
@[simp] theorem pushWord_cycles (w : Word) (s : State) : (pushWord w s).cycles = s.cycles := by
  simp [pushWord]
@[simp] theorem pushWord_prg (w : Word) (s : State) : (pushWord w s).prg = s.prg := by
  simp [pushWord]
@[simp] theorem pushWord_devLog (w : Word) (s : State) : (pushWord w s).devLog = s.devLog := by
  simp [pushWord]

@[simp] theorem pushWord_sp (w : Word) (s : State) : (pushWord w s).sp = s.sp - 2 := by
  simp only [pushWord, push_sp]
  bv_omega

@[simp] theorem target_pushWord (w : Word) (s : State) (b : Word) :
    (pushWord w s).target b = s.target b := by
  simp [pushWord]

@[simp] theorem flag_pushWord (w : Word) (s : State) (f : Flag) :
    (pushWord w s).flag f = s.flag f := by
  simp [pushWord]

/-- Everything a word pull does: SP goes up by two, the low byte is pulled first (R134). -/
theorem pullWord_eq (s : State) :
    pullWord s =
      (word16 (s.mem.read (0x0100 + (s.sp + 2).toNat)) (s.mem.read (0x0100 + (s.sp + 1).toNat)),
        { s with sp := s.sp + 2 }) := by
  have h : s.sp + 1#8 + 1#8 = s.sp + 2#8 := by bv_omega
  simp [pullWord, pull_eq, h]

/-! ### Taking an interrupt and returning from one -/

@[simp] theorem takeInterrupt_a (ret : Word) (brk : Bool) (vec : Word) (s : State) : (takeInterrupt ret brk vec s).a = s.a := by
  simp [takeInterrupt]
@[simp] theorem takeInterrupt_x (ret : Word) (brk : Bool) (vec : Word) (s : State) : (takeInterrupt ret brk vec s).x = s.x := by
  simp [takeInterrupt]
@[simp] theorem takeInterrupt_y (ret : Word) (brk : Bool) (vec : Word) (s : State) : (takeInterrupt ret brk vec s).y = s.y := by
  simp [takeInterrupt]
@[simp] theorem takeInterrupt_nmiPending (ret : Word) (brk : Bool) (vec : Word) (s : State) : (takeInterrupt ret brk vec s).nmiPending = s.nmiPending := by
  simp [takeInterrupt]
@[simp] theorem takeInterrupt_pageCrossed (ret : Word) (brk : Bool) (vec : Word) (s : State) : (takeInterrupt ret brk vec s).pageCrossed = s.pageCrossed := by
  simp [takeInterrupt]
@[simp] theorem takeInterrupt_extraEligible (ret : Word) (brk : Bool) (vec : Word) (s : State) : (takeInterrupt ret brk vec s).extraEligible = s.extraEligible := by
  simp [takeInterrupt]
@[simp] theorem takeInterrupt_cycles (ret : Word) (brk : Bool) (vec : Word) (s : State) : (takeInterrupt ret brk vec s).cycles = s.cycles := by
  simp [takeInterrupt]
@[simp] theorem takeInterrupt_prg (ret : Word) (brk : Bool) (vec : Word) (s : State) : (takeInterrupt ret brk vec s).prg = s.prg := by
  simp [takeInterrupt]

/-- SP after an interrupt sequence: three bytes were pushed (R153, R164). -/
@[simp] theorem takeInterrupt_sp (ret : Word) (brk : Bool) (vec : Word) (s : State) :
    (takeInterrupt ret brk vec s).sp = s.sp - 3 := by
  simp only [takeInterrupt, read16_sp, setFlag_sp, push_sp, pushWord_sp]
  bv_omega

/-- The flags after an interrupt sequence: Interrupt-Disable is set, no other bit changes. -/
@[simp] theorem flag_takeInterrupt (ret : Word) (brk : Bool) (vec : Word) (s : State) (f : Flag) :
    (takeInterrupt ret brk vec s).flag f = if f = .i then true else s.flag f := by
  have h : (takeInterrupt ret brk vec s).flag f =
      (setFlag .i true (push (statusForPush brk s.p) (pushWord ret s))).flag f := by
    simp [takeInterrupt, State.flag]
  rw [h]
  simp

@[simp] theorem target_takeInterrupt (ret : Word) (brk : Bool) (vec : Word) (s : State) (b : Word) :
    (takeInterrupt ret brk vec s).target b = s.target b := by
  simp [State.target]

/-- What the addresses hold after an interrupt sequence: the three pushed bytes (R153, R164). -/
theorem stored_takeInterrupt (ret : Word) (brk : Bool) (vec : Word) (s : State) (b : Word) :
    (takeInterrupt ret brk vec s).stored b =
      (push (statusForPush brk s.p) (pushWord ret s)).stored b := by
  simp [takeInterrupt, State.stored, State.target]

/-- The program counter after an interrupt sequence is the vector's word (R153, R164). -/
theorem takeInterrupt_pc (ret : Word) (brk : Bool) (vec : Word) (s : State) :
    (takeInterrupt ret brk vec s).pc =
      (read16 vec (setFlag .i true (push (statusForPush brk s.p) (pushWord ret s)))).1 := rfl

/-- Everything a return from interrupt does (R154). -/
theorem returnFromInterrupt_eq (s : State) :
    returnFromInterrupt s =
      { s with
        p := s.mem.read (0x0100 + (s.sp + 1).toNat)
        pc := word16 (s.mem.read (0x0100 + (s.sp + 3).toNat)) (s.mem.read (0x0100 + (s.sp + 2).toNat))
        sp := s.sp + 3 } := by
  have h1 : s.sp + 1#8 + 1#8 = s.sp + 2#8 := by bv_omega
  have h2 : s.sp + 1#8 + 2#8 = s.sp + 3#8 := by bv_omega
  simp [returnFromInterrupt, pull_eq, pullWord_eq, h1, h2]

/-! ### The end of an instruction -/

/-- Everything the end of an instruction does: it answers a next state, whose cycles have grown by
the base cost, the handler's extra cycles and the page-cross cycle (R80, R84). -/
theorem finishWith_eq (extra : Nat) (i : Instr) (s : State) :
    finishWith extra i s = .next (account (i.baseCycles + extra + pageCrossCycle s) s) := rfl

theorem finish_eq (i : Instr) (s : State) :
    finish i s = .next (account (i.baseCycles + pageCrossCycle s) s) := rfl

/-- The page-cross cycle is at most one (R82). -/
theorem pageCrossCycle_le (s : State) : pageCrossCycle s ≤ 1 := by
  unfold pageCrossCycle; split <;> omega

/-! ### Reset -/

/-- The state after reset is `reset()` applied to the launch state (R181). -/
theorem reset_eq_hostReset : State.reset = hostReset State.reset := by decide

end Sys2Proof.Machine
end

