-- ==== Sys2Proof/Laws/Operands.lean ====
section
/-! SUPPORT. The laws of the resolver and of the accesses through it: what they can change, and the
page-cross flag they leave. -/

namespace Sys2Proof.Machine

/-! ### Indexing -/

@[simp] theorem indexed_a (base : Word) (ix : Byte) (s : State) : ((indexed base ix s).2).a = s.a := by
  simp only [indexed]; split <;> rfl
@[simp] theorem indexed_x (base : Word) (ix : Byte) (s : State) : ((indexed base ix s).2).x = s.x := by
  simp only [indexed]; split <;> rfl
@[simp] theorem indexed_y (base : Word) (ix : Byte) (s : State) : ((indexed base ix s).2).y = s.y := by
  simp only [indexed]; split <;> rfl
@[simp] theorem indexed_sp (base : Word) (ix : Byte) (s : State) : ((indexed base ix s).2).sp = s.sp := by
  simp only [indexed]; split <;> rfl
@[simp] theorem indexed_pc (base : Word) (ix : Byte) (s : State) : ((indexed base ix s).2).pc = s.pc := by
  simp only [indexed]; split <;> rfl
@[simp] theorem indexed_p (base : Word) (ix : Byte) (s : State) : ((indexed base ix s).2).p = s.p := by
  simp only [indexed]; split <;> rfl
@[simp] theorem indexed_nmiPending (base : Word) (ix : Byte) (s : State) : ((indexed base ix s).2).nmiPending = s.nmiPending := by
  simp only [indexed]; split <;> rfl
@[simp] theorem indexed_extraEligible (base : Word) (ix : Byte) (s : State) : ((indexed base ix s).2).extraEligible = s.extraEligible := by
  simp only [indexed]; split <;> rfl
@[simp] theorem indexed_cycles (base : Word) (ix : Byte) (s : State) : ((indexed base ix s).2).cycles = s.cycles := by
  simp only [indexed]; split <;> rfl
@[simp] theorem indexed_mem (base : Word) (ix : Byte) (s : State) : ((indexed base ix s).2).mem = s.mem := by
  simp only [indexed]; split <;> rfl
@[simp] theorem indexed_prg (base : Word) (ix : Byte) (s : State) : ((indexed base ix s).2).prg = s.prg := by
  simp only [indexed]; split <;> rfl
@[simp] theorem indexed_devLog (base : Word) (ix : Byte) (s : State) : ((indexed base ix s).2).devLog = s.devLog := by
  simp only [indexed]; split <;> rfl

theorem zext_toNat (b : Byte) : (zext b).toNat = b.toNat := by
  have := b.isLt
  simp [zext]
  omega

/-- Everything indexing does: the sum modulo 65536, and the page-cross flag set when the high byte
changes and otherwise as before (R74). -/
theorem indexed_eq (base : Word) (ix : Byte) (s : State) :
    indexed base ix s =
      (base + zext ix, { s with pageCrossed := s.pageCrossed || crossesPage base ix }) := by
  have h : hiByte (base + zext ix) = hiByte base ↔
      (base.toNat + ix.toNat) % 65536 / 256 = base.toNat / 256 := by
    rw [← BitVec.toNat_inj, hiByte_toNat, hiByte_toNat]
    simp [BitVec.toNat_add, zext_toNat]
  simp only [indexed, crossesPage, h]
  by_cases hc : (base.toNat + ix.toNat) % 65536 / 256 = base.toNat / 256 <;> simp [hc]

theorem indexed_pageCrossed (base : Word) (ix : Byte) (s : State) :
    (indexed base ix s).2.pageCrossed = (s.pageCrossed || crossesPage base ix) := by
  rw [indexed_eq]

@[simp] theorem target_indexed (base : Word) (ix : Byte) (s : State) (b : Word) :
    (indexed base ix s).2.target b = s.target b := by
  simp [State.target]

/-! ### Pointers -/

@[simp] theorem zeroPagePointer_a (z : Byte) (s : State) : ((zeroPagePointer z s).2).a = s.a := by
  simp [zeroPagePointer]
@[simp] theorem zeroPagePointer_x (z : Byte) (s : State) : ((zeroPagePointer z s).2).x = s.x := by
  simp [zeroPagePointer]
@[simp] theorem zeroPagePointer_y (z : Byte) (s : State) : ((zeroPagePointer z s).2).y = s.y := by
  simp [zeroPagePointer]
@[simp] theorem zeroPagePointer_sp (z : Byte) (s : State) : ((zeroPagePointer z s).2).sp = s.sp := by
  simp [zeroPagePointer]
@[simp] theorem zeroPagePointer_pc (z : Byte) (s : State) : ((zeroPagePointer z s).2).pc = s.pc := by
  simp [zeroPagePointer]
@[simp] theorem zeroPagePointer_p (z : Byte) (s : State) : ((zeroPagePointer z s).2).p = s.p := by
  simp [zeroPagePointer]
@[simp] theorem zeroPagePointer_nmiPending (z : Byte) (s : State) : ((zeroPagePointer z s).2).nmiPending = s.nmiPending := by
  simp [zeroPagePointer]
@[simp] theorem zeroPagePointer_pageCrossed (z : Byte) (s : State) : ((zeroPagePointer z s).2).pageCrossed = s.pageCrossed := by
  simp [zeroPagePointer]
@[simp] theorem zeroPagePointer_extraEligible (z : Byte) (s : State) : ((zeroPagePointer z s).2).extraEligible = s.extraEligible := by
  simp [zeroPagePointer]
@[simp] theorem zeroPagePointer_cycles (z : Byte) (s : State) : ((zeroPagePointer z s).2).cycles = s.cycles := by
  simp [zeroPagePointer]
@[simp] theorem zeroPagePointer_mem (z : Byte) (s : State) : ((zeroPagePointer z s).2).mem = s.mem := by
  simp [zeroPagePointer]
@[simp] theorem zeroPagePointer_prg (z : Byte) (s : State) : ((zeroPagePointer z s).2).prg = s.prg := by
  simp [zeroPagePointer]

@[simp] theorem indirectPointer_a (ptr : Word) (s : State) : ((indirectPointer ptr s).2).a = s.a := by
  simp [indirectPointer]
@[simp] theorem indirectPointer_x (ptr : Word) (s : State) : ((indirectPointer ptr s).2).x = s.x := by
  simp [indirectPointer]
@[simp] theorem indirectPointer_y (ptr : Word) (s : State) : ((indirectPointer ptr s).2).y = s.y := by
  simp [indirectPointer]
@[simp] theorem indirectPointer_sp (ptr : Word) (s : State) : ((indirectPointer ptr s).2).sp = s.sp := by
  simp [indirectPointer]
@[simp] theorem indirectPointer_pc (ptr : Word) (s : State) : ((indirectPointer ptr s).2).pc = s.pc := by
  simp [indirectPointer]
@[simp] theorem indirectPointer_p (ptr : Word) (s : State) : ((indirectPointer ptr s).2).p = s.p := by
  simp [indirectPointer]
@[simp] theorem indirectPointer_nmiPending (ptr : Word) (s : State) : ((indirectPointer ptr s).2).nmiPending = s.nmiPending := by
  simp [indirectPointer]
@[simp] theorem indirectPointer_pageCrossed (ptr : Word) (s : State) : ((indirectPointer ptr s).2).pageCrossed = s.pageCrossed := by
  simp [indirectPointer]
@[simp] theorem indirectPointer_extraEligible (ptr : Word) (s : State) : ((indirectPointer ptr s).2).extraEligible = s.extraEligible := by
  simp [indirectPointer]
@[simp] theorem indirectPointer_cycles (ptr : Word) (s : State) : ((indirectPointer ptr s).2).cycles = s.cycles := by
  simp [indirectPointer]
@[simp] theorem indirectPointer_mem (ptr : Word) (s : State) : ((indirectPointer ptr s).2).mem = s.mem := by
  simp [indirectPointer]
@[simp] theorem indirectPointer_prg (ptr : Word) (s : State) : ((indirectPointer ptr s).2).prg = s.prg := by
  simp [indirectPointer]

/-- Page zero is RAM (R35). -/
theorem stored_zext (s : State) (z : Byte) : s.stored (zext z) = some (s.mem.read z.toNat) := by
  have := z.isLt
  simp only [State.stored, State.target, route, zext_toNat]
  rw [if_pos (by omega), Nat.mod_eq_of_lt (by omega)]

/-- Everything a page-zero pointer fetch does: both bytes come from page zero and no collaborator is
accessed (R77, R78). -/
theorem zeroPagePointer_eq (z : Byte) (s : State) :
    zeroPagePointer z s = (word16 (s.mem.read (z + 1).toNat) (s.mem.read z.toNat), s) := by
  unfold zeroPagePointer
  rw [memRead_of_stored (stored_zext s z)]
  dsimp only
  rw [memRead_of_stored (stored_zext s (z + 1))]

/-! ### The resolver -/

@[simp] theorem resolve_a (m : MemOperand) (s : State) : ((resolve m s).2).a = s.a := by
  cases m <;> simp [resolve, zeroPagePointer_eq]
@[simp] theorem resolve_x (m : MemOperand) (s : State) : ((resolve m s).2).x = s.x := by
  cases m <;> simp [resolve, zeroPagePointer_eq]
@[simp] theorem resolve_y (m : MemOperand) (s : State) : ((resolve m s).2).y = s.y := by
  cases m <;> simp [resolve, zeroPagePointer_eq]
@[simp] theorem resolve_sp (m : MemOperand) (s : State) : ((resolve m s).2).sp = s.sp := by
  cases m <;> simp [resolve, zeroPagePointer_eq]
@[simp] theorem resolve_pc (m : MemOperand) (s : State) : ((resolve m s).2).pc = s.pc := by
  cases m <;> simp [resolve, zeroPagePointer_eq]
@[simp] theorem resolve_p (m : MemOperand) (s : State) : ((resolve m s).2).p = s.p := by
  cases m <;> simp [resolve, zeroPagePointer_eq]
@[simp] theorem resolve_nmiPending (m : MemOperand) (s : State) : ((resolve m s).2).nmiPending = s.nmiPending := by
  cases m <;> simp [resolve, zeroPagePointer_eq]
@[simp] theorem resolve_extraEligible (m : MemOperand) (s : State) : ((resolve m s).2).extraEligible = s.extraEligible := by
  cases m <;> simp [resolve, zeroPagePointer_eq]
@[simp] theorem resolve_cycles (m : MemOperand) (s : State) : ((resolve m s).2).cycles = s.cycles := by
  cases m <;> simp [resolve, zeroPagePointer_eq]
@[simp] theorem resolve_mem (m : MemOperand) (s : State) : ((resolve m s).2).mem = s.mem := by
  cases m <;> simp [resolve, zeroPagePointer_eq]
@[simp] theorem resolve_prg (m : MemOperand) (s : State) : ((resolve m s).2).prg = s.prg := by
  cases m <;> simp [resolve, zeroPagePointer_eq]
@[simp] theorem resolve_devLog (m : MemOperand) (s : State) : ((resolve m s).2).devLog = s.devLog := by
  cases m <;> simp [resolve, zeroPagePointer_eq]

/-- The page-cross flag after the resolver (R66). -/
theorem resolve_pageCrossed (m : MemOperand) (s : State) :
    (resolve m s).2.pageCrossed = (s.pageCrossed || memCrosses m s) := by
  cases m <;> simp [resolve, memCrosses, zeroPagePointer_eq, indexed_pageCrossed]

@[simp] theorem target_resolve (m : MemOperand) (s : State) (b : Word) :
    (resolve m s).2.target b = s.target b := by
  simp [State.target]

@[simp] theorem stored_resolve (m : MemOperand) (s : State) (b : Word) :
    (resolve m s).2.stored b = s.stored b := by
  simp [State.stored]

@[simp] theorem flag_resolve (m : MemOperand) (s : State) (f : Flag) :
    (resolve m s).2.flag f = s.flag f := by
  simp [State.flag]

/-- The resolver changes nothing but the page-cross flag (R66). -/
theorem resolve_eq (m : MemOperand) (s : State) :
    (resolve m s).2 = { s with pageCrossed := s.pageCrossed || memCrosses m s } := by
  cases m <;> simp [resolve, memCrosses, zeroPagePointer_eq, indexed_eq]

/-! ### Reads through an operand -/

@[simp] theorem readMem_a (m : MemOperand) (s : State) : ((readMem m s).2).a = s.a := by
  simp [readMem]
@[simp] theorem readMem_x (m : MemOperand) (s : State) : ((readMem m s).2).x = s.x := by
  simp [readMem]
@[simp] theorem readMem_y (m : MemOperand) (s : State) : ((readMem m s).2).y = s.y := by
  simp [readMem]
@[simp] theorem readMem_sp (m : MemOperand) (s : State) : ((readMem m s).2).sp = s.sp := by
  simp [readMem]
@[simp] theorem readMem_pc (m : MemOperand) (s : State) : ((readMem m s).2).pc = s.pc := by
  simp [readMem]
@[simp] theorem readMem_p (m : MemOperand) (s : State) : ((readMem m s).2).p = s.p := by
  simp [readMem]
@[simp] theorem readMem_nmiPending (m : MemOperand) (s : State) : ((readMem m s).2).nmiPending = s.nmiPending := by
  simp [readMem]
@[simp] theorem readMem_extraEligible (m : MemOperand) (s : State) : ((readMem m s).2).extraEligible = s.extraEligible := by
  simp [readMem]
@[simp] theorem readMem_cycles (m : MemOperand) (s : State) : ((readMem m s).2).cycles = s.cycles := by
  simp [readMem]
@[simp] theorem readMem_mem (m : MemOperand) (s : State) : ((readMem m s).2).mem = s.mem := by
  simp [readMem]
@[simp] theorem readMem_prg (m : MemOperand) (s : State) : ((readMem m s).2).prg = s.prg := by
  simp [readMem]

@[simp] theorem readData_a (o : DataOperand) (s : State) : ((readData o s).2).a = s.a := by
  cases o <;> simp [readData]
@[simp] theorem readData_x (o : DataOperand) (s : State) : ((readData o s).2).x = s.x := by
  cases o <;> simp [readData]
@[simp] theorem readData_y (o : DataOperand) (s : State) : ((readData o s).2).y = s.y := by
  cases o <;> simp [readData]
@[simp] theorem readData_sp (o : DataOperand) (s : State) : ((readData o s).2).sp = s.sp := by
  cases o <;> simp [readData]
@[simp] theorem readData_pc (o : DataOperand) (s : State) : ((readData o s).2).pc = s.pc := by
  cases o <;> simp [readData]
@[simp] theorem readData_p (o : DataOperand) (s : State) : ((readData o s).2).p = s.p := by
  cases o <;> simp [readData]
@[simp] theorem readData_nmiPending (o : DataOperand) (s : State) : ((readData o s).2).nmiPending = s.nmiPending := by
  cases o <;> simp [readData]
@[simp] theorem readData_extraEligible (o : DataOperand) (s : State) : ((readData o s).2).extraEligible = s.extraEligible := by
  cases o <;> simp [readData]
@[simp] theorem readData_cycles (o : DataOperand) (s : State) : ((readData o s).2).cycles = s.cycles := by
  cases o <;> simp [readData]
@[simp] theorem readData_mem (o : DataOperand) (s : State) : ((readData o s).2).mem = s.mem := by
  cases o <;> simp [readData]
@[simp] theorem readData_prg (o : DataOperand) (s : State) : ((readData o s).2).prg = s.prg := by
  cases o <;> simp [readData]

/-- The page-cross flag after an operand read. -/
theorem readMem_pageCrossed (m : MemOperand) (s : State) :
    (readMem m s).2.pageCrossed = (s.pageCrossed || memCrosses m s) := by
  simp [readMem, resolve_pageCrossed]

theorem readData_pageCrossed (o : DataOperand) (s : State) :
    (readData o s).2.pageCrossed = (s.pageCrossed || dataCrosses o s) := by
  cases o <;> simp [readData, dataCrosses, readMem_pageCrossed]

@[simp] theorem stored_readMem (m : MemOperand) (s : State) (b : Word) :
    (readMem m s).2.stored b = s.stored b := by
  simp [State.stored, State.target]

@[simp] theorem stored_readData (o : DataOperand) (s : State) (b : Word) :
    (readData o s).2.stored b = s.stored b := by
  simp [State.stored, State.target]

@[simp] theorem flag_readMem (m : MemOperand) (s : State) (f : Flag) :
    (readMem m s).2.flag f = s.flag f := by
  simp [State.flag]

@[simp] theorem flag_readData (o : DataOperand) (s : State) (f : Flag) :
    (readData o s).2.flag f = s.flag f := by
  simp [State.flag]

/-! ### Writes through an operand -/

@[simp] theorem writeMem_a (m : MemOperand) (v : Byte) (s : State) : (writeMem m v s).a = s.a := by
  simp [writeMem]
@[simp] theorem writeMem_x (m : MemOperand) (v : Byte) (s : State) : (writeMem m v s).x = s.x := by
  simp [writeMem]
@[simp] theorem writeMem_y (m : MemOperand) (v : Byte) (s : State) : (writeMem m v s).y = s.y := by
  simp [writeMem]
@[simp] theorem writeMem_sp (m : MemOperand) (v : Byte) (s : State) : (writeMem m v s).sp = s.sp := by
  simp [writeMem]
@[simp] theorem writeMem_pc (m : MemOperand) (v : Byte) (s : State) : (writeMem m v s).pc = s.pc := by
  simp [writeMem]
@[simp] theorem writeMem_p (m : MemOperand) (v : Byte) (s : State) : (writeMem m v s).p = s.p := by
  simp [writeMem]
@[simp] theorem writeMem_nmiPending (m : MemOperand) (v : Byte) (s : State) : (writeMem m v s).nmiPending = s.nmiPending := by
  simp [writeMem]
@[simp] theorem writeMem_extraEligible (m : MemOperand) (v : Byte) (s : State) : (writeMem m v s).extraEligible = s.extraEligible := by
  simp [writeMem]
@[simp] theorem writeMem_cycles (m : MemOperand) (v : Byte) (s : State) : (writeMem m v s).cycles = s.cycles := by
  simp [writeMem]
@[simp] theorem writeMem_prg (m : MemOperand) (v : Byte) (s : State) : (writeMem m v s).prg = s.prg := by
  simp [writeMem]

@[simp] theorem modifyMem_a (f : Byte → Byte) (m : MemOperand) (s : State) : ((modifyMem f m s).2).a = s.a := by
  simp [modifyMem]
@[simp] theorem modifyMem_x (f : Byte → Byte) (m : MemOperand) (s : State) : ((modifyMem f m s).2).x = s.x := by
  simp [modifyMem]
@[simp] theorem modifyMem_y (f : Byte → Byte) (m : MemOperand) (s : State) : ((modifyMem f m s).2).y = s.y := by
  simp [modifyMem]
@[simp] theorem modifyMem_sp (f : Byte → Byte) (m : MemOperand) (s : State) : ((modifyMem f m s).2).sp = s.sp := by
  simp [modifyMem]
@[simp] theorem modifyMem_pc (f : Byte → Byte) (m : MemOperand) (s : State) : ((modifyMem f m s).2).pc = s.pc := by
  simp [modifyMem]
@[simp] theorem modifyMem_p (f : Byte → Byte) (m : MemOperand) (s : State) : ((modifyMem f m s).2).p = s.p := by
  simp [modifyMem]
@[simp] theorem modifyMem_nmiPending (f : Byte → Byte) (m : MemOperand) (s : State) : ((modifyMem f m s).2).nmiPending = s.nmiPending := by
  simp [modifyMem]
@[simp] theorem modifyMem_extraEligible (f : Byte → Byte) (m : MemOperand) (s : State) : ((modifyMem f m s).2).extraEligible = s.extraEligible := by
  simp [modifyMem]
@[simp] theorem modifyMem_cycles (f : Byte → Byte) (m : MemOperand) (s : State) : ((modifyMem f m s).2).cycles = s.cycles := by
  simp [modifyMem]
@[simp] theorem modifyMem_prg (f : Byte → Byte) (m : MemOperand) (s : State) : ((modifyMem f m s).2).prg = s.prg := by
  simp [modifyMem]

theorem writeMem_pageCrossed (m : MemOperand) (v : Byte) (s : State) :
    (writeMem m v s).pageCrossed = (s.pageCrossed || memCrosses m s) := by
  simp [writeMem, resolve_pageCrossed]

theorem modifyMem_pageCrossed (f : Byte → Byte) (m : MemOperand) (s : State) :
    (modifyMem f m s).2.pageCrossed = (s.pageCrossed || memCrosses m s) := by
  simp [modifyMem, resolve_pageCrossed]

@[simp] theorem flag_writeMem (m : MemOperand) (v : Byte) (s : State) (f : Flag) :
    (writeMem m v s).flag f = s.flag f := by
  simp [State.flag]

@[simp] theorem flag_modifyMem (g : Byte → Byte) (m : MemOperand) (s : State) (f : Flag) :
    (modifyMem g m s).2.flag f = s.flag f := by
  simp [State.flag]

/-- What an address holds after a write through an operand. -/
theorem stored_writeMem (m : MemOperand) (v : Byte) (s : State) (b : Word) :
    (writeMem m v s).stored b =
      if s.target b = s.target (resolve m s).1 ∧ (s.target (resolve m s).1).isRam = true then some v
      else s.stored b := by
  simp [writeMem, stored_memWrite]

/-- What an address holds after a read and a write through an operand. -/
theorem stored_modifyMem (f : Byte → Byte) (m : MemOperand) (s : State) (b : Word) :
    (modifyMem f m s).2.stored b =
      if s.target b = s.target (resolve m s).1 ∧ (s.target (resolve m s).1).isRam = true then
        some (f (readMem m s).1)
      else s.stored b := by
  simp [modifyMem, readMem, stored_memWrite]

/-- The byte a read-modify-write gives back. -/
theorem modifyMem_fst (f : Byte → Byte) (m : MemOperand) (s : State) :
    (modifyMem f m s).1 = f (readMem m s).1 := rfl

end Sys2Proof.Machine
end

