-- ==== Sys2Proof/Laws/Exec.lean ====
section
/-! SUPPORT. The laws of the operations that the shift, jump and branch families share. -/

namespace Sys2Proof.Machine

/-! ### Jump targets -/

@[simp] theorem resolveJump_a (j : JumpOperand) (s : State) : ((resolveJump j s).2).a = s.a := by
  cases j <;> simp [resolveJump]
@[simp] theorem resolveJump_x (j : JumpOperand) (s : State) : ((resolveJump j s).2).x = s.x := by
  cases j <;> simp [resolveJump]
@[simp] theorem resolveJump_y (j : JumpOperand) (s : State) : ((resolveJump j s).2).y = s.y := by
  cases j <;> simp [resolveJump]
@[simp] theorem resolveJump_sp (j : JumpOperand) (s : State) : ((resolveJump j s).2).sp = s.sp := by
  cases j <;> simp [resolveJump]
@[simp] theorem resolveJump_pc (j : JumpOperand) (s : State) : ((resolveJump j s).2).pc = s.pc := by
  cases j <;> simp [resolveJump]
@[simp] theorem resolveJump_p (j : JumpOperand) (s : State) : ((resolveJump j s).2).p = s.p := by
  cases j <;> simp [resolveJump]
@[simp] theorem resolveJump_nmiPending (j : JumpOperand) (s : State) : ((resolveJump j s).2).nmiPending = s.nmiPending := by
  cases j <;> simp [resolveJump]
@[simp] theorem resolveJump_pageCrossed (j : JumpOperand) (s : State) : ((resolveJump j s).2).pageCrossed = s.pageCrossed := by
  cases j <;> simp [resolveJump]
@[simp] theorem resolveJump_extraEligible (j : JumpOperand) (s : State) : ((resolveJump j s).2).extraEligible = s.extraEligible := by
  cases j <;> simp [resolveJump]
@[simp] theorem resolveJump_cycles (j : JumpOperand) (s : State) : ((resolveJump j s).2).cycles = s.cycles := by
  cases j <;> simp [resolveJump]
@[simp] theorem resolveJump_mem (j : JumpOperand) (s : State) : ((resolveJump j s).2).mem = s.mem := by
  cases j <;> simp [resolveJump]
@[simp] theorem resolveJump_prg (j : JumpOperand) (s : State) : ((resolveJump j s).2).prg = s.prg := by
  cases j <;> simp [resolveJump]

@[simp] theorem stored_resolveJump (j : JumpOperand) (s : State) (b : Word) :
    (resolveJump j s).2.stored b = s.stored b := by
  simp [State.stored, State.target]

@[simp] theorem flag_resolveJump (j : JumpOperand) (s : State) (f : Flag) :
    (resolveJump j s).2.flag f = s.flag f := by
  simp [State.flag]

/-! ### Branches -/

/-- Everything a branch does: PC takes the target if the condition holds, and the cycles follow (R135). -/
theorem branch_eq (cond : Bool) (i : Instr) (off : Byte) (s : State) :
    branch cond i off s =
      .next (account
        (i.baseCycles + (if cond then takenCycles s.pc (branchTarget s.pc off) else 0) +
          pageCrossCycle s)
        { s with pc := if cond then branchTarget s.pc off else s.pc }) := by
  cases cond <;> rfl

/-! ### Shifts and rotates -/

@[simp] theorem shiftOp_x (f : Byte → Bool → Byte × Bool) (o : ShiftOperand) (s : State) : (shiftOp f o s).x = s.x := by
  cases o <;> simp [shiftOp]
@[simp] theorem shiftOp_y (f : Byte → Bool → Byte × Bool) (o : ShiftOperand) (s : State) : (shiftOp f o s).y = s.y := by
  cases o <;> simp [shiftOp]
@[simp] theorem shiftOp_sp (f : Byte → Bool → Byte × Bool) (o : ShiftOperand) (s : State) : (shiftOp f o s).sp = s.sp := by
  cases o <;> simp [shiftOp]
@[simp] theorem shiftOp_pc (f : Byte → Bool → Byte × Bool) (o : ShiftOperand) (s : State) : (shiftOp f o s).pc = s.pc := by
  cases o <;> simp [shiftOp]
@[simp] theorem shiftOp_nmiPending (f : Byte → Bool → Byte × Bool) (o : ShiftOperand) (s : State) : (shiftOp f o s).nmiPending = s.nmiPending := by
  cases o <;> simp [shiftOp]
@[simp] theorem shiftOp_extraEligible (f : Byte → Bool → Byte × Bool) (o : ShiftOperand) (s : State) : (shiftOp f o s).extraEligible = s.extraEligible := by
  cases o <;> simp [shiftOp]
@[simp] theorem shiftOp_cycles (f : Byte → Bool → Byte × Bool) (o : ShiftOperand) (s : State) : (shiftOp f o s).cycles = s.cycles := by
  cases o <;> simp [shiftOp]
@[simp] theorem shiftOp_prg (f : Byte → Bool → Byte × Bool) (o : ShiftOperand) (s : State) : (shiftOp f o s).prg = s.prg := by
  cases o <;> simp [shiftOp]

/-- The accumulator changes in Accumulator mode only (R126). -/
theorem shiftOp_a (f : Byte → Bool → Byte × Bool) (o : ShiftOperand) (s : State) :
    (shiftOp f o s).a =
      match o with
      | .acc => (f s.a (s.flag .c)).1
      | .mem _ => s.a := by
  cases o <;> simp [shiftOp]

/-- A shift writes Carry, Zero and Negative only (R126). -/
theorem flag_shiftOp (f : Byte → Bool → Byte × Bool) (o : ShiftOperand) (s : State) (g : Flag)
    (hc : g ≠ .c) (hz : g ≠ .z) (hn : g ≠ .n) : (shiftOp f o s).flag g = s.flag g := by
  cases o with
  | acc =>
    simp only [shiftOp, flag_setZN, flag_setFlag, hc, hz, hn, if_false]
    rfl
  | mem m => simp [shiftOp, hc, hz, hn]

/-- What an address holds after a shift in Accumulator mode. -/
@[simp] theorem stored_shiftOp_acc (f : Byte → Bool → Byte × Bool) (s : State) (b : Word) :
    (shiftOp f .acc s).stored b = s.stored b := by
  simp [shiftOp, State.stored, State.target]

/-- What an address holds after a shift in memory. -/
theorem stored_shiftOp_mem (f : Byte → Bool → Byte × Bool) (m : MemOperand) (s : State) (b : Word) :
    (shiftOp f (.mem m) s).stored b =
      if s.target b = s.target (resolve m s).1 ∧ (s.target (resolve m s).1).isRam = true then
        some (f (readMem m s).1 (s.flag .c)).1
      else s.stored b := by
  have h : ∀ v r c u, (setZN v (setFlag .c c (memWrite (resolve m s).1 r u))).stored b =
      (memWrite (resolve m s).1 r u).stored b := fun _ _ _ _ => rfl
  simp only [shiftOp, h, stored_memWrite]
  simp [readMem]

/-! ### One equation per instruction: the state its meaning leaves, and the end of the step -/

/-- The end of an instruction on the state `u` its handler left, with the handler's extra cycles. -/
def ended (i : Instr) (extra : Nat) (u : State) : Out :=
  .next (account (i.baseCycles + extra + pageCrossCycle u) u)

theorem ended_inj {i : Instr} {n : Nat} {u t : State} (h : ended i n u = .next t) :
    t = account (i.baseCycles + n + pageCrossCycle u) u :=
  (Host.Outcome.next.inj h).symm

theorem exec_lda (o : DataOperand) (s : State) :
    exec (.lda o) s =
      ended (.lda o) 0
        (markEligible (setZN (readData o s).1 { (readData o s).2 with a := (readData o s).1 })) := rfl

theorem exec_ldx (o : DataOperand) (s : State) :
    exec (.ldx o) s =
      ended (.ldx o) 0
        (markEligible (setZN (readData o s).1 { (readData o s).2 with x := (readData o s).1 })) := rfl

theorem exec_ldy (o : DataOperand) (s : State) :
    exec (.ldy o) s =
      ended (.ldy o) 0
        (markEligible (setZN (readData o s).1 { (readData o s).2 with y := (readData o s).1 })) := rfl

theorem exec_sta (m : MemOperand) (s : State) :
    exec (.sta m) s =
      ended (.sta m) 0
        (writeMem m s.a s) := rfl

theorem exec_stx (m : MemOperand) (s : State) :
    exec (.stx m) s =
      ended (.stx m) 0
        (writeMem m s.x s) := rfl

theorem exec_sty (m : MemOperand) (s : State) :
    exec (.sty m) s =
      ended (.sty m) 0
        (writeMem m s.y s) := rfl

theorem exec_tax (s : State) :
    exec .tax s =
      ended .tax 0
        (setZN s.a { s with x := s.a }) := rfl

theorem exec_tay (s : State) :
    exec .tay s =
      ended .tay 0
        (setZN s.a { s with y := s.a }) := rfl

theorem exec_txa (s : State) :
    exec .txa s =
      ended .txa 0
        (setZN s.x { s with a := s.x }) := rfl

theorem exec_tya (s : State) :
    exec .tya s =
      ended .tya 0
        (setZN s.y { s with a := s.y }) := rfl

theorem exec_tsx (s : State) :
    exec .tsx s =
      ended .tsx 0
        (setZN s.sp { s with x := s.sp }) := rfl

theorem exec_txs (s : State) :
    exec .txs s =
      ended .txs 0
        { s with sp := s.x } := rfl

theorem exec_pha (s : State) :
    exec .pha s =
      ended .pha 0
        (push s.a s) := rfl

theorem exec_php (s : State) :
    exec .php s =
      ended .php 0
        (push (statusForPush true s.p) s) := rfl

theorem exec_pla (s : State) :
    exec .pla s =
      ended .pla 0
        (setZN (pull s).1 { (pull s).2 with a := (pull s).1 }) := rfl

theorem exec_plp (s : State) :
    exec .plp s =
      ended .plp 0
        { (pull s).2 with p := (pull s).1 } := rfl

theorem exec_and (o : DataOperand) (s : State) :
    exec (.and o) s =
      ended (.and o) 0
        (markEligible (setZN ((readData o s).2.a &&& (readData o s).1) { (readData o s).2 with a := (readData o s).2.a &&& (readData o s).1 })) := rfl

theorem exec_eor (o : DataOperand) (s : State) :
    exec (.eor o) s =
      ended (.eor o) 0
        (markEligible (setZN ((readData o s).2.a ^^^ (readData o s).1) { (readData o s).2 with a := (readData o s).2.a ^^^ (readData o s).1 })) := rfl

theorem exec_ora (o : DataOperand) (s : State) :
    exec (.ora o) s =
      ended (.ora o) 0
        (markEligible (setZN ((readData o s).2.a ||| (readData o s).1) { (readData o s).2 with a := (readData o s).2.a ||| (readData o s).1 })) := rfl

theorem exec_bit (m : MemOperand) (s : State) :
    exec (.bit m) s =
      ended (.bit m) 0
        (bitFlags (readMem m s).1 (readMem m s).2) := rfl

theorem exec_adc (o : DataOperand) (s : State) :
    exec (.adc o) s =
      ended (.adc o) 0
        (markEligible (addCore (readData o s).1 (readData o s).2)) := rfl

theorem exec_sbc (o : DataOperand) (s : State) :
    exec (.sbc o) s =
      ended (.sbc o) 0
        (markEligible (addCore (~~~(readData o s).1) (readData o s).2)) := rfl

theorem exec_cmp (o : DataOperand) (s : State) :
    exec (.cmp o) s =
      ended (.cmp o) 0
        (markEligible (compareFlags (readData o s).2.a (readData o s).1 (readData o s).2)) := rfl

theorem exec_cpx (o : DataOperand) (s : State) :
    exec (.cpx o) s =
      ended (.cpx o) 0
        (compareFlags (readData o s).2.x (readData o s).1 (readData o s).2) := rfl

theorem exec_cpy (o : DataOperand) (s : State) :
    exec (.cpy o) s =
      ended (.cpy o) 0
        (compareFlags (readData o s).2.y (readData o s).1 (readData o s).2) := rfl

theorem exec_inc (m : MemOperand) (s : State) :
    exec (.inc m) s =
      ended (.inc m) 0
        (setZN (modifyMem (fun b => b + 1) m s).1 (modifyMem (fun b => b + 1) m s).2) := rfl

theorem exec_dec (m : MemOperand) (s : State) :
    exec (.dec m) s =
      ended (.dec m) 0
        (setZN (modifyMem (fun b => b - 1) m s).1 (modifyMem (fun b => b - 1) m s).2) := rfl

theorem exec_inx (s : State) :
    exec .inx s =
      ended .inx 0
        (setZN (s.x + 1) { s with x := s.x + 1 }) := rfl

theorem exec_iny (s : State) :
    exec .iny s =
      ended .iny 0
        (setZN (s.y + 1) { s with y := s.y + 1 }) := rfl

theorem exec_dex (s : State) :
    exec .dex s =
      ended .dex 0
        (setZN (s.x - 1) { s with x := s.x - 1 }) := rfl

theorem exec_dey (s : State) :
    exec .dey s =
      ended .dey 0
        (setZN (s.y - 1) { s with y := s.y - 1 }) := rfl

theorem exec_asl (o : ShiftOperand) (s : State) :
    exec (.asl o) s =
      ended (.asl o) 0
        (shiftOp aslByte o s) := rfl

theorem exec_lsr (o : ShiftOperand) (s : State) :
    exec (.lsr o) s =
      ended (.lsr o) 0
        (shiftOp lsrByte o s) := rfl

theorem exec_rol (o : ShiftOperand) (s : State) :
    exec (.rol o) s =
      ended (.rol o) 0
        (shiftOp rolByte o s) := rfl

theorem exec_ror (o : ShiftOperand) (s : State) :
    exec (.ror o) s =
      ended (.ror o) 0
        (shiftOp rorByte o s) := rfl

theorem exec_jmp (t : JumpOperand) (s : State) :
    exec (.jmp t) s =
      ended (.jmp t) 0
        { (resolveJump t s).2 with pc := (resolveJump t s).1 } := rfl

theorem exec_jsr (a : Word) (s : State) :
    exec (.jsr a) s =
      ended (.jsr a) 0
        { pushWord (s.pc - 1) s with pc := a } := rfl

theorem exec_rts (s : State) :
    exec .rts s =
      ended .rts 0
        { (pullWord s).2 with pc := (pullWord s).1 + 1 } := rfl

theorem exec_bcc (off : Byte) (s : State) :
    exec (.bcc off) s =
      ended (.bcc off) (if !s.flag .c then takenCycles s.pc (branchTarget s.pc off) else 0)
        { s with pc := if !s.flag .c then branchTarget s.pc off else s.pc } := branch_eq _ _ _ _

theorem exec_bcs (off : Byte) (s : State) :
    exec (.bcs off) s =
      ended (.bcs off) (if s.flag .c then takenCycles s.pc (branchTarget s.pc off) else 0)
        { s with pc := if s.flag .c then branchTarget s.pc off else s.pc } := branch_eq _ _ _ _

theorem exec_beq (off : Byte) (s : State) :
    exec (.beq off) s =
      ended (.beq off) (if s.flag .z then takenCycles s.pc (branchTarget s.pc off) else 0)
        { s with pc := if s.flag .z then branchTarget s.pc off else s.pc } := branch_eq _ _ _ _

theorem exec_bne (off : Byte) (s : State) :
    exec (.bne off) s =
      ended (.bne off) (if !s.flag .z then takenCycles s.pc (branchTarget s.pc off) else 0)
        { s with pc := if !s.flag .z then branchTarget s.pc off else s.pc } := branch_eq _ _ _ _

theorem exec_bmi (off : Byte) (s : State) :
    exec (.bmi off) s =
      ended (.bmi off) (if s.flag .n then takenCycles s.pc (branchTarget s.pc off) else 0)
        { s with pc := if s.flag .n then branchTarget s.pc off else s.pc } := branch_eq _ _ _ _

theorem exec_bpl (off : Byte) (s : State) :
    exec (.bpl off) s =
      ended (.bpl off) (if !s.flag .n then takenCycles s.pc (branchTarget s.pc off) else 0)
        { s with pc := if !s.flag .n then branchTarget s.pc off else s.pc } := branch_eq _ _ _ _

theorem exec_bvc (off : Byte) (s : State) :
    exec (.bvc off) s =
      ended (.bvc off) (if !s.flag .v then takenCycles s.pc (branchTarget s.pc off) else 0)
        { s with pc := if !s.flag .v then branchTarget s.pc off else s.pc } := branch_eq _ _ _ _

theorem exec_bvs (off : Byte) (s : State) :
    exec (.bvs off) s =
      ended (.bvs off) (if s.flag .v then takenCycles s.pc (branchTarget s.pc off) else 0)
        { s with pc := if s.flag .v then branchTarget s.pc off else s.pc } := branch_eq _ _ _ _

theorem exec_clc (s : State) :
    exec .clc s =
      ended .clc 0
        (setFlag .c false s) := rfl

theorem exec_cld (s : State) :
    exec .cld s =
      ended .cld 0
        (setFlag .d false s) := rfl

theorem exec_cli (s : State) :
    exec .cli s =
      ended .cli 0
        (setFlag .i false s) := rfl

theorem exec_clv (s : State) :
    exec .clv s =
      ended .clv 0
        (setFlag .v false s) := rfl

theorem exec_sec (s : State) :
    exec .sec s =
      ended .sec 0
        (setFlag .c true s) := rfl

theorem exec_sed (s : State) :
    exec .sed s =
      ended .sed 0
        (setFlag .d true s) := rfl

theorem exec_sei (s : State) :
    exec .sei s =
      ended .sei 0
        (setFlag .i true s) := rfl

theorem exec_brk (s : State) :
    exec .brk s =
      ended .brk 0
        (takeInterrupt (s.pc + 1) true brkVector s) := rfl

theorem exec_rti (s : State) :
    exec .rti s =
      ended .rti 0
        (returnFromInterrupt s) := rfl

theorem exec_nop (s : State) :
    exec .nop s =
      ended .nop 0
        s := rfl

theorem exec_ill (op : Byte) (s : State) :
    exec (.ill op) s =
      ended (.ill op) 0
        s := rfl

end Sys2Proof.Machine
end

