-- ==== Sys2Proof/Laws/PerInstr.lean ====
section
/-! SUPPORT. The family `OpcodeRow`, one lemma per constructor of `Instr`: a well-formed instruction
has a row of the opcode table, whose mnemonic and mode are its own and which the lookup finds by its
opcode (`30_encoding.md` R54, R55). -/

namespace Sys2Proof.Laws.OpcodeRow

/-- What the family says of an instruction. -/
def Statement (i : Instr) : Prop :=
  WellFormed i →
    ∃ r, i.row? = some r ∧ r.mnemonic = i.mnemonic ∧ r.mode = i.mode ∧ lookup r.opcode = r

/-- How a row found in the table meets the statement. -/
theorem of_row {i : Instr} (r : Row) (h : i.row? = some r) (hm : r.mnemonic = i.mnemonic)
    (ha : r.mode = i.mode) (hl : lookup r.opcode = r) : Statement i :=
  fun _ => ⟨r, h, hm, ha, hl⟩

theorem lda (o : DataOperand) : Statement (.lda o) := by
  cases o with
  | imm _ => exact of_row ⟨0xA9, .lda, .imm, 2⟩ rfl rfl rfl rfl
  | mem m =>
    cases m with
    | zp _ => exact of_row ⟨0xA5, .lda, .zp, 3⟩ rfl rfl rfl rfl
    | zpx _ => exact of_row ⟨0xB5, .lda, .zpx, 4⟩ rfl rfl rfl rfl
    | zpy _ => exact fun h => nomatch h
    | abs _ => exact of_row ⟨0xAD, .lda, .abs, 4⟩ rfl rfl rfl rfl
    | abx _ => exact of_row ⟨0xBD, .lda, .abx, 4⟩ rfl rfl rfl rfl
    | aby _ => exact of_row ⟨0xB9, .lda, .aby, 4⟩ rfl rfl rfl rfl
    | izx _ => exact of_row ⟨0xA1, .lda, .izx, 6⟩ rfl rfl rfl rfl
    | izy _ => exact of_row ⟨0xB1, .lda, .izy, 5⟩ rfl rfl rfl rfl

theorem ldx (o : DataOperand) : Statement (.ldx o) := by
  cases o with
  | imm _ => exact of_row ⟨0xA2, .ldx, .imm, 2⟩ rfl rfl rfl rfl
  | mem m =>
    cases m with
    | zp _ => exact of_row ⟨0xA6, .ldx, .zp, 3⟩ rfl rfl rfl rfl
    | zpx _ => exact fun h => nomatch h
    | zpy _ => exact of_row ⟨0xB6, .ldx, .zpy, 4⟩ rfl rfl rfl rfl
    | abs _ => exact of_row ⟨0xAE, .ldx, .abs, 4⟩ rfl rfl rfl rfl
    | abx _ => exact fun h => nomatch h
    | aby _ => exact of_row ⟨0xBE, .ldx, .aby, 4⟩ rfl rfl rfl rfl
    | izx _ => exact fun h => nomatch h
    | izy _ => exact fun h => nomatch h

theorem ldy (o : DataOperand) : Statement (.ldy o) := by
  cases o with
  | imm _ => exact of_row ⟨0xA0, .ldy, .imm, 2⟩ rfl rfl rfl rfl
  | mem m =>
    cases m with
    | zp _ => exact of_row ⟨0xA4, .ldy, .zp, 3⟩ rfl rfl rfl rfl
    | zpx _ => exact of_row ⟨0xB4, .ldy, .zpx, 4⟩ rfl rfl rfl rfl
    | zpy _ => exact fun h => nomatch h
    | abs _ => exact of_row ⟨0xAC, .ldy, .abs, 4⟩ rfl rfl rfl rfl
    | abx _ => exact of_row ⟨0xBC, .ldy, .abx, 4⟩ rfl rfl rfl rfl
    | aby _ => exact fun h => nomatch h
    | izx _ => exact fun h => nomatch h
    | izy _ => exact fun h => nomatch h

theorem sta (m : MemOperand) : Statement (.sta m) := by
  cases m with
  | zp _ => exact of_row ⟨0x85, .sta, .zp, 3⟩ rfl rfl rfl rfl
  | zpx _ => exact of_row ⟨0x95, .sta, .zpx, 4⟩ rfl rfl rfl rfl
  | zpy _ => exact fun h => nomatch h
  | abs _ => exact of_row ⟨0x8D, .sta, .abs, 4⟩ rfl rfl rfl rfl
  | abx _ => exact of_row ⟨0x9D, .sta, .abx, 5⟩ rfl rfl rfl rfl
  | aby _ => exact of_row ⟨0x99, .sta, .aby, 5⟩ rfl rfl rfl rfl
  | izx _ => exact of_row ⟨0x81, .sta, .izx, 6⟩ rfl rfl rfl rfl
  | izy _ => exact of_row ⟨0x91, .sta, .izy, 6⟩ rfl rfl rfl rfl

theorem stx (m : MemOperand) : Statement (.stx m) := by
  cases m with
  | zp _ => exact of_row ⟨0x86, .stx, .zp, 3⟩ rfl rfl rfl rfl
  | zpx _ => exact fun h => nomatch h
  | zpy _ => exact of_row ⟨0x96, .stx, .zpy, 4⟩ rfl rfl rfl rfl
  | abs _ => exact of_row ⟨0x8E, .stx, .abs, 4⟩ rfl rfl rfl rfl
  | abx _ => exact fun h => nomatch h
  | aby _ => exact fun h => nomatch h
  | izx _ => exact fun h => nomatch h
  | izy _ => exact fun h => nomatch h

theorem sty (m : MemOperand) : Statement (.sty m) := by
  cases m with
  | zp _ => exact of_row ⟨0x84, .sty, .zp, 3⟩ rfl rfl rfl rfl
  | zpx _ => exact of_row ⟨0x94, .sty, .zpx, 4⟩ rfl rfl rfl rfl
  | zpy _ => exact fun h => nomatch h
  | abs _ => exact of_row ⟨0x8C, .sty, .abs, 4⟩ rfl rfl rfl rfl
  | abx _ => exact fun h => nomatch h
  | aby _ => exact fun h => nomatch h
  | izx _ => exact fun h => nomatch h
  | izy _ => exact fun h => nomatch h

theorem tax : Statement (.tax) := 
  of_row ⟨0xAA, .tax, .imp, 2⟩ rfl rfl rfl rfl

theorem tay : Statement (.tay) := 
  of_row ⟨0xA8, .tay, .imp, 2⟩ rfl rfl rfl rfl

theorem txa : Statement (.txa) := 
  of_row ⟨0x8A, .txa, .imp, 2⟩ rfl rfl rfl rfl

theorem tya : Statement (.tya) := 
  of_row ⟨0x98, .tya, .imp, 2⟩ rfl rfl rfl rfl

theorem tsx : Statement (.tsx) := 
  of_row ⟨0xBA, .tsx, .imp, 2⟩ rfl rfl rfl rfl

theorem txs : Statement (.txs) := 
  of_row ⟨0x9A, .txs, .imp, 2⟩ rfl rfl rfl rfl

theorem pha : Statement (.pha) := 
  of_row ⟨0x48, .pha, .imp, 3⟩ rfl rfl rfl rfl

theorem php : Statement (.php) := 
  of_row ⟨0x08, .php, .imp, 3⟩ rfl rfl rfl rfl

theorem pla : Statement (.pla) := 
  of_row ⟨0x68, .pla, .imp, 4⟩ rfl rfl rfl rfl

theorem plp : Statement (.plp) := 
  of_row ⟨0x28, .plp, .imp, 4⟩ rfl rfl rfl rfl

theorem and (o : DataOperand) : Statement (.and o) := by
  cases o with
  | imm _ => exact of_row ⟨0x29, .and, .imm, 2⟩ rfl rfl rfl rfl
  | mem m =>
    cases m with
    | zp _ => exact of_row ⟨0x25, .and, .zp, 3⟩ rfl rfl rfl rfl
    | zpx _ => exact of_row ⟨0x35, .and, .zpx, 4⟩ rfl rfl rfl rfl
    | zpy _ => exact fun h => nomatch h
    | abs _ => exact of_row ⟨0x2D, .and, .abs, 4⟩ rfl rfl rfl rfl
    | abx _ => exact of_row ⟨0x3D, .and, .abx, 4⟩ rfl rfl rfl rfl
    | aby _ => exact of_row ⟨0x39, .and, .aby, 4⟩ rfl rfl rfl rfl
    | izx _ => exact of_row ⟨0x21, .and, .izx, 6⟩ rfl rfl rfl rfl
    | izy _ => exact of_row ⟨0x31, .and, .izy, 5⟩ rfl rfl rfl rfl

theorem eor (o : DataOperand) : Statement (.eor o) := by
  cases o with
  | imm _ => exact of_row ⟨0x49, .eor, .imm, 2⟩ rfl rfl rfl rfl
  | mem m =>
    cases m with
    | zp _ => exact of_row ⟨0x45, .eor, .zp, 3⟩ rfl rfl rfl rfl
    | zpx _ => exact of_row ⟨0x55, .eor, .zpx, 4⟩ rfl rfl rfl rfl
    | zpy _ => exact fun h => nomatch h
    | abs _ => exact of_row ⟨0x4D, .eor, .abs, 4⟩ rfl rfl rfl rfl
    | abx _ => exact of_row ⟨0x5D, .eor, .abx, 4⟩ rfl rfl rfl rfl
    | aby _ => exact of_row ⟨0x59, .eor, .aby, 4⟩ rfl rfl rfl rfl
    | izx _ => exact of_row ⟨0x41, .eor, .izx, 6⟩ rfl rfl rfl rfl
    | izy _ => exact of_row ⟨0x51, .eor, .izy, 5⟩ rfl rfl rfl rfl

theorem ora (o : DataOperand) : Statement (.ora o) := by
  cases o with
  | imm _ => exact of_row ⟨0x09, .ora, .imm, 2⟩ rfl rfl rfl rfl
  | mem m =>
    cases m with
    | zp _ => exact of_row ⟨0x05, .ora, .zp, 3⟩ rfl rfl rfl rfl
    | zpx _ => exact of_row ⟨0x15, .ora, .zpx, 4⟩ rfl rfl rfl rfl
    | zpy _ => exact fun h => nomatch h
    | abs _ => exact of_row ⟨0x0D, .ora, .abs, 4⟩ rfl rfl rfl rfl
    | abx _ => exact of_row ⟨0x1D, .ora, .abx, 4⟩ rfl rfl rfl rfl
    | aby _ => exact of_row ⟨0x19, .ora, .aby, 4⟩ rfl rfl rfl rfl
    | izx _ => exact of_row ⟨0x01, .ora, .izx, 6⟩ rfl rfl rfl rfl
    | izy _ => exact of_row ⟨0x11, .ora, .izy, 5⟩ rfl rfl rfl rfl

theorem bit (m : MemOperand) : Statement (.bit m) := by
  cases m with
  | zp _ => exact of_row ⟨0x24, .bit, .zp, 3⟩ rfl rfl rfl rfl
  | zpx _ => exact fun h => nomatch h
  | zpy _ => exact fun h => nomatch h
  | abs _ => exact of_row ⟨0x2C, .bit, .abs, 4⟩ rfl rfl rfl rfl
  | abx _ => exact fun h => nomatch h
  | aby _ => exact fun h => nomatch h
  | izx _ => exact fun h => nomatch h
  | izy _ => exact fun h => nomatch h

theorem adc (o : DataOperand) : Statement (.adc o) := by
  cases o with
  | imm _ => exact of_row ⟨0x69, .adc, .imm, 2⟩ rfl rfl rfl rfl
  | mem m =>
    cases m with
    | zp _ => exact of_row ⟨0x65, .adc, .zp, 3⟩ rfl rfl rfl rfl
    | zpx _ => exact of_row ⟨0x75, .adc, .zpx, 4⟩ rfl rfl rfl rfl
    | zpy _ => exact fun h => nomatch h
    | abs _ => exact of_row ⟨0x6D, .adc, .abs, 4⟩ rfl rfl rfl rfl
    | abx _ => exact of_row ⟨0x7D, .adc, .abx, 4⟩ rfl rfl rfl rfl
    | aby _ => exact of_row ⟨0x79, .adc, .aby, 4⟩ rfl rfl rfl rfl
    | izx _ => exact of_row ⟨0x61, .adc, .izx, 6⟩ rfl rfl rfl rfl
    | izy _ => exact of_row ⟨0x71, .adc, .izy, 5⟩ rfl rfl rfl rfl

theorem sbc (o : DataOperand) : Statement (.sbc o) := by
  cases o with
  | imm _ => exact of_row ⟨0xE9, .sbc, .imm, 2⟩ rfl rfl rfl rfl
  | mem m =>
    cases m with
    | zp _ => exact of_row ⟨0xE5, .sbc, .zp, 3⟩ rfl rfl rfl rfl
    | zpx _ => exact of_row ⟨0xF5, .sbc, .zpx, 4⟩ rfl rfl rfl rfl
    | zpy _ => exact fun h => nomatch h
    | abs _ => exact of_row ⟨0xED, .sbc, .abs, 4⟩ rfl rfl rfl rfl
    | abx _ => exact of_row ⟨0xFD, .sbc, .abx, 4⟩ rfl rfl rfl rfl
    | aby _ => exact of_row ⟨0xF9, .sbc, .aby, 4⟩ rfl rfl rfl rfl
    | izx _ => exact of_row ⟨0xE1, .sbc, .izx, 6⟩ rfl rfl rfl rfl
    | izy _ => exact of_row ⟨0xF1, .sbc, .izy, 5⟩ rfl rfl rfl rfl

theorem cmp (o : DataOperand) : Statement (.cmp o) := by
  cases o with
  | imm _ => exact of_row ⟨0xC9, .cmp, .imm, 2⟩ rfl rfl rfl rfl
  | mem m =>
    cases m with
    | zp _ => exact of_row ⟨0xC5, .cmp, .zp, 3⟩ rfl rfl rfl rfl
    | zpx _ => exact of_row ⟨0xD5, .cmp, .zpx, 4⟩ rfl rfl rfl rfl
    | zpy _ => exact fun h => nomatch h
    | abs _ => exact of_row ⟨0xCD, .cmp, .abs, 4⟩ rfl rfl rfl rfl
    | abx _ => exact of_row ⟨0xDD, .cmp, .abx, 4⟩ rfl rfl rfl rfl
    | aby _ => exact of_row ⟨0xD9, .cmp, .aby, 4⟩ rfl rfl rfl rfl
    | izx _ => exact of_row ⟨0xC1, .cmp, .izx, 6⟩ rfl rfl rfl rfl
    | izy _ => exact of_row ⟨0xD1, .cmp, .izy, 5⟩ rfl rfl rfl rfl

theorem cpx (o : DataOperand) : Statement (.cpx o) := by
  cases o with
  | imm _ => exact of_row ⟨0xE0, .cpx, .imm, 2⟩ rfl rfl rfl rfl
  | mem m =>
    cases m with
    | zp _ => exact of_row ⟨0xE4, .cpx, .zp, 3⟩ rfl rfl rfl rfl
    | zpx _ => exact fun h => nomatch h
    | zpy _ => exact fun h => nomatch h
    | abs _ => exact of_row ⟨0xEC, .cpx, .abs, 4⟩ rfl rfl rfl rfl
    | abx _ => exact fun h => nomatch h
    | aby _ => exact fun h => nomatch h
    | izx _ => exact fun h => nomatch h
    | izy _ => exact fun h => nomatch h

theorem cpy (o : DataOperand) : Statement (.cpy o) := by
  cases o with
  | imm _ => exact of_row ⟨0xC0, .cpy, .imm, 2⟩ rfl rfl rfl rfl
  | mem m =>
    cases m with
    | zp _ => exact of_row ⟨0xC4, .cpy, .zp, 3⟩ rfl rfl rfl rfl
    | zpx _ => exact fun h => nomatch h
    | zpy _ => exact fun h => nomatch h
    | abs _ => exact of_row ⟨0xCC, .cpy, .abs, 4⟩ rfl rfl rfl rfl
    | abx _ => exact fun h => nomatch h
    | aby _ => exact fun h => nomatch h
    | izx _ => exact fun h => nomatch h
    | izy _ => exact fun h => nomatch h

theorem inc (m : MemOperand) : Statement (.inc m) := by
  cases m with
  | zp _ => exact of_row ⟨0xE6, .inc, .zp, 5⟩ rfl rfl rfl rfl
  | zpx _ => exact of_row ⟨0xF6, .inc, .zpx, 6⟩ rfl rfl rfl rfl
  | zpy _ => exact fun h => nomatch h
  | abs _ => exact of_row ⟨0xEE, .inc, .abs, 6⟩ rfl rfl rfl rfl
  | abx _ => exact of_row ⟨0xFE, .inc, .abx, 7⟩ rfl rfl rfl rfl
  | aby _ => exact fun h => nomatch h
  | izx _ => exact fun h => nomatch h
  | izy _ => exact fun h => nomatch h

theorem dec (m : MemOperand) : Statement (.dec m) := by
  cases m with
  | zp _ => exact of_row ⟨0xC6, .dec, .zp, 5⟩ rfl rfl rfl rfl
  | zpx _ => exact of_row ⟨0xD6, .dec, .zpx, 6⟩ rfl rfl rfl rfl
  | zpy _ => exact fun h => nomatch h
  | abs _ => exact of_row ⟨0xCE, .dec, .abs, 6⟩ rfl rfl rfl rfl
  | abx _ => exact of_row ⟨0xDE, .dec, .abx, 7⟩ rfl rfl rfl rfl
  | aby _ => exact fun h => nomatch h
  | izx _ => exact fun h => nomatch h
  | izy _ => exact fun h => nomatch h

theorem inx : Statement (.inx) := 
  of_row ⟨0xE8, .inx, .imp, 2⟩ rfl rfl rfl rfl

theorem iny : Statement (.iny) := 
  of_row ⟨0xC8, .iny, .imp, 2⟩ rfl rfl rfl rfl

theorem dex : Statement (.dex) := 
  of_row ⟨0xCA, .dex, .imp, 2⟩ rfl rfl rfl rfl

theorem dey : Statement (.dey) := 
  of_row ⟨0x88, .dey, .imp, 2⟩ rfl rfl rfl rfl

theorem asl (o : ShiftOperand) : Statement (.asl o) := by
  cases o with
  | acc => exact of_row ⟨0x0A, .asl, .acc, 2⟩ rfl rfl rfl rfl
  | mem m =>
    cases m with
    | zp _ => exact of_row ⟨0x06, .asl, .zp, 5⟩ rfl rfl rfl rfl
    | zpx _ => exact of_row ⟨0x16, .asl, .zpx, 6⟩ rfl rfl rfl rfl
    | zpy _ => exact fun h => nomatch h
    | abs _ => exact of_row ⟨0x0E, .asl, .abs, 6⟩ rfl rfl rfl rfl
    | abx _ => exact of_row ⟨0x1E, .asl, .abx, 7⟩ rfl rfl rfl rfl
    | aby _ => exact fun h => nomatch h
    | izx _ => exact fun h => nomatch h
    | izy _ => exact fun h => nomatch h

theorem lsr (o : ShiftOperand) : Statement (.lsr o) := by
  cases o with
  | acc => exact of_row ⟨0x4A, .lsr, .acc, 2⟩ rfl rfl rfl rfl
  | mem m =>
    cases m with
    | zp _ => exact of_row ⟨0x46, .lsr, .zp, 5⟩ rfl rfl rfl rfl
    | zpx _ => exact of_row ⟨0x56, .lsr, .zpx, 6⟩ rfl rfl rfl rfl
    | zpy _ => exact fun h => nomatch h
    | abs _ => exact of_row ⟨0x4E, .lsr, .abs, 6⟩ rfl rfl rfl rfl
    | abx _ => exact of_row ⟨0x5E, .lsr, .abx, 7⟩ rfl rfl rfl rfl
    | aby _ => exact fun h => nomatch h
    | izx _ => exact fun h => nomatch h
    | izy _ => exact fun h => nomatch h

theorem rol (o : ShiftOperand) : Statement (.rol o) := by
  cases o with
  | acc => exact of_row ⟨0x2A, .rol, .acc, 2⟩ rfl rfl rfl rfl
  | mem m =>
    cases m with
    | zp _ => exact of_row ⟨0x26, .rol, .zp, 5⟩ rfl rfl rfl rfl
    | zpx _ => exact of_row ⟨0x36, .rol, .zpx, 6⟩ rfl rfl rfl rfl
    | zpy _ => exact fun h => nomatch h
    | abs _ => exact of_row ⟨0x2E, .rol, .abs, 6⟩ rfl rfl rfl rfl
    | abx _ => exact of_row ⟨0x3E, .rol, .abx, 7⟩ rfl rfl rfl rfl
    | aby _ => exact fun h => nomatch h
    | izx _ => exact fun h => nomatch h
    | izy _ => exact fun h => nomatch h

theorem ror (o : ShiftOperand) : Statement (.ror o) := by
  cases o with
  | acc => exact of_row ⟨0x6A, .ror, .acc, 2⟩ rfl rfl rfl rfl
  | mem m =>
    cases m with
    | zp _ => exact of_row ⟨0x66, .ror, .zp, 5⟩ rfl rfl rfl rfl
    | zpx _ => exact of_row ⟨0x76, .ror, .zpx, 6⟩ rfl rfl rfl rfl
    | zpy _ => exact fun h => nomatch h
    | abs _ => exact of_row ⟨0x6E, .ror, .abs, 6⟩ rfl rfl rfl rfl
    | abx _ => exact of_row ⟨0x7E, .ror, .abx, 7⟩ rfl rfl rfl rfl
    | aby _ => exact fun h => nomatch h
    | izx _ => exact fun h => nomatch h
    | izy _ => exact fun h => nomatch h

theorem jmp (t : JumpOperand) : Statement (.jmp t) := by
  cases t with
  | abs _ => exact of_row ⟨0x4C, .jmp, .abs, 3⟩ rfl rfl rfl rfl
  | ind _ => exact of_row ⟨0x6C, .jmp, .ind, 5⟩ rfl rfl rfl rfl

theorem jsr (a : Word) : Statement (.jsr a) := 
  of_row ⟨0x20, .jsr, .abs, 6⟩ rfl rfl rfl rfl

theorem rts : Statement (.rts) := 
  of_row ⟨0x60, .rts, .imp, 6⟩ rfl rfl rfl rfl

theorem bcc (off : Byte) : Statement (.bcc off) := 
  of_row ⟨0x90, .bcc, .rel, 2⟩ rfl rfl rfl rfl

theorem bcs (off : Byte) : Statement (.bcs off) := 
  of_row ⟨0xB0, .bcs, .rel, 2⟩ rfl rfl rfl rfl

theorem beq (off : Byte) : Statement (.beq off) := 
  of_row ⟨0xF0, .beq, .rel, 2⟩ rfl rfl rfl rfl

theorem bne (off : Byte) : Statement (.bne off) := 
  of_row ⟨0xD0, .bne, .rel, 2⟩ rfl rfl rfl rfl

theorem bmi (off : Byte) : Statement (.bmi off) := 
  of_row ⟨0x30, .bmi, .rel, 2⟩ rfl rfl rfl rfl

theorem bpl (off : Byte) : Statement (.bpl off) := 
  of_row ⟨0x10, .bpl, .rel, 2⟩ rfl rfl rfl rfl

theorem bvc (off : Byte) : Statement (.bvc off) := 
  of_row ⟨0x50, .bvc, .rel, 2⟩ rfl rfl rfl rfl

theorem bvs (off : Byte) : Statement (.bvs off) := 
  of_row ⟨0x70, .bvs, .rel, 2⟩ rfl rfl rfl rfl

theorem clc : Statement (.clc) := 
  of_row ⟨0x18, .clc, .imp, 2⟩ rfl rfl rfl rfl

theorem cld : Statement (.cld) := 
  of_row ⟨0xD8, .cld, .imp, 2⟩ rfl rfl rfl rfl

theorem cli : Statement (.cli) := 
  of_row ⟨0x58, .cli, .imp, 2⟩ rfl rfl rfl rfl

theorem clv : Statement (.clv) := 
  of_row ⟨0xB8, .clv, .imp, 2⟩ rfl rfl rfl rfl

theorem sec : Statement (.sec) := 
  of_row ⟨0x38, .sec, .imp, 2⟩ rfl rfl rfl rfl

theorem sed : Statement (.sed) := 
  of_row ⟨0xF8, .sed, .imp, 2⟩ rfl rfl rfl rfl

theorem sei : Statement (.sei) := 
  of_row ⟨0x78, .sei, .imp, 2⟩ rfl rfl rfl rfl

theorem brk : Statement (.brk) := 
  of_row ⟨0x00, .brk, .imp, 7⟩ rfl rfl rfl rfl

theorem rti : Statement (.rti) := 
  of_row ⟨0x40, .rti, .imp, 6⟩ rfl rfl rfl rfl

theorem nop : Statement (.nop) := 
  of_row ⟨0xEA, .nop, .imp, 2⟩ rfl rfl rfl rfl

theorem ill (op : Byte) : Statement (.ill op) := by
  intro h
  exact ⟨sentinelRow op, rfl, rfl, rfl, lookup_unassigned op (by simpa [WellFormed, Instr.wellFormed] using h)⟩

end Sys2Proof.Laws.OpcodeRow
end

