-- ==== Sys2Proof/Laws/Safety.lean ====
section
/-! SUPPORT. The laws of the terms the statements use: how the flags, the memory and the cycles of a
state reached by a shared operation meet them. -/

namespace Sys2Proof.Machine

/-! ### Zero and Negative -/

theorem beq_zero_eq_decide (v : Byte) : (v == 0) = decide (v.toNat = 0) := by
  rw [Bool.eq_iff_iff, beq_iff_eq, decide_eq_true_eq, ← BitVec.toNat_inj]
  rfl

theorem bit7_eq_decide (v : Byte) : v.getLsbD 7 = decide (128 ≤ v.toNat) := by
  have := v.isLt
  rw [show v.getLsbD 7 = v.msb from (BitVec.msb_eq_getLsbD_last v).symm, BitVec.msb_eq_decide]

/-- How the two flags of `SetZN` meet `ShowsZN` (R20). -/
theorem showsZN_of {v : Byte} {t : State} (hz : t.flag .z = (v == 0))
    (hn : t.flag .n = v.getLsbD 7) : ShowsZN v t :=
  ⟨by rw [hz, beq_zero_eq_decide], by rw [hn, bit7_eq_decide]⟩

/-! ### The page-cross cycle -/

/-- No page-cross cycle where no handler asked for one (R82). -/
theorem pageCrossCycle_of_not_eligible {s : State} (h : s.extraEligible = false) :
    pageCrossCycle s = 0 := by
  simp [pageCrossCycle, h]

/-- The page-cross cycle of a handler that read a data operand and asked for it (R82, R83). -/
theorem pageCrossCycle_of_readData {o : DataOperand} {s u : State} (hb : Boundary s)
    (hp : u.pageCrossed = (readData o s).2.pageCrossed) (he : u.extraEligible = true) :
    pageCrossCycle u = if dataCrosses o s then 1 else 0 := by
  simp [pageCrossCycle, hp, he, readData_pageCrossed, hb.1]

/-! ### What an address holds depends on memory and the size of the ROM only -/

theorem target_congr {s t : State} (hp : t.prg = s.prg) (b : Word) : t.target b = s.target b := by
  simp [State.target, hp]

theorem stored_congr {s t : State} (hm : t.mem = s.mem) (hp : t.prg = s.prg) (b : Word) :
    t.stored b = s.stored b := by
  simp [State.stored, State.target, hm, hp]

/-- What a bus read answers depends on what the address holds and on the accesses so far only. -/
theorem memRead_congr {s t : State} {b : Word} (hs : t.stored b = s.stored b)
    (hp : t.prg = s.prg) (hd : t.devLog = s.devLog) :
    (memRead b t).1 = (memRead b s).1 ∧ (memRead b t).2.devLog = (memRead b s).2.devLog := by
  unfold State.stored at hs
  unfold memRead
  rw [target_congr hp] at hs ⊢
  cases ht : s.target b <;> simp_all [deviceRead]

/-- What a 16-bit read answers depends on what its two addresses hold and on the accesses so far
only (R40). -/
theorem read16_congr {s t : State} {a : Word} (h0 : t.stored a = s.stored a)
    (h1 : t.stored (a + 1) = s.stored (a + 1)) (hp : t.prg = s.prg) (hd : t.devLog = s.devLog) :
    (read16 a t).1 = (read16 a s).1 ∧ (read16 a t).2.devLog = (read16 a s).2.devLog := by
  have hl := memRead_congr h0 hp hd
  have hh : (memRead (a + 1) (memRead a t).2).1 = (memRead (a + 1) (memRead a s).2).1 ∧
      (memRead (a + 1) (memRead a t).2).2.devLog = (memRead (a + 1) (memRead a s).2).2.devLog :=
    memRead_congr (by simpa using h1) (by simpa using hp) hl.2
  exact ⟨by simp only [read16, hl.1, hh.1], by simpa only [read16] using hh.2⟩

/-! ### Stores -/

/-- A state reached by one write through an operand (R93). -/
theorem stores_of_writeMem {m : MemOperand} {v : Byte} {s t : State}
    (hm : t.mem = (writeMem m v s).mem) (hp : t.prg = s.prg)
    (hd : t.devLog = (writeMem m v s).devLog) : Stores (resolve m s).1 v s t := by
  have hs : ∀ b, t.stored b = (writeMem m v s).stored b :=
    fun b => stored_congr hm (by simpa using hp) b
  refine ⟨fun hr b hb => ?_, fun hr b => ?_, fun b hb => ?_, ?_⟩
  · simp [hs, stored_writeMem, hb, hr]
  · simp [hs, stored_writeMem, hr]
  · simp only [List.forall_mem_cons] at hb
    simp [hs, stored_writeMem, hb.1]
  · rw [hd, writeMem, memWrite_devLog, target_resolve]
    cases s.target (resolve m s).1 <;> simp [resolve_devLog]

/-- A state reached by one read and one write through an operand (R42). -/
theorem stores_of_modifyMem {f : Byte → Byte} {m : MemOperand} {s t : State}
    (hm : t.mem = (modifyMem f m s).2.mem) (hp : t.prg = s.prg)
    (hd : t.devLog = (modifyMem f m s).2.devLog) :
    Stores (resolve m s).1 (f (readMem m s).1) (readMem m s).2 t ∧
      KeepsMemoryBut [(resolve m s).1] s t := by
  have hs : ∀ b, t.stored b = (modifyMem f m s).2.stored b :=
    fun b => stored_congr hm (by simpa using hp) b
  have ht : ∀ b, (readMem m s).2.target b = s.target b := fun b => target_congr (by simp) b
  refine ⟨⟨fun hr b hb => ?_, fun hr b => ?_, fun b hb => ?_, ?_⟩, fun b hb => ?_⟩
  · rw [ht] at hr hb
    rw [ht] at hb
    simp [hs, stored_modifyMem, hb, hr]
  · rw [ht] at hr
    simp [hs, stored_modifyMem, hr]
  · simp only [List.forall_mem_cons, ht] at hb
    simp [hs, stored_modifyMem, hb.1]
  · rw [hd, modifyMem, memWrite_devLog, ht, target_memRead, target_resolve]
    cases s.target (resolve m s).1 <;> rfl
  · simp only [List.forall_mem_cons] at hb
    simp [hs, stored_modifyMem, hb.1]

/-! ### The stack -/

/-- Different values of SP designate different cells (R14). -/
theorem stackCell_ne {p q : Byte} (h : p ≠ q) : 0x0100 + p.toNat ≠ 0x0100 + q.toNat :=
  fun h2 => h (BitVec.eq_of_toNat_eq (by omega))

/-- A state reached by one push (R102). -/
theorem holds_of_push {v : Byte} {s t : State} (hm : t.mem = (push v s).mem) (hp : t.prg = s.prg) :
    Holds (stackAddr s.sp) v t ∧ KeepsMemoryBut [stackAddr s.sp] s t := by
  have hs : ∀ b, t.stored b = (push v s).stored b :=
    fun b => stored_congr hm (by simpa using hp) b
  refine ⟨fun b hb => ?_, fun b hb => ?_⟩
  · rw [target_congr hp, target_congr hp, target_stackAddr] at hb
    simp [hs, stored_push, hb]
  · simp only [List.forall_mem_cons, target_stackAddr] at hb
    simp [hs, stored_push, hb.1]

/-- What an address holds after a word is pushed: the low byte lies below the high byte (R133). -/
theorem stored_pushWord (w : Word) (s : State) (b : Word) :
    (pushWord w s).stored b =
      if s.target b = .ram (0x0100 + (s.sp - 1).toNat) then some (loByte w)
      else if s.target b = .ram (0x0100 + s.sp.toNat) then some (hiByte w)
      else s.stored b := by
  rw [pushWord, stored_push, stored_push, target_push, push_sp]

/-! ### Taking an interrupt -/

/-- What an address holds after an interrupt sequence: the status byte below the low byte below the
high byte of the return address (R153, R164). -/
theorem stored_takeInterrupt_cases (ret : Word) (brk : Bool) (vec : Word) (s : State) (b : Word) :
    (takeInterrupt ret brk vec s).stored b =
      if s.target b = .ram (0x0100 + (s.sp - 2).toNat) then some (statusForPush brk s.p)
      else if s.target b = .ram (0x0100 + (s.sp - 1).toNat) then some (loByte ret)
      else if s.target b = .ram (0x0100 + s.sp.toNat) then some (hiByte ret)
      else s.stored b := by
  rw [stored_takeInterrupt, stored_push, target_pushWord, pushWord_sp, stored_pushWord]

/-- A state reached by the interrupt sequence, where the vector lies outside RAM (R153, R164). -/
theorem entersHandler_of_takeInterrupt {ret : Word} {brk : Bool} {vec : Word} {s t : State}
    (h0 : (s.target vec).isRam = false) (h1 : (s.target (vec + 1)).isRam = false)
    (hm : t.mem = (takeInterrupt ret brk vec s).mem) (hp : t.prg = s.prg)
    (hd : t.devLog = (takeInterrupt ret brk vec s).devLog)
    (hsp : t.sp = (takeInterrupt ret brk vec s).sp) (hpp : t.p = (takeInterrupt ret brk vec s).p)
    (hpc : t.pc = (takeInterrupt ret brk vec s).pc) :
    EntersHandler ret (statusForPush brk s.p) vec s t := by
  have hs : ∀ b, t.stored b = (takeInterrupt ret brk vec s).stored b :=
    fun b => stored_congr hm (by simpa using hp) b
  have n1 := stackCell_ne (p := s.sp) (q := s.sp - 1) (by bv_omega)
  have n2 := stackCell_ne (p := s.sp) (q := s.sp - 2) (by bv_omega)
  have n3 := stackCell_ne (p := s.sp - 1) (q := s.sp - 2) (by bv_omega)
  have hr : ∀ b, (s.target b).isRam = false →
      (setFlag .i true (push (statusForPush brk s.p) (pushWord ret s))).stored b = s.stored b := by
    intro b hb
    have hne : ∀ k, s.target b ≠ .ram k := by
      intro k hk
      simp [hk] at hb
    rw [stored_setFlag, ← stored_takeInterrupt ret brk vec s b, stored_takeInterrupt_cases]
    simp only [hne, if_false]
  have hv := read16_congr (hr vec h0) (hr (vec + 1) h1)
    (by simp) (by simp)
  refine ⟨fun b hb => ?_, fun b hb => ?_, fun b hb => ?_, fun b hb => ?_, ?_, ?_, ?_, ?_⟩
  · rw [target_congr hp, target_congr hp, target_stackAddr] at hb
    rw [hs, stored_takeInterrupt_cases, hb, if_neg (by simpa using n2), if_neg (by simpa using n1),
      if_pos rfl]
  · rw [target_congr hp, target_congr hp, target_stackAddr] at hb
    rw [hs, stored_takeInterrupt_cases, hb, if_neg (by simpa using n3), if_pos rfl]
  · rw [target_congr hp, target_congr hp, target_stackAddr] at hb
    rw [hs, stored_takeInterrupt_cases, hb, if_pos rfl]
  · simp only [List.forall_mem_cons, target_stackAddr] at hb
    rw [hs, stored_takeInterrupt_cases, if_neg hb.2.2.1, if_neg hb.2.1, if_neg hb.1]
  · rw [hsp, takeInterrupt_sp]
    bv_omega
  · have : t.flag .i = (takeInterrupt ret brk vec s).flag .i := by rw [State.flag, State.flag, hpp]
    simp [this]
  · rw [hpc, takeInterrupt_pc, hv.1]
  · rw [hd, ← hv.2]
    rfl

/-! ### Branch targets -/

/-- The target of a branch as an integer: the next instruction's address plus the signed offset,
modulo 65536 (R79). -/
theorem branchTarget_toNat (next : Word) (off : Byte) :
    ((branchTarget next off).toNat : Int) = ((next.toNat : Int) + off.toInt) % 65536 := by
  have h1 : (sext off).toInt = off.toInt := BitVec.toInt_signExtend_of_le (by omega)
  have h2 := (sext off).isLt
  have h3 := next.isLt
  have h4 : (BitVec.toNat (sext off) : Int) % 65536 = off.toInt % 65536 := by
    rw [← h1, BitVec.toInt_eq_toNat_bmod]
    exact (Int.bmod_emod).symm
  rw [branchTarget, BitVec.toNat_add]
  push_cast
  omega

/-! ### The signed overflow of the adder -/

/-- The overflow bit of `AddCore` is set exactly when the signed sum is outside -128 to 127 (R114). -/
theorem overflow_eq_decide (a b : Byte) (c : Bool) :
    ((~~~(a ^^^ b) &&& (a ^^^ BitVec.ofNat 8 (a.toNat + b.toNat + c.toNat)) &&& 0x80#8) != 0) =
      decide (a.toInt + b.toInt + c.toNat < -128 ∨ 127 < a.toInt + b.toInt + c.toNat) := by
  have h1 : ∀ x : Byte, (x &&& 0x80#8 != 0) = x.msb := by decide
  have ha := a.isLt
  have hb := b.isLt
  rw [h1, BitVec.msb_and, BitVec.msb_not, BitVec.msb_xor, BitVec.msb_xor]
  simp only [BitVec.toInt_eq_msb_cond, BitVec.msb_eq_decide, BitVec.toNat_ofNat]
  rw [Bool.eq_iff_iff]
  cases c <;> simp <;> split_ifs <;> omega

end Sys2Proof.Machine
end

