-- ==== Sys2Proof/Laws/Step.lean ====
section
/-! SUPPORT. The laws of fetching: what a fetch can change, and what it reads where memory answers. -/

namespace Sys2Proof.Machine

@[simp] theorem fetch8_a (s : State) : (fetch8 s).2.a = s.a := by
  simp [fetch8]
@[simp] theorem fetch8_x (s : State) : (fetch8 s).2.x = s.x := by
  simp [fetch8]
@[simp] theorem fetch8_y (s : State) : (fetch8 s).2.y = s.y := by
  simp [fetch8]
@[simp] theorem fetch8_sp (s : State) : (fetch8 s).2.sp = s.sp := by
  simp [fetch8]
@[simp] theorem fetch8_p (s : State) : (fetch8 s).2.p = s.p := by
  simp [fetch8]
@[simp] theorem fetch8_nmiPending (s : State) : (fetch8 s).2.nmiPending = s.nmiPending := by
  simp [fetch8]
@[simp] theorem fetch8_pageCrossed (s : State) : (fetch8 s).2.pageCrossed = s.pageCrossed := by
  simp [fetch8]
@[simp] theorem fetch8_extraEligible (s : State) : (fetch8 s).2.extraEligible = s.extraEligible := by
  simp [fetch8]
@[simp] theorem fetch8_cycles (s : State) : (fetch8 s).2.cycles = s.cycles := by
  simp [fetch8]
@[simp] theorem fetch8_mem (s : State) : (fetch8 s).2.mem = s.mem := by
  simp [fetch8]
@[simp] theorem fetch8_prg (s : State) : (fetch8 s).2.prg = s.prg := by
  simp [fetch8]

/-- Everything a fetch of one byte does where memory answers: PC moves past it (R65). -/
theorem fetch8_of_stored {s : State} {v : Byte} (h : s.stored s.pc = some v) :
    fetch8 s = (v, { s with pc := s.pc + 1 }) := by
  simp [fetch8, memRead_of_stored h]

/-- The instruction a fetch answers is the decoder's, for the bytes it read. -/
theorem fetchInstr_decodeOpcode (s : State) :
    ∃ b1 b2, (fetchInstr s).1 = decodeOpcode (fetch8 s).1 b1 b2 := by
  unfold fetchInstr
  dsimp only
  split <;> exact ⟨_, _, rfl⟩

@[simp] theorem fetchInstr_a (s : State) : (fetchInstr s).2.a = s.a := by
  unfold fetchInstr; dsimp only; split <;> simp
@[simp] theorem fetchInstr_x (s : State) : (fetchInstr s).2.x = s.x := by
  unfold fetchInstr; dsimp only; split <;> simp
@[simp] theorem fetchInstr_y (s : State) : (fetchInstr s).2.y = s.y := by
  unfold fetchInstr; dsimp only; split <;> simp
@[simp] theorem fetchInstr_sp (s : State) : (fetchInstr s).2.sp = s.sp := by
  unfold fetchInstr; dsimp only; split <;> simp
@[simp] theorem fetchInstr_p (s : State) : (fetchInstr s).2.p = s.p := by
  unfold fetchInstr; dsimp only; split <;> simp
@[simp] theorem fetchInstr_nmiPending (s : State) : (fetchInstr s).2.nmiPending = s.nmiPending := by
  unfold fetchInstr; dsimp only; split <;> simp
@[simp] theorem fetchInstr_pageCrossed (s : State) : (fetchInstr s).2.pageCrossed = s.pageCrossed := by
  unfold fetchInstr; dsimp only; split <;> simp
@[simp] theorem fetchInstr_extraEligible (s : State) : (fetchInstr s).2.extraEligible = s.extraEligible := by
  unfold fetchInstr; dsimp only; split <;> simp
@[simp] theorem fetchInstr_cycles (s : State) : (fetchInstr s).2.cycles = s.cycles := by
  unfold fetchInstr; dsimp only; split <;> simp
@[simp] theorem fetchInstr_mem (s : State) : (fetchInstr s).2.mem = s.mem := by
  unfold fetchInstr; dsimp only; split <;> simp
@[simp] theorem fetchInstr_prg (s : State) : (fetchInstr s).2.prg = s.prg := by
  unfold fetchInstr; dsimp only; split <;> simp

@[simp] theorem target_fetchInstr (s : State) (b : Word) :
    (fetchInstr s).2.target b = s.target b := by
  simp [State.target]

@[simp] theorem stored_fetchInstr (s : State) (b : Word) :
    (fetchInstr s).2.stored b = s.stored b := by
  simp [State.stored]

@[simp] theorem flag_fetchInstr (s : State) (f : Flag) : (fetchInstr s).2.flag f = s.flag f := by
  simp [State.flag]

/-- A step is NMI service when a request is pending (R80). -/
theorem step_of_pending {s : State} (h : s.nmiPending = true) : step s = .next (serviceNmi s) := by
  simp [step, h]

/-- A step is the fetched instruction when no request is pending (R80). -/
theorem step_of_not_pending {s : State} (h : s.nmiPending = false) :
    step s = exec (fetchInstr s).1 (fetchInstr s).2 := by
  simp [step, h]

end Sys2Proof.Machine
end

