-- ==== Sys2Proof/Tests/Slice0.lean ====
section
/-! SUPPORT. The model's own tests: ill-formed terms, the words of the opcode table, the address
map, one step of every instruction on the spec's test vectors (`95_test_vectors.md`, Part 2), and for
every statement with hypotheses a state and operands that meet them together. Expected values are
the spec's. -/

namespace Sys2Proof.Tests

open Sys2Proof.Machine

/-! ### Helpers -/

/-- The decoder reads the well-formed instruction from the bytes, which are its encoding. -/
abbrev reads (bytes : List Byte) (i : Instr) : Prop :=
  decode bytes = .instr i [] ∧ encode i = bytes ∧ WellFormed i

/-- The state after reset with PC at `origin` and `bytes` there (the vectors' conventions). -/
def ready (origin : Word) (bytes : List Byte) : State :=
  loadBytes origin bytes { State.reset with pc := origin }

/-- The state with the vectors' RAM cells set. -/
def withRam : List (Word × Byte) → State → State
  | [], s => s
  | (addr, v) :: cells, s => withRam cells (memWrite addr v s)

/-- The state with the vectors at 0x9000, 0x8000 and 0xA000. -/
def withVectors (s : State) : State := loadBytes 0xFFFA [0x00, 0x90, 0x00, 0x80, 0x00, 0xA0] s

/-- What one step leaves, seen through `view`. -/
def after {α : Type} (s : State) (view : State → α) : Option α :=
  match step s with
  | .next t => some (view t)
  | .fault _ => none
  | .refused _ => none

/-! ### Ill-formed terms: one the check refuses for every list of modes -/

theorem test_illformed_accumulator_modes :
    ¬WellFormed (.lda (.mem (.zpy 0x10))) ∧ ¬WellFormed (.and (.mem (.zpy 0x10))) ∧
    ¬WellFormed (.eor (.mem (.zpy 0x10))) ∧ ¬WellFormed (.ora (.mem (.zpy 0x10))) ∧
    ¬WellFormed (.adc (.mem (.zpy 0x10))) ∧ ¬WellFormed (.sbc (.mem (.zpy 0x10))) ∧
    ¬WellFormed (.cmp (.mem (.zpy 0x10))) := by
  decide

theorem test_illformed_index_modes :
    ¬WellFormed (.ldx (.mem (.zpx 0x10))) ∧ ¬WellFormed (.ldx (.mem (.abx 0x1234))) ∧
    ¬WellFormed (.ldy (.mem (.zpy 0x10))) ∧ ¬WellFormed (.ldy (.mem (.aby 0x1234))) ∧
    ¬WellFormed (.cpx (.mem (.zpx 0x10))) ∧ ¬WellFormed (.cpy (.mem (.abx 0x1234))) := by
  decide

theorem test_illformed_store_modes :
    ¬WellFormed (.sta (.zpy 0x10)) ∧ ¬WellFormed (.stx (.zpx 0x10)) ∧
    ¬WellFormed (.sty (.zpy 0x10)) ∧ ¬WellFormed (.sty (.abx 0x1234)) := by
  decide

theorem test_illformed_bit_and_modify_modes :
    ¬WellFormed (.bit (.zpx 0x10)) ∧ ¬WellFormed (.inc (.aby 0x1234)) ∧
    ¬WellFormed (.dec (.izx 0x10)) ∧ ¬WellFormed (.asl (.mem (.zpy 0x10))) ∧
    ¬WellFormed (.lsr (.mem (.aby 0x1234))) ∧ ¬WellFormed (.rol (.mem (.izx 0x10))) ∧
    ¬WellFormed (.ror (.mem (.izy 0x10))) := by
  decide

theorem test_illformed_sentinel : ¬WellFormed (.ill 0xEA) ∧ WellFormed (.ill 0x02) := by decide

/-! ### Words of the opcode table, written from the spec's encodings -/

/-- One opcode of every family, bit by bit (R54). -/
theorem test_decode_bits :
    decode [0b10101001, 0b00010000] = .instr (.lda (.imm 0x10)) [] ∧
    decode [0b10101010] = .instr .tax [] ∧
    decode [0b00001000] = .instr .php [] ∧
    decode [0b00101100, 0b00110100, 0b00010010] = .instr (.bit (.abs 0x1234)) [] ∧
    decode [0b01110001, 0b00010000] = .instr (.adc (.mem (.izy 0x10))) [] ∧
    decode [0b11100100, 0b00010000] = .instr (.cpx (.mem (.zp 0x10))) [] ∧
    decode [0b11010110, 0b00010000] = .instr (.dec (.zpx 0x10)) [] ∧
    decode [0b01101010] = .instr (.ror .acc) [] ∧
    decode [0b01101100, 0b11111111, 0b00000010] = .instr (.jmp (.ind 0x02FF)) [] ∧
    decode [0b11010000, 0b11111011] = .instr (.bne 0xFB) [] ∧
    decode [0b01111000] = .instr .sei [] ∧
    decode [0b01000000] = .instr .rti [] ∧
    decode [0b00000010] = .instr (.ill 0x02) [] := by
  decide

theorem test_decode_lda :
    reads [0xA1, 0x34] (.lda (.mem (.izx 0x34))) ∧ reads [0xA5, 0x34] (.lda (.mem (.zp 0x34))) ∧
    reads [0xA9, 0x34] (.lda (.imm 0x34)) ∧
    reads [0xAD, 0x34, 0x12] (.lda (.mem (.abs 0x1234))) ∧
    reads [0xB1, 0x34] (.lda (.mem (.izy 0x34))) ∧
    reads [0xB5, 0x34] (.lda (.mem (.zpx 0x34))) ∧
    reads [0xB9, 0x34, 0x12] (.lda (.mem (.aby 0x1234))) ∧
    reads [0xBD, 0x34, 0x12] (.lda (.mem (.abx 0x1234))) := by
  decide

theorem test_decode_ldx :
    reads [0xA2, 0x34] (.ldx (.imm 0x34)) ∧ reads [0xA6, 0x34] (.ldx (.mem (.zp 0x34))) ∧
    reads [0xAE, 0x34, 0x12] (.ldx (.mem (.abs 0x1234))) ∧
    reads [0xB6, 0x34] (.ldx (.mem (.zpy 0x34))) ∧
    reads [0xBE, 0x34, 0x12] (.ldx (.mem (.aby 0x1234))) := by
  decide

theorem test_decode_ldy :
    reads [0xA0, 0x34] (.ldy (.imm 0x34)) ∧ reads [0xA4, 0x34] (.ldy (.mem (.zp 0x34))) ∧
    reads [0xAC, 0x34, 0x12] (.ldy (.mem (.abs 0x1234))) ∧
    reads [0xB4, 0x34] (.ldy (.mem (.zpx 0x34))) ∧
    reads [0xBC, 0x34, 0x12] (.ldy (.mem (.abx 0x1234))) := by
  decide

theorem test_decode_sta :
    reads [0x81, 0x34] (.sta (.izx 0x34)) ∧ reads [0x85, 0x34] (.sta (.zp 0x34)) ∧
    reads [0x8D, 0x34, 0x12] (.sta (.abs 0x1234)) ∧ reads [0x91, 0x34] (.sta (.izy 0x34)) ∧
    reads [0x95, 0x34] (.sta (.zpx 0x34)) ∧ reads [0x99, 0x34, 0x12] (.sta (.aby 0x1234)) ∧
    reads [0x9D, 0x34, 0x12] (.sta (.abx 0x1234)) := by
  decide

theorem test_decode_stx :
    reads [0x86, 0x34] (.stx (.zp 0x34)) ∧ reads [0x8E, 0x34, 0x12] (.stx (.abs 0x1234)) ∧
    reads [0x96, 0x34] (.stx (.zpy 0x34)) := by
  decide

theorem test_decode_sty :
    reads [0x84, 0x34] (.sty (.zp 0x34)) ∧ reads [0x8C, 0x34, 0x12] (.sty (.abs 0x1234)) ∧
    reads [0x94, 0x34] (.sty (.zpx 0x34)) := by
  decide

theorem test_decode_tax : reads [0xAA] .tax := by decide

theorem test_decode_tay : reads [0xA8] .tay := by decide

theorem test_decode_txa : reads [0x8A] .txa := by decide

theorem test_decode_tya : reads [0x98] .tya := by decide

theorem test_decode_tsx : reads [0xBA] .tsx := by decide

theorem test_decode_txs : reads [0x9A] .txs := by decide

theorem test_decode_pha : reads [0x48] .pha := by decide

theorem test_decode_php : reads [0x08] .php := by decide

theorem test_decode_pla : reads [0x68] .pla := by decide

theorem test_decode_plp : reads [0x28] .plp := by decide

theorem test_decode_and :
    reads [0x21, 0x34] (.and (.mem (.izx 0x34))) ∧ reads [0x25, 0x34] (.and (.mem (.zp 0x34))) ∧
    reads [0x29, 0x34] (.and (.imm 0x34)) ∧
    reads [0x2D, 0x34, 0x12] (.and (.mem (.abs 0x1234))) ∧
    reads [0x31, 0x34] (.and (.mem (.izy 0x34))) ∧
    reads [0x35, 0x34] (.and (.mem (.zpx 0x34))) ∧
    reads [0x39, 0x34, 0x12] (.and (.mem (.aby 0x1234))) ∧
    reads [0x3D, 0x34, 0x12] (.and (.mem (.abx 0x1234))) := by
  decide

theorem test_decode_eor :
    reads [0x41, 0x34] (.eor (.mem (.izx 0x34))) ∧ reads [0x45, 0x34] (.eor (.mem (.zp 0x34))) ∧
    reads [0x49, 0x34] (.eor (.imm 0x34)) ∧
    reads [0x4D, 0x34, 0x12] (.eor (.mem (.abs 0x1234))) ∧
    reads [0x51, 0x34] (.eor (.mem (.izy 0x34))) ∧
    reads [0x55, 0x34] (.eor (.mem (.zpx 0x34))) ∧
    reads [0x59, 0x34, 0x12] (.eor (.mem (.aby 0x1234))) ∧
    reads [0x5D, 0x34, 0x12] (.eor (.mem (.abx 0x1234))) := by
  decide

theorem test_decode_ora :
    reads [0x01, 0x34] (.ora (.mem (.izx 0x34))) ∧ reads [0x05, 0x34] (.ora (.mem (.zp 0x34))) ∧
    reads [0x09, 0x34] (.ora (.imm 0x34)) ∧
    reads [0x0D, 0x34, 0x12] (.ora (.mem (.abs 0x1234))) ∧
    reads [0x11, 0x34] (.ora (.mem (.izy 0x34))) ∧
    reads [0x15, 0x34] (.ora (.mem (.zpx 0x34))) ∧
    reads [0x19, 0x34, 0x12] (.ora (.mem (.aby 0x1234))) ∧
    reads [0x1D, 0x34, 0x12] (.ora (.mem (.abx 0x1234))) := by
  decide

theorem test_decode_bit :
    reads [0x24, 0x34] (.bit (.zp 0x34)) ∧ reads [0x2C, 0x34, 0x12] (.bit (.abs 0x1234)) := by
  decide

theorem test_decode_adc :
    reads [0x61, 0x34] (.adc (.mem (.izx 0x34))) ∧ reads [0x65, 0x34] (.adc (.mem (.zp 0x34))) ∧
    reads [0x69, 0x34] (.adc (.imm 0x34)) ∧
    reads [0x6D, 0x34, 0x12] (.adc (.mem (.abs 0x1234))) ∧
    reads [0x71, 0x34] (.adc (.mem (.izy 0x34))) ∧
    reads [0x75, 0x34] (.adc (.mem (.zpx 0x34))) ∧
    reads [0x79, 0x34, 0x12] (.adc (.mem (.aby 0x1234))) ∧
    reads [0x7D, 0x34, 0x12] (.adc (.mem (.abx 0x1234))) := by
  decide

theorem test_decode_sbc :
    reads [0xE1, 0x34] (.sbc (.mem (.izx 0x34))) ∧ reads [0xE5, 0x34] (.sbc (.mem (.zp 0x34))) ∧
    reads [0xE9, 0x34] (.sbc (.imm 0x34)) ∧
    reads [0xED, 0x34, 0x12] (.sbc (.mem (.abs 0x1234))) ∧
    reads [0xF1, 0x34] (.sbc (.mem (.izy 0x34))) ∧
    reads [0xF5, 0x34] (.sbc (.mem (.zpx 0x34))) ∧
    reads [0xF9, 0x34, 0x12] (.sbc (.mem (.aby 0x1234))) ∧
    reads [0xFD, 0x34, 0x12] (.sbc (.mem (.abx 0x1234))) := by
  decide

theorem test_decode_cmp :
    reads [0xC1, 0x34] (.cmp (.mem (.izx 0x34))) ∧ reads [0xC5, 0x34] (.cmp (.mem (.zp 0x34))) ∧
    reads [0xC9, 0x34] (.cmp (.imm 0x34)) ∧
    reads [0xCD, 0x34, 0x12] (.cmp (.mem (.abs 0x1234))) ∧
    reads [0xD1, 0x34] (.cmp (.mem (.izy 0x34))) ∧
    reads [0xD5, 0x34] (.cmp (.mem (.zpx 0x34))) ∧
    reads [0xD9, 0x34, 0x12] (.cmp (.mem (.aby 0x1234))) ∧
    reads [0xDD, 0x34, 0x12] (.cmp (.mem (.abx 0x1234))) := by
  decide

theorem test_decode_cpx :
    reads [0xE0, 0x34] (.cpx (.imm 0x34)) ∧ reads [0xE4, 0x34] (.cpx (.mem (.zp 0x34))) ∧
    reads [0xEC, 0x34, 0x12] (.cpx (.mem (.abs 0x1234))) := by
  decide

theorem test_decode_cpy :
    reads [0xC0, 0x34] (.cpy (.imm 0x34)) ∧ reads [0xC4, 0x34] (.cpy (.mem (.zp 0x34))) ∧
    reads [0xCC, 0x34, 0x12] (.cpy (.mem (.abs 0x1234))) := by
  decide

theorem test_decode_inc :
    reads [0xE6, 0x34] (.inc (.zp 0x34)) ∧ reads [0xEE, 0x34, 0x12] (.inc (.abs 0x1234)) ∧
    reads [0xF6, 0x34] (.inc (.zpx 0x34)) ∧ reads [0xFE, 0x34, 0x12] (.inc (.abx 0x1234)) := by
  decide

theorem test_decode_dec :
    reads [0xC6, 0x34] (.dec (.zp 0x34)) ∧ reads [0xCE, 0x34, 0x12] (.dec (.abs 0x1234)) ∧
    reads [0xD6, 0x34] (.dec (.zpx 0x34)) ∧ reads [0xDE, 0x34, 0x12] (.dec (.abx 0x1234)) := by
  decide

theorem test_decode_inx : reads [0xE8] .inx := by decide

theorem test_decode_iny : reads [0xC8] .iny := by decide

theorem test_decode_dex : reads [0xCA] .dex := by decide

theorem test_decode_dey : reads [0x88] .dey := by decide

theorem test_decode_asl :
    reads [0x06, 0x34] (.asl (.mem (.zp 0x34))) ∧ reads [0x0A] (.asl .acc) ∧
    reads [0x0E, 0x34, 0x12] (.asl (.mem (.abs 0x1234))) ∧
    reads [0x16, 0x34] (.asl (.mem (.zpx 0x34))) ∧
    reads [0x1E, 0x34, 0x12] (.asl (.mem (.abx 0x1234))) := by
  decide

theorem test_decode_lsr :
    reads [0x46, 0x34] (.lsr (.mem (.zp 0x34))) ∧ reads [0x4A] (.lsr .acc) ∧
    reads [0x4E, 0x34, 0x12] (.lsr (.mem (.abs 0x1234))) ∧
    reads [0x56, 0x34] (.lsr (.mem (.zpx 0x34))) ∧
    reads [0x5E, 0x34, 0x12] (.lsr (.mem (.abx 0x1234))) := by
  decide

theorem test_decode_rol :
    reads [0x26, 0x34] (.rol (.mem (.zp 0x34))) ∧ reads [0x2A] (.rol .acc) ∧
    reads [0x2E, 0x34, 0x12] (.rol (.mem (.abs 0x1234))) ∧
    reads [0x36, 0x34] (.rol (.mem (.zpx 0x34))) ∧
    reads [0x3E, 0x34, 0x12] (.rol (.mem (.abx 0x1234))) := by
  decide

theorem test_decode_ror :
    reads [0x66, 0x34] (.ror (.mem (.zp 0x34))) ∧ reads [0x6A] (.ror .acc) ∧
    reads [0x6E, 0x34, 0x12] (.ror (.mem (.abs 0x1234))) ∧
    reads [0x76, 0x34] (.ror (.mem (.zpx 0x34))) ∧
    reads [0x7E, 0x34, 0x12] (.ror (.mem (.abx 0x1234))) := by
  decide

theorem test_decode_jmp :
    reads [0x4C, 0x34, 0x12] (.jmp (.abs 0x1234)) ∧
    reads [0x6C, 0x34, 0x12] (.jmp (.ind 0x1234)) := by
  decide

theorem test_decode_jsr : reads [0x20, 0x34, 0x12] (.jsr 0x1234) := by decide

theorem test_decode_rts : reads [0x60] .rts := by decide

theorem test_decode_bcc : reads [0x90, 0x34] (.bcc 0x34) := by decide

theorem test_decode_bcs : reads [0xB0, 0x34] (.bcs 0x34) := by decide

theorem test_decode_beq : reads [0xF0, 0x34] (.beq 0x34) := by decide

theorem test_decode_bmi : reads [0x30, 0x34] (.bmi 0x34) := by decide

theorem test_decode_bne : reads [0xD0, 0x34] (.bne 0x34) := by decide

theorem test_decode_bpl : reads [0x10, 0x34] (.bpl 0x34) := by decide

theorem test_decode_bvc : reads [0x50, 0x34] (.bvc 0x34) := by decide

theorem test_decode_bvs : reads [0x70, 0x34] (.bvs 0x34) := by decide

theorem test_decode_clc : reads [0x18] .clc := by decide

theorem test_decode_cld : reads [0xD8] .cld := by decide

theorem test_decode_cli : reads [0x58] .cli := by decide

theorem test_decode_clv : reads [0xB8] .clv := by decide

theorem test_decode_sec : reads [0x38] .sec := by decide

theorem test_decode_sed : reads [0xF8] .sed := by decide

theorem test_decode_sei : reads [0x78] .sei := by decide

theorem test_decode_brk : reads [0x00] .brk := by decide

theorem test_decode_rti : reads [0x40] .rti := by decide

theorem test_decode_nop : reads [0xEA] .nop := by decide

/-- The unassigned opcodes (R55). -/
theorem test_decode_unassigned :
    reads [0x02] (.ill 0x02) ∧ reads [0x0C] (.ill 0x0C) ∧ reads [0x80] (.ill 0x80) ∧
    reads [0xFF] (.ill 0xFF) := by
  decide

/-- Bytes that hold no whole instruction. -/
theorem test_decode_truncated :
    decode [] = .rejected .noOpcode ∧ decode [0xA9] = .rejected (.truncated 0xA9) ∧
    decode [0xAD, 0x34] = .rejected (.truncated 0xAD) ∧
    decode [0xA9, 0x10, 0xEA] = .instr (.lda (.imm 0x10)) [0xEA] := by
  decide

/-- A table word and the step that runs it. -/
theorem test_table_word :
    decodeTableWord 16 0x10A9 = some (.lda (.imm 0x10)) ∧
    after (State.reset.withFetchWord 16 0x10A9) (fun t => (t.a, t.pc)) = some (0x10, 0x0002) := by
  decide

/-! ### The address map at its boundaries (R34) -/

theorem test_route_boundaries :
    route .one 0x07FF = .ram 0x07FF ∧ route .one 0x0800 = .ram 0x0000 ∧
    route .one 0x1FFF = .ram 0x07FF ∧ route .one 0x2000 = .device (.ppu 0) ∧
    route .one 0x3FFF = .device (.ppu 7) ∧ route .one 0x4000 = .unmapped ∧
    route .one 0x4013 = .unmapped ∧ route .one 0x4014 = .device .oamDma ∧
    route .one 0x4015 = .unmapped ∧ route .one 0x401F = .unmapped ∧
    route .one 0x4020 = .device (.cart 0x4020) ∧ route .one 0x7FFF = .device (.cart 0x7FFF) := by
  decide

theorem test_route_rom_sizes :
    route .one 0x8000 = .rom 0x8000 ∧ route .one 0xBFFF = .rom 0xBFFF ∧
    route .one 0xC000 = .rom 0x8000 ∧ route .one 0xFFFF = .rom 0xBFFF ∧
    route .two 0xC000 = .rom 0xC000 ∧ route .two 0xFFFF = .rom 0xFFFF ∧
    route .other 0x8000 = .device (.cart 0x8000) := by
  decide

/-! ### One step of every instruction -/

/-- Spec table row `LDA $F0,X (zp wrap)`. -/
theorem test_lda_zpx_wraps :
    after { withRam [(0x0010, 0xAA), (0x0110, 0x55)] (ready 0x8000 [0xB5, 0xF0]) with x := 0x20 }
      (fun t => t.a) =
      some 0xAA := by
  decide

/-- Spec table row `LDA ($20),Y cross`. -/
theorem test_lda_izy_crosses :
    after { withRam [(0x0020, 0xF8), (0x0021, 0x02), (0x0308, 0x88)]
      (ready 0x8000 [0xB1, 0x20]) with y := 0x10 }
      (fun t => (t.a, t.cycles - 7)) =
      some (0x88, 6) := by
  decide

/-- Spec table row `LDX $10,Y`. -/
theorem test_ldx_zpy_wraps :
    after { withRam [(0x0008, 0x01)] (ready 0x8000 [0xB6, 0x10]) with y := 0xF8 }
      (fun t => t.x) =
      some 0x01 := by
  decide

/-- Spec table row `LDX $02F0,Y cross`. -/
theorem test_ldx_aby_zero :
    after { withRam [(0x0300, 0x00)] (ready 0x8000 [0xBE, 0xF0, 0x02]) with y := 0x10 }
      (fun t => (t.p, t.cycles - 7)) =
      some (0x26, 5) := by
  decide

/-- Spec table row `LDY $02FF,X cross`. -/
theorem test_ldy_abx_crosses :
    after { withRam [(0x0301, 0x80)] (ready 0x8000 [0xBC, 0xFF, 0x02]) with x := 0x02 }
      (fun t => (t.y, t.cycles - 7)) =
      some (0x80, 5) := by
  decide

/-- Spec table row `STA $02FF,X cross (no extra)`. -/
theorem test_sta_abx_pays_nothing :
    after { ready 0x8000 [0x9D, 0xFF, 0x02] with a := 0x42, x := 0x01 }
      (fun t => (t.stored 0x0300, t.cycles - 7)) =
      some (some 0x42, 5) := by
  decide

/-- Spec table row `STA $1810 (mirror)`. -/
theorem test_sta_mirror :
    after { ready 0x8000 [0x8D, 0x10, 0x18] with a := 0x99 }
      (fun t => (t.stored 0x0010, t.p)) =
      some (some 0x99, 0x24) := by
  decide

/-- Spec table row `STX $10,Y`. -/
theorem test_stx_zpy_wraps :
    after { ready 0x8000 [0x96, 0x10] with x := 0x12, y := 0xFF }
      (fun t => t.stored 0x000F) =
      some (some 0x12) := by
  decide

/-- Spec table row `STY $10,X`. -/
theorem test_sty_zpx :
    after { ready 0x8000 [0x94, 0x10] with y := 0x34, x := 0x01 }
      (fun t => t.stored 0x0011) =
      some (some 0x34) := by
  decide

/-- Spec table row `TAX`. -/
theorem test_tax_negative :
    after { ready 0x8000 [0xAA] with a := 0x80 }
      (fun t => (t.x, t.p)) =
      some (0x80, 0xA4) := by
  decide

/-- Spec table row `TAY`. -/
theorem test_tay_zero :
    after { ready 0x8000 [0xA8] with a := 0x00, y := 0x01 }
      (fun t => (t.y, t.p)) =
      some (0x00, 0x26) := by
  decide

/-- Spec table row `TXA`. -/
theorem test_txa_clears_flags :
    after { ready 0x8000 [0x8A] with x := 0x01, a := 0xFF, p := 0xA6 }
      (fun t => (t.a, t.p)) =
      some (0x01, 0x24) := by
  decide

/-- Spec table row `TYA`. -/
theorem test_tya_negative :
    after { ready 0x8000 [0x98] with y := 0xFF }
      (fun t => (t.a, t.p)) =
      some (0xFF, 0xA4) := by
  decide

/-- Spec table row `TSX`. -/
theorem test_tsx_negative :
    after (ready 0x8000 [0xBA])
      (fun t => (t.x, t.p)) =
      some (0xFD, 0xA4) := by
  decide

/-- Spec table row `TXS (no flags)`. -/
theorem test_txs_no_flags :
    after { ready 0x8000 [0x9A] with x := 0x00 }
      (fun t => (t.sp, t.p)) =
      some (0x00, 0x24) := by
  decide

/-- Spec table row `PHA at SP=00 (wrap)`. -/
theorem test_pha_wraps :
    after { ready 0x8000 [0x48] with a := 0x42, sp := 0x00 }
      (fun t => (t.stored 0x0100, t.sp)) =
      some (some 0x42, 0xFF) := by
  decide

/-- Spec table row `PHP P=00`. -/
theorem test_php_forces_bits :
    after { ready 0x8000 [0x08] with p := 0x00 }
      (fun t => (t.stored 0x01FD, t.p)) =
      some (some 0x30, 0x00) := by
  decide

/-- Spec table row `PLA at SP=FF (wrap)`. -/
theorem test_pla_wraps :
    after { withRam [(0x0100, 0x11)] (ready 0x8000 [0x68]) with sp := 0xFF }
      (fun t => (t.a, t.sp)) =
      some (0x11, 0x00) := by
  decide

/-- Spec table row `PLA zero`. -/
theorem test_pla_zero :
    after { withRam [(0x01FD, 0x00)] (ready 0x8000 [0x68]) with sp := 0xFC, a := 0x55 }
      (fun t => (t.a, t.p)) =
      some (0x00, 0x26) := by
  decide

/-- Spec table row `PLP`. -/
theorem test_plp_all_bits :
    after { withRam [(0x01FD, 0xC3)] (ready 0x8000 [0x28]) with sp := 0xFC }
      (fun t => (t.p, t.sp)) =
      some (0xC3, 0xFD) := by
  decide

/-- Spec table row `AND #$0F`. -/
theorem test_and_zero :
    after { ready 0x8000 [0x29, 0x0F] with a := 0xF0 }
      (fun t => (t.a, t.p)) =
      some (0x00, 0x26) := by
  decide

/-- Spec table row `EOR #$FF`. -/
theorem test_eor_negative :
    after { ready 0x8000 [0x49, 0xFF] with a := 0x0F }
      (fun t => (t.a, t.p)) =
      some (0xF0, 0xA4) := by
  decide

/-- Spec table row `ORA #$80`. -/
theorem test_ora_negative :
    after { ready 0x8000 [0x09, 0x80] with a := 0x01 }
      (fun t => (t.a, t.p)) =
      some (0x81, 0xA4) := by
  decide

/-- Spec table row `BIT $10 (A&M=0)`. -/
theorem test_bit_zero_and_bits :
    after { withRam [(0x0010, 0xC0)] (ready 0x8000 [0x24, 0x10]) with a := 0x0F }
      (fun t => (t.a, t.p)) =
      some (0x0F, 0xE6) := by
  decide

/-- Spec table row `BIT $10 (A&M!=0)`. -/
theorem test_bit_clears_bits :
    after { withRam [(0x0010, 0x01)] (ready 0x8000 [0x24, 0x10]) with a := 0xFF, p := 0xE6 }
      (fun t => t.p) =
      some 0x24 := by
  decide

/-- Spec table row `ADC #$50 (doc ex. 2)`. -/
theorem test_adc_overflow :
    after { ready 0x8000 [0x69, 0x50] with a := 0x50 }
      (fun t => (t.a, t.p)) =
      some (0xA0, 0xE4) := by
  decide

/-- Spec table row `ADC #$00 C=1`. -/
theorem test_adc_carry_in_and_out :
    after { ready 0x8000 [0x69, 0x00] with a := 0xFF, p := 0x25 }
      (fun t => (t.a, t.p)) =
      some (0x00, 0x27) := by
  decide

/-- Spec table row `SBC #$10 C=0`. -/
theorem test_sbc_borrow :
    after { ready 0x8000 [0xE9, 0x10] with a := 0x50, p := 0x24 }
      (fun t => (t.a, t.p)) =
      some (0x3F, 0x25) := by
  decide

/-- Spec table row `SBC #$B0 C=1 (overflow)`. -/
theorem test_sbc_overflow :
    after { ready 0x8000 [0xE9, 0xB0] with a := 0x50, p := 0x25 }
      (fun t => (t.a, t.p)) =
      some (0xA0, 0xE4) := by
  decide

/-- Spec table row `CMP #$60 less`. -/
theorem test_cmp_less :
    after { ready 0x8000 [0xC9, 0x60] with a := 0x50 }
      (fun t => t.p) =
      some 0xA4 := by
  decide

/-- Spec table row `CMP #$01 A=80`. -/
theorem test_cmp_keeps_overflow :
    after { ready 0x8000 [0xC9, 0x01] with a := 0x80, p := 0x64 }
      (fun t => t.p) =
      some 0x65 := by
  decide

/-- Spec table row `CPX $10`. -/
theorem test_cpx_zp :
    after { withRam [(0x0010, 0x01)] (ready 0x8000 [0xE4, 0x10]) with x := 0x00 }
      (fun t => (t.x, t.p)) =
      some (0x00, 0xA4) := by
  decide

/-- Spec table row `CPY $0200`. -/
theorem test_cpy_abs :
    after { withRam [(0x0200, 0x80)] (ready 0x8000 [0xCC, 0x00, 0x02]) with y := 0x7F }
      (fun t => (t.y, t.p)) =
      some (0x7F, 0xA4) := by
  decide

/-- Spec table row `INC $10 FF->00`. -/
theorem test_inc_wraps_and_keeps_carry :
    after { withRam [(0x0010, 0xFF)] (ready 0x8000 [0xE6, 0x10]) with p := 0x25 }
      (fun t => (t.stored 0x0010, t.p)) =
      some (some 0x00, 0x27) := by
  decide

/-- Spec table row `DEC $10,X 00->FF`. -/
theorem test_dec_zpx_wraps :
    after { withRam [(0x0011, 0x00)] (ready 0x8000 [0xD6, 0x10]) with x := 0x01 }
      (fun t => (t.stored 0x0011, t.p)) =
      some (some 0xFF, 0xA4) := by
  decide

/-- Spec table row `INX FF->00`. -/
theorem test_inx_wraps :
    after { ready 0x8000 [0xE8] with x := 0xFF }
      (fun t => (t.x, t.p)) =
      some (0x00, 0x26) := by
  decide

/-- Spec table row `INY`. -/
theorem test_iny :
    after { ready 0x8000 [0xC8] with y := 0x00 }
      (fun t => (t.y, t.p)) =
      some (0x01, 0x24) := by
  decide

/-- Spec table row `DEX 00->FF`. -/
theorem test_dex_wraps :
    after { ready 0x8000 [0xCA] with x := 0x00 }
      (fun t => (t.x, t.p)) =
      some (0xFF, 0xA4) := by
  decide

/-- Spec table row `DEY 80->7F`. -/
theorem test_dey_clears_negative :
    after { ready 0x8000 [0x88] with y := 0x80, p := 0xA4 }
      (fun t => (t.y, t.p)) =
      some (0x7F, 0x24) := by
  decide

/-- Spec table row `ASL $10`. -/
theorem test_asl_zp :
    after { withRam [(0x0010, 0xFF)] (ready 0x8000 [0x06, 0x10]) with a := 0x11 }
      (fun t => (t.stored 0x0010, t.p)) =
      some (some 0xFE, 0xA5) := by
  decide

/-- Spec table row `LSR $02FF,X cross (no extra)`. -/
theorem test_lsr_abx_pays_nothing :
    after { withRam [(0x0300, 0xFE)] (ready 0x8000 [0x5E, 0xFF, 0x02]) with x := 0x01 }
      (fun t => (t.stored 0x0300, t.cycles - 7)) =
      some (some 0x7F, 7) := by
  decide

/-- Spec table row `ROL A 80 C=0 (Z written)`. -/
theorem test_rol_acc_zero :
    after { ready 0x8000 [0x2A] with a := 0x80 }
      (fun t => (t.a, t.p)) =
      some (0x00, 0x27) := by
  decide

/-- Spec table row `ROR $0200 01 C=1`. -/
theorem test_ror_abs_carry_in_and_out :
    after { withRam [(0x0200, 0x01)] (ready 0x8000 [0x6E, 0x00, 0x02]) with p := 0x25 }
      (fun t => (t.stored 0x0200, t.p)) =
      some (some 0x80, 0xA5) := by
  decide

/-- Spec table row `JMP ($02FF) page bug`. -/
theorem test_jmp_ind_page_wrap :
    after (withRam [(0x0200, 0x12), (0x02FF, 0x34), (0x0300, 0x56)]
      (ready 0x8000 [0x6C, 0xFF, 0x02]))
      (fun t => t.pc) =
      some 0x1234 := by
  decide

/-- Spec table row `JSR at SP=00`. -/
theorem test_jsr_stack_wraps :
    after { ready 0x8000 [0x20, 0x00, 0x90] with sp := 0x00 }
      (fun t => (t.stored 0x0100, t.stored 0x01FF, t.pc)) =
      some (some 0x80, some 0x02, 0x9000) := by
  decide

/-- Spec table row `RTS FFFF->0000`. -/
theorem test_rts_wraps :
    after { withRam [(0x01FC, 0xFF), (0x01FD, 0xFF)] (ready 0x8000 [0x60]) with sp := 0xFB }
      (fun t => t.pc) =
      some 0x0000 := by
  decide

/-- Spec table row `BCC +5 not taken`. -/
theorem test_bcc_not_taken :
    after { ready 0x8000 [0x90, 0x05] with p := 0x25 }
      (fun t => (t.pc, t.cycles - 7)) =
      some (0x8002, 2) := by
  decide

/-- Spec table row `BCS +5 taken`. -/
theorem test_bcs_taken :
    after { ready 0x8000 [0xB0, 0x05] with p := 0x25 }
      (fun t => (t.pc, t.cycles - 7)) =
      some (0x8007, 3) := by
  decide

/-- Spec table row `BEQ +1 at $80FD cross`. -/
theorem test_beq_crosses :
    after { ready 0x80FD [0xF0, 0x01] with p := 0x26 }
      (fun t => (t.pc, t.cycles - 7)) =
      some (0x8100, 4) := by
  decide

/-- Spec table row `BEQ +0 at $80FE (next=$8100, same page as target)`. -/
theorem test_beq_next_page_no_cross :
    after { ready 0x80FE [0xF0, 0x00] with p := 0x26 }
      (fun t => (t.pc, t.cycles - 7)) =
      some (0x8100, 3) := by
  decide

/-- Spec table row `BNE -5 at $8005`. -/
theorem test_bne_backward :
    after (ready 0x8005 [0xD0, 0xFB])
      (fun t => (t.pc, t.cycles - 7)) =
      some (0x8002, 3) := by
  decide

/-- Spec table row `BMI -2 (self)`. -/
theorem test_bmi_self :
    after { ready 0x8000 [0x30, 0xFE] with p := 0xA4 }
      (fun t => (t.pc, t.cycles - 7)) =
      some (0x8000, 3) := by
  decide

/-- Spec table row `BPL -128 at $8000 cross`. -/
theorem test_bpl_crosses :
    after (ready 0x8000 [0x10, 0x80])
      (fun t => (t.pc, t.cycles - 7)) =
      some (0x7F82, 4) := by
  decide

/-- Spec table row `BVC +127`. -/
theorem test_bvc_forward :
    after (ready 0x8000 [0x50, 0x7F])
      (fun t => (t.pc, t.cycles - 7)) =
      some (0x8081, 3) := by
  decide

/-- Spec table row `BVS +16 taken`. -/
theorem test_bvs_taken :
    after { ready 0x8000 [0x70, 0x10] with p := 0x64 }
      (fun t => (t.pc, t.cycles - 7)) =
      some (0x8012, 3) := by
  decide

/-- Spec table row `CLC`. -/
theorem test_clc :
    after { ready 0x8000 [0x18] with p := 0xFF }
      (fun t => t.p) =
      some 0xFE := by
  decide

/-- Spec table row `CLD`. -/
theorem test_cld :
    after { ready 0x8000 [0xD8] with p := 0x2C }
      (fun t => t.p) =
      some 0x24 := by
  decide

/-- Spec table row `CLI`. -/
theorem test_cli :
    after (ready 0x8000 [0x58])
      (fun t => t.p) =
      some 0x20 := by
  decide

/-- Spec table row `CLV`. -/
theorem test_clv :
    after { ready 0x8000 [0xB8] with p := 0x64 }
      (fun t => t.p) =
      some 0x24 := by
  decide

/-- Spec table row `SEC`. -/
theorem test_sec :
    after (ready 0x8000 [0x38])
      (fun t => t.p) =
      some 0x25 := by
  decide

/-- Spec table row `SED`. -/
theorem test_sed :
    after (ready 0x8000 [0xF8])
      (fun t => t.p) =
      some 0x2C := by
  decide

/-- Spec table row `SEI`. -/
theorem test_sei :
    after { ready 0x8000 [0x78] with p := 0x20 }
      (fun t => t.p) =
      some 0x24 := by
  decide

/-- Spec table row `BRK at SP=01 (wrap)`. -/
theorem test_brk_stack_wraps :
    after { withVectors (ready 0x8000 [0x00]) with sp := 0x01 }
      (fun t => (t.stored 0x0100, t.stored 0x0101, t.stored 0x01FF, t.pc)) =
      some (some 0x02, some 0x80, some 0x34, 0xA000) := by
  decide

/-- Spec table row `BRK P=00`. -/
theorem test_brk_sets_interrupt_disable :
    after { withVectors (ready 0x8000 [0x00]) with p := 0x00 }
      (fun t => (t.p, t.pc)) =
      some (0x04, 0xA000) := by
  decide

/-- Spec table row `RTI`. -/
theorem test_rti_restores :
    after { withRam [(0x01FB, 0x34), (0x01FC, 0x12), (0x01FD, 0x80)]
      (ready 0x8000 [0x40]) with sp := 0xFA }
      (fun t => (t.p, t.pc)) =
      some (0x34, 0x8012) := by
  decide

/-- Spec table row `NOP`. -/
theorem test_nop :
    after (ready 0x8000 [0xEA])
      (fun t => (t.pc, t.cycles - 7)) =
      some (0x8001, 2) := by
  decide

/-- Spec table row `ILL $02`. -/
theorem test_ill_no_cycles :
    after (ready 0x8000 [0x02])
      (fun t => (t.pc, t.cycles - 7)) =
      some (0x8001, 0) := by
  decide

/-- Spec table row `ILL $0C (operands not skipped)`. -/
theorem test_ill_skips_no_operands :
    after (ready 0x8000 [0x0C, 0xE8, 0xE8])
      (fun t => (t.pc, t.x)) =
      some (0x8001, 0x00) := by
  decide

/-! ### Reset, NMI service and the collaborators -/

/-- Spec table row `reset, vector = C123`. -/
theorem test_reset_vector :
    (hostReset (loadBytes 0xFFFC [0x23, 0xC1] { State.reset with p := 0xFF, sp := 0x80 })).pc =
      0xC123 := by
  decide

/-- Spec table row `NMI at SP=01 (stack wrap)`. -/
theorem test_nmi_stack_wraps :
    after (requestNmi { withVectors (ready 0x8000 [0xEA]) with sp := 0x01 })
      (fun t => (t.stored 0x0101, t.stored 0x01FF, t.pc, t.nmiPending)) =
      some (some 0x80, some 0x24, 0x9000, false) := by
  decide

/-- Spec table row `NMI with P=34 (B held 1: pushed as held)`. -/
theorem test_nmi_pushes_break_as_held :
    after (requestNmi { withVectors (ready 0x8000 [0xEA]) with p := 0x34 })
      (fun t => (t.stored 0x01FB, t.p)) =
      some (some 0x34, 0x34) := by
  decide

/-- A store to the PPU window hands the byte to register `addr mod 8` (R36). -/
theorem test_sta_ppu :
    after { ready 0x8000 [0x8D, 0x0E, 0x20] with a := 0x5A } (fun t => t.devLog) =
      some [.write (.ppu 6) 0x5A] := by
  decide

/-! ### Witnesses: the hypotheses of the statements are met together -/

theorem witness_DecodeEncodeRoundTrip :
    WellFormed (.lda (.imm 0xFF)) ∧ WellFormed (.ror (.mem (.abx 0xFFFF))) ∧
    WellFormed (.ill 0xFF) := by
  decide

theorem witness_DecodedBytesAreTheEncoding :
    decode [0x6C, 0xFF, 0x02, 0xEA] = .instr (.jmp (.ind 0x02FF)) [0xEA] := by
  decide

theorem witness_OpcodeAloneGivesLength :
    (lookup 0xAD).mode.operandWidth ≤ [0x34#8, 0x12#8].length ∧
    [0x34#8].length < (lookup 0xAD).mode.operandWidth ∧ 0xFF#8 ∈ unassignedOpcodes := by
  decide

theorem witness_BusByRegion :
    (memRead 0x1FFF (withRam [(0x07FF, 0x5A)] State.reset)).1 = 0x5A ∧
    (memRead 0x3FFF State.reset).2.devLog = [.read (.ppu 7)] ∧
    (memRead 0x4013 State.reset).1 = 0x00 ∧
    (memRead 0x4014 State.reset).2.devLog = [.read .oamDma] ∧
    (memRead 0x401F State.reset).1 = 0x00 ∧
    (memRead 0x7FFF State.reset).2.devLog = [.read (.cart 0x7FFF)] ∧
    (memRead 0xFFFF (loadBytes 0xBFFF [0xA5] State.reset)).1 = 0xA5 ∧
    (memRead 0xFFFF { State.reset with prg := .other }).2.devLog = [.read (.cart 0xFFFF)] := by
  decide

theorem witness_RamIsMirroredStorage :
    (0x07FF#16).toNat < 0x2000 ∧ (0x1FFF#16).toNat < 0x2000 ∧
    (0x1FFF#16).toNat % 0x0800 = (0x07FF#16).toNat % 0x0800 ∧
    (memRead 0x1FFF (memWrite 0x07FF 0x5A State.reset)).1 = 0x5A := by
  decide

theorem witness_UnmappedAddressesReadZero :
    (0x4000 ≤ (0x4000#16).toNat ∧ (0x4000#16).toNat ≤ 0x4013) ∧
    (0x4000 ≤ (0x4013#16).toNat ∧ (0x4013#16).toNat ≤ 0x4013) ∧
    (0x4015 ≤ (0x4015#16).toNat ∧ (0x4015#16).toNat ≤ 0x401F) ∧
    (0x4015 ≤ (0x401F#16).toNat ∧ (0x401F#16).toNat ≤ 0x401F) ∧
    after { ready 0x8000 [0xAD, 0x00, 0x40] with a := 0x55 } (fun t => (t.a, t.p)) =
      some (0x00, 0x26) := by
  decide

theorem witness_ProgramRomIsReadOnly :
    0x8000 ≤ (0x8000#16).toNat ∧ State.reset.prg = .one ∧
    0x8000 ≤ (0xFFFF#16).toNat ∧ ({ State.reset with prg := .two } : State).prg = .two ∧
    (0xBFFF#16).toNat < 0xC000 := by
  decide

theorem witness_MemoryStaysCanonical :
    State.reset.mem.wf ∧ Memory.wf [(0x0010, 0x01)] ∧ ¬Memory.wf [(0x0010, 0x00)] ∧
    (memWrite 0x0010 0x00 (memWrite 0x0010 0x01 State.reset)).mem = [] := by
  decide

/-- The premise of every statement about one instruction, and a state met in no run. -/
theorem witness_Boundary :
    Boundary State.reset ∧ Boundary { State.reset with p := 0xFF, sp := 0x00, x := 0xFF } := by
  decide

theorem witness_LoadsFillTheRegister :
    Boundary State.reset ∧
    ∃ t, exec (.lda (.imm 0x80)) State.reset = .next t ∧ t.a = 0x80 :=
  ⟨by decide, _, rfl, by decide⟩

theorem witness_StoresWriteTheRegister :
    Boundary State.reset ∧
    ∃ t, exec (.stx (.zp 0x10)) State.reset = .next t ∧ t.stored 0x0010 = some 0x00 :=
  ⟨by decide, _, rfl, by decide⟩

theorem witness_TransfersCopyRegisters :
    Boundary State.reset ∧
    ∃ t, exec (.tsx) State.reset = .next t ∧ t.x = 0xFD :=
  ⟨by decide, _, rfl, by decide⟩

theorem witness_PushInstructions :
    Boundary State.reset ∧
    ∃ t, exec (.php) State.reset = .next t ∧ t.stored 0x01FD = some 0x34 :=
  ⟨by decide, _, rfl, by decide⟩

theorem witness_PullInstructions :
    Boundary State.reset ∧
    ∃ t, exec (.plp) State.reset = .next t ∧ t.p = 0x00 :=
  ⟨by decide, _, rfl, by decide⟩

theorem witness_LogicalOperations :
    Boundary State.reset ∧
    ∃ t, exec (.ora (.imm 0x81)) State.reset = .next t ∧ t.a = 0x81 :=
  ⟨by decide, _, rfl, by decide⟩

theorem witness_BitTestsMemory :
    Boundary State.reset ∧
    ∃ t, exec (.bit (.zp 0x10)) State.reset = .next t ∧ t.p = 0x26 :=
  ⟨by decide, _, rfl, by decide⟩

theorem witness_AdcAddsWithCarry :
    Boundary State.reset ∧
    ∃ t, exec (.adc (.imm 0x7F)) State.reset = .next t ∧ t.a = 0x7F :=
  ⟨by decide, _, rfl, by decide⟩

theorem witness_SbcSubtractsWithBorrow :
    Boundary State.reset ∧
    ∃ t, exec (.sbc (.imm 0x00)) State.reset = .next t ∧ t.a = 0xFF :=
  ⟨by decide, _, rfl, by decide⟩

theorem witness_ComparesSetFlags :
    Boundary State.reset ∧
    ∃ t, exec (.cpy (.imm 0x00)) State.reset = .next t ∧ t.p = 0x27 :=
  ⟨by decide, _, rfl, by decide⟩

theorem witness_MemoryIncrementDecrement :
    Boundary State.reset ∧
    ∃ t, exec (.dec (.zp 0x10)) State.reset = .next t ∧ t.stored 0x0010 = some 0xFF :=
  ⟨by decide, _, rfl, by decide⟩

theorem witness_RegisterIncrementDecrement :
    Boundary State.reset ∧
    ∃ t, exec (.dex) State.reset = .next t ∧ t.x = 0xFF :=
  ⟨by decide, _, rfl, by decide⟩

theorem witness_ShiftsAndRotates :
    Boundary State.reset ∧
    ∃ t, exec (.lsr .acc) State.reset = .next t ∧ t.p = 0x26 :=
  ⟨by decide, _, rfl, by decide⟩

theorem witness_JumpSetsPc :
    Boundary State.reset ∧
    ∃ t, exec (.jmp (.abs 0xFFFF)) State.reset = .next t ∧ t.pc = 0xFFFF :=
  ⟨by decide, _, rfl, by decide⟩

theorem witness_JsrPushesReturnAddress :
    Boundary State.reset ∧
    ∃ t, exec (.jsr 0x9000) State.reset = .next t ∧ t.stored 0x01FD = some 0xFF :=
  ⟨by decide, _, rfl, by decide⟩

theorem witness_RtsReturns :
    Boundary State.reset ∧
    ∃ t, exec (.rts) State.reset = .next t ∧ t.pc = 0x0001 :=
  ⟨by decide, _, rfl, by decide⟩

theorem witness_FlagOperations :
    Boundary State.reset ∧
    ∃ t, exec (.sed) State.reset = .next t ∧ t.p = 0x2C :=
  ⟨by decide, _, rfl, by decide⟩

theorem witness_BrkEntersHandler :
    Boundary State.reset ∧
    ∃ t, exec (.brk) State.reset = .next t ∧ t.sp = 0xFA :=
  ⟨by decide, _, rfl, by decide⟩

theorem witness_RtiRestoresStatusAndPc :
    Boundary State.reset ∧
    ∃ t, exec (.rti) State.reset = .next t ∧ t.p = 0x00 :=
  ⟨by decide, _, rfl, by decide⟩

theorem witness_NopDoesNothing :
    Boundary State.reset ∧
    ∃ t, exec (.nop) State.reset = .next t ∧ t.cycles = 9 :=
  ⟨by decide, _, rfl, by decide⟩

theorem witness_UnassignedOpcodesDoNothing :
    Boundary State.reset ∧
    ∃ t, exec (.ill 0xFF) State.reset = .next t ∧ t.cycles = 7 :=
  ⟨by decide, _, rfl, by decide⟩

/-- The steps of `NopDoesNothing` and `UnassignedOpcodesDoNothing`. -/
theorem witness_StepOfOneByteInstructions :
    Boundary (ready 0x8000 [0xEA]) ∧ (ready 0x8000 [0xEA]).nmiPending = false ∧
    (memRead 0x8000 (ready 0x8000 [0xEA])).1 = 0xEA ∧
    Boundary (ready 0xFFFF [0x02]) ∧ (ready 0xFFFF [0x02]).nmiPending = false ∧
    (memRead 0xFFFF (ready 0xFFFF [0x02])).1 = 0x02 ∧ 0x02#8 ∈ unassignedOpcodes := by
  decide

/-- The mode clauses of `ZeroPageAddresses`, `JumpSetsPc` and `BranchesOnFlags`. -/
theorem witness_ModesOfFewMnemonics :
    WellFormed (.ldx (.mem (.zpy 0xFF))) ∧ (Instr.ldx (.mem (.zpy 0xFF))).mode = .zpy ∧
    (Instr.jmp (.ind 0x02FF)).mode = .ind ∧ (Instr.bvs 0x80).mode = .rel := by
  decide

theorem witness_BranchesOnFlags :
    Boundary State.reset ∧ State.reset.flag .c = false ∧ State.reset.flag .z ≠ true ∧
    State.reset.flag .n ≠ true ∧ State.reset.flag .v = false ∧
    (∃ t, exec (.bcc 0x80) State.reset = .next t ∧ t.pc = 0xFF80 ∧ t.cycles = 11) ∧
    ∃ t, exec (.beq 0x7F) State.reset = .next t ∧ t.pc = 0x0000 ∧ t.cycles = 9 :=
  ⟨by decide, by decide, by decide, by decide, by decide, ⟨_, rfl, by decide, by decide⟩,
    ⟨_, rfl, by decide, by decide⟩⟩

theorem witness_StepRunsTheDecodedInstruction :
    (ready 0xFFFE [0xAD, 0x10, 0x00]).nmiPending = false ∧
    decode [0xAD, 0x10, 0x00] = .instr (.lda (.mem (.abs 0x0010))) [] ∧
    (ready 0xFFFE [0xAD, 0x10, 0x00]).stored 0xFFFE = some 0xAD ∧
    (ready 0xFFFE [0xAD, 0x10, 0x00]).stored 0xFFFF = some 0x10 ∧
    (ready 0xFFFE [0xAD, 0x10, 0x00]).stored 0x0000 = some 0x00 := by
  decide

theorem witness_StepServicesPendingNmi : (requestNmi State.reset).nmiPending = true := rfl

theorem witness_StepKeepsTheInvariant :
    State.reset.Inv ∧ ∃ t, step State.reset = .next t ∧ t.mem = [(0x01FB, 0x34), (0x01FC, 0x02)] :=
  ⟨by decide, _, rfl, by decide⟩

theorem witness_StepCostInRange :
    Boundary State.reset ∧ Boundary (ready 0x8000 [0x02]) ∧
    after (ready 0x8000 [0x02]) (fun t => t.cycles) = some 7 ∧
    after (ready 0x8000 [0xFE, 0x10, 0x00]) (fun t => t.cycles) = some 14 := by
  decide

theorem witness_PageCrossCycleForListedOpcodes :
    WellFormed (.lda (.mem (.abx 0x02FF))) ∧ (Instr.lda (.mem (.abx 0x02FF))).mode ≠ .rel ∧
    Boundary { State.reset with x := 0x01 } ∧
    ∃ t, exec (.lda (.mem (.abx 0x02FF))) { State.reset with x := 0x01 } = .next t ∧
      t.cycles = 12 :=
  ⟨by decide, by decide, by decide, _, rfl, by decide⟩

theorem witness_OnlyRamChanges :
    (∃ t, step State.reset = .next t) ∧ (State.reset.target 0x8000).isRam = false ∧
    (State.reset.target 0x4000).isRam = false := by
  exact ⟨⟨_, rfl⟩, by decide, by decide⟩

theorem witness_OnlyWritersChangeMemory :
    Instr.mnemonic .tax ∉ memoryWriters ∧ (Instr.asl .acc).mode = .acc ∧
    (∃ t, exec .tax State.reset = .next t) ∧ ∃ t, exec (.asl .acc) State.reset = .next t :=
  ⟨by decide, by decide, ⟨_, rfl⟩, ⟨_, rfl⟩⟩

theorem witness_FlagWritersAreTheListedOnes :
    (∃ t, exec .brk State.reset = .next t) ∧ Instr.mnemonic .brk ∉ flagWriters .b :=
  ⟨⟨_, rfl⟩, by decide⟩

theorem witness_RegisterWritersAreTheListedOnes :
    (∃ t, exec .pla State.reset = .next t) ∧ Instr.mnemonic .pla ∉ regWriters .x :=
  ⟨⟨_, rfl⟩, by decide⟩

theorem witness_OnlyTransfersMovePc :
    (∃ t, exec .pha State.reset = .next t) ∧ Instr.mnemonic .pha ∉ pcWriters :=
  ⟨⟨_, rfl⟩, by decide⟩

theorem witness_NoInstructionTouchesTheRequest :
    ∃ t, exec .rti (requestNmi State.reset) = .next t ∧ t.nmiPending = true :=
  ⟨_, rfl, by decide⟩

end Sys2Proof.Tests
end

section
/-! SUPPORT. What every instruction does, said once: the state its handler leaves before the end of
the step, the cycles the handler adds, and the one equation that ties both to `exec`. -/

namespace Sys2Proof.Machine

/-- Writes an 8-bit register and nothing else. -/
def State.withReg (r : Reg) (v : Byte) (s : State) : State :=
  match r with
  | .a => { s with a := v }
  | .x => { s with x := v }
  | .y => { s with y := v }
  | .sp => { s with sp := v }

/-- A register takes a byte, and Zero and Negative show it (R20): the effect that loads, transfers,
PLA, the logical operations and the register increments share. -/
def loadReg (r : Reg) (v : Byte) (s : State) : State := setZN v (s.withReg r v)

/-- The effect of a branch (R135): the cycles it adds and the state it leaves. -/
def branched (cond : Bool) (off : Byte) (s : State) : Nat × State :=
  (if cond then takenCycles s.pc (branchTarget s.pc off) else 0,
    { s with pc := if cond then branchTarget s.pc off else s.pc })

/-- What the handler of an instruction does before the end of the step (`exec_eq_ended`): the cycles
it adds to the base cost, and the state it leaves. -/
def handled (i : Instr) (s : State) : Nat × State :=
  match i with
  | .lda o => (0, markEligible (loadReg .a (readData o s).1 (readData o s).2))
  | .ldx o => (0, markEligible (loadReg .x (readData o s).1 (readData o s).2))
  | .ldy o => (0, markEligible (loadReg .y (readData o s).1 (readData o s).2))
  | .sta m => (0, writeMem m s.a s)
  | .stx m => (0, writeMem m s.x s)
  | .sty m => (0, writeMem m s.y s)
  | .tax => (0, loadReg .x s.a s)
  | .tay => (0, loadReg .y s.a s)
  | .txa => (0, loadReg .a s.x s)
  | .tya => (0, loadReg .a s.y s)
  | .tsx => (0, loadReg .x s.sp s)
  | .txs => (0, s.withReg .sp s.x)
  | .pha => (0, push s.a s)
  | .php => (0, push (statusForPush true s.p) s)
  | .pla => (0, loadReg .a (pull s).1 (pull s).2)
  | .plp => (0, { (pull s).2 with p := (pull s).1 })
  | .and o =>
    (0, markEligible (loadReg .a ((readData o s).2.a &&& (readData o s).1) (readData o s).2))
  | .eor o =>
    (0, markEligible (loadReg .a ((readData o s).2.a ^^^ (readData o s).1) (readData o s).2))
  | .ora o =>
    (0, markEligible (loadReg .a ((readData o s).2.a ||| (readData o s).1) (readData o s).2))
  | .bit m => (0, bitFlags (readMem m s).1 (readMem m s).2)
  | .adc o => (0, markEligible (addCore (readData o s).1 (readData o s).2))
  | .sbc o => (0, markEligible (addCore (~~~(readData o s).1) (readData o s).2))
  | .cmp o => (0, markEligible (compareFlags (readData o s).2.a (readData o s).1 (readData o s).2))
  | .cpx o => (0, compareFlags (readData o s).2.x (readData o s).1 (readData o s).2)
  | .cpy o => (0, compareFlags (readData o s).2.y (readData o s).1 (readData o s).2)
  | .inc m => (0, setZN (modifyMem (fun b => b + 1) m s).1 (modifyMem (fun b => b + 1) m s).2)
  | .dec m => (0, setZN (modifyMem (fun b => b - 1) m s).1 (modifyMem (fun b => b - 1) m s).2)
  | .inx => (0, loadReg .x (s.x + 1) s)
  | .iny => (0, loadReg .y (s.y + 1) s)
  | .dex => (0, loadReg .x (s.x - 1) s)
  | .dey => (0, loadReg .y (s.y - 1) s)
  | .asl o => (0, shiftOp aslByte o s)
  | .lsr o => (0, shiftOp lsrByte o s)
  | .rol o => (0, shiftOp rolByte o s)
  | .ror o => (0, shiftOp rorByte o s)
  | .jmp t => (0, { (resolveJump t s).2 with pc := (resolveJump t s).1 })
  | .jsr a => (0, { pushWord (s.pc - 1) s with pc := a })
  | .rts => (0, { (pullWord s).2 with pc := (pullWord s).1 + 1 })
  | .bcc off => branched (!s.flag .c) off s
  | .bcs off => branched (s.flag .c) off s
  | .beq off => branched (s.flag .z) off s
  | .bne off => branched (!s.flag .z) off s
  | .bmi off => branched (s.flag .n) off s
  | .bpl off => branched (!s.flag .n) off s
  | .bvc off => branched (!s.flag .v) off s
  | .bvs off => branched (s.flag .v) off s
  | .clc => (0, setFlag .c false s)
  | .cld => (0, setFlag .d false s)
  | .cli => (0, setFlag .i false s)
  | .clv => (0, setFlag .v false s)
  | .sec => (0, setFlag .c true s)
  | .sed => (0, setFlag .d true s)
  | .sei => (0, setFlag .i true s)
  | .brk => (0, takeInterrupt (s.pc + 1) true brkVector s)
  | .rti => (0, returnFromInterrupt s)
  | .nop => (0, s)
  | .ill _ => (0, s)

/-- Every instruction completes: its handler, then the end of the step (R80, R84). -/
theorem exec_eq_ended (i : Instr) (s : State) :
    exec i s = ended i (handled i s).1 (handled i s).2 := by
  cases i with
  | bcc | bcs | beq | bne | bmi | bpl | bvc | bvs => exact branch_eq _ _ _ _
  | _ => rfl

/-- The state an instruction ends in (R80, R84). -/
theorem eq_account_of_exec {i : Instr} {s t : State} (h : exec i s = .next t) :
    t = account (i.baseCycles + (handled i s).1 + pageCrossCycle (handled i s).2) (handled i s).2 :=
  ended_inj (exec_eq_ended i s ▸ h)

/-! ### The fields after a register is loaded -/

@[simp] theorem withReg_pc (r : Reg) (v : Byte) (s : State) : (s.withReg r v).pc = s.pc := by
  cases r <;> rfl
@[simp] theorem withReg_p (r : Reg) (v : Byte) (s : State) : (s.withReg r v).p = s.p := by
  cases r <;> rfl
@[simp] theorem withReg_nmiPending (r : Reg) (v : Byte) (s : State) :
    (s.withReg r v).nmiPending = s.nmiPending := by
  cases r <;> rfl
@[simp] theorem withReg_mem (r : Reg) (v : Byte) (s : State) : (s.withReg r v).mem = s.mem := by
  cases r <;> rfl
@[simp] theorem withReg_prg (r : Reg) (v : Byte) (s : State) : (s.withReg r v).prg = s.prg := by
  cases r <;> rfl
@[simp] theorem flag_withReg (r : Reg) (v : Byte) (s : State) (f : Flag) :
    (s.withReg r v).flag f = s.flag f := by
  cases r <;> rfl

@[simp] theorem loadReg_pc (r : Reg) (v : Byte) (s : State) : (loadReg r v s).pc = s.pc := by
  simp [loadReg]
@[simp] theorem loadReg_nmiPending (r : Reg) (v : Byte) (s : State) :
    (loadReg r v s).nmiPending = s.nmiPending := by
  simp [loadReg]
@[simp] theorem loadReg_mem (r : Reg) (v : Byte) (s : State) : (loadReg r v s).mem = s.mem := by
  simp [loadReg]
@[simp] theorem loadReg_prg (r : Reg) (v : Byte) (s : State) : (loadReg r v s).prg = s.prg := by
  simp [loadReg]

/-- The bits of P after a register is loaded (R20). -/
@[simp] theorem flag_loadReg (r : Reg) (v : Byte) (s : State) (f : Flag) :
    (loadReg r v s).flag f =
      if f = .n then v.getLsbD 7 else if f = .z then v == 0 else s.flag f := by
  simp [loadReg]

/-! ### The state after a branch -/

/-- A branch writes PC and nothing else (R135). -/
@[simp] theorem branched_snd (cond : Bool) (off : Byte) (s : State) :
    (branched cond off s).2 = { s with pc := if cond then branchTarget s.pc off else s.pc } := rfl

end Sys2Proof.Machine
end

section
/-! SUPPORT. Which handler writes what (`10_state.md` R11 to R18, R21, R22): a field or bit is
unchanged by every instruction that the spec does not list as its writer. The end of the step adds
cycles and clears the transient flags only. -/

namespace Sys2Proof.Machine

/-! ### The NMI request and the size of the ROM -/

@[simp] theorem handled_nmiPending (i : Instr) (s : State) :
    (handled i s).2.nmiPending = s.nmiPending := by
  cases i <;> simp [handled, pullWord_eq, returnFromInterrupt_eq]

@[simp] theorem handled_prg (i : Instr) (s : State) : (handled i s).2.prg = s.prg := by
  cases i <;> simp [handled, pullWord_eq, returnFromInterrupt_eq]

/-- Settles O58: no handler writes either field, and the end of the step clears both flags. -/
theorem noInstructionTouchesTheRequest : Obligations.NoInstructionTouchesTheRequest := by
  intro i s t h
  rw [eq_account_of_exec h]
  exact ⟨handled_nmiPending i s, handled_prg i s, rfl, rfl⟩

/-! ### The program counter -/

/-- A handler that transfers no control leaves PC alone (R15). -/
theorem handled_pc {i : Instr} (h : i.mnemonic ∉ pcWriters) (s : State) :
    (handled i s).2.pc = s.pc := by
  cases i with
  | jmp | jsr | rts | rti | brk | bcc | bcs | beq | bne | bmi | bpl | bvc | bvs =>
    simp [Instr.mnemonic, pcWriters] at h
  | _ => simp [handled]

/-- Settles O57: the end of the step leaves PC where the handler left it. -/
theorem onlyTransfersMovePc : Obligations.OnlyTransfersMovePc := by
  intro i s t h hi
  rw [eq_account_of_exec h]
  exact handled_pc hi s

/-! ### The 8-bit registers -/

@[simp] theorem reg_account (n : Nat) (s : State) (r : Reg) : (account n s).reg r = s.reg r := by
  cases r <;> rfl

/-- A handler leaves the registers alone that its instruction is not listed to write (R11 to R14).
-/
theorem handled_reg {i : Instr} {r : Reg} (h : i.mnemonic ∉ regWriters r) (s : State) :
    (handled i s).2.reg r = s.reg r := by
  cases r with
  | a =>
    cases i with
    | lda | pla | txa | tya | and | eor | ora | adc | sbc | asl | lsr | rol | ror =>
      simp [Instr.mnemonic, regWriters] at h
    | _ =>
      simp [handled, State.reg, loadReg, State.withReg, pullWord_eq, returnFromInterrupt_eq]
  | x =>
    cases i with
    | ldx | tax | tsx | inx | dex => simp [Instr.mnemonic, regWriters] at h
    | _ =>
      simp [handled, State.reg, loadReg, State.withReg, pullWord_eq, returnFromInterrupt_eq]
  | y =>
    cases i with
    | ldy | tay | iny | dey => simp [Instr.mnemonic, regWriters] at h
    | _ =>
      simp [handled, State.reg, loadReg, State.withReg, pullWord_eq, returnFromInterrupt_eq]
  | sp =>
    cases i with
    | txs | pha | php | pla | plp | jsr | rts | brk | rti =>
      simp [Instr.mnemonic, regWriters] at h
    | _ => simp [handled, State.reg, loadReg, State.withReg]

/-- Settles O56: the end of the step leaves the registers as the handler left them. -/
theorem registerWritersAreTheListedOnes : Obligations.RegisterWritersAreTheListedOnes := by
  intro i s t r h hi
  rw [eq_account_of_exec h, reg_account]
  exact handled_reg hi s

/-! ### The bits of P -/

theorem flag_congr {s t : State} (h : t.p = s.p) (f : Flag) : t.flag f = s.flag f := by
  simp only [State.flag, h]

/-- A handler leaves the bits of P alone that its instruction is not listed to write (R18): such a
bit is none of those that the flag computation of the handler writes. -/
theorem handled_flag {i : Instr} {f : Flag} (h : i.mnemonic ∉ flagWriters f) (s : State) :
    (handled i s).2.flag f = s.flag f := by
  have ne (g : Flag) (hg : decide (i.mnemonic ∈ flagWriters g) = true) : f ≠ g :=
    fun hfg => h (hfg ▸ of_decide_eq_true hg)
  cases i with
  | plp | rti => cases f <;> simp [Instr.mnemonic, flagWriters] at h
  | lda | ldx | ldy | tax | tay | txa | tya | tsx | pla | and | eor | ora | inc | dec | inx | iny
  | dex | dey => simp [handled, ne .z rfl, ne .n rfl]
  | asl o | lsr o | rol o | ror o => exact flag_shiftOp _ o s f (ne .c rfl) (ne .z rfl) (ne .n rfl)
  | adc | sbc => simp [handled, flag_addCore, ne .c rfl, ne .z rfl, ne .n rfl, ne .v rfl]
  | cmp | cpx | cpy => simp [handled, flag_compareFlags, ne .c rfl, ne .z rfl, ne .n rfl]
  | bit => simp [handled, flag_bitFlags, ne .z rfl, ne .n rfl, ne .v rfl]
  | brk | sei | cli => simp [handled, ne .i rfl]
  | clc | sec => simp [handled, ne .c rfl]
  | cld | sed => simp [handled, ne .d rfl]
  | clv => simp [handled, ne .v rfl]
  | _ => exact flag_congr (by simp [handled, pullWord_eq]) f

/-- Settles O55: the end of the step leaves P as the handler left it. -/
theorem flagWritersAreTheListedOnes : Obligations.FlagWritersAreTheListedOnes := by
  intro i s t f h hi
  rw [eq_account_of_exec h, flag_account]
  exact handled_flag hi s

end Sys2Proof.Machine
end

section
/-! SUPPORT. What a step does to memory: writes to RAM cells and nothing else (`20_memory.md` R35,
R37, R38). The invariant of the step boundary follows. -/

namespace Sys2Proof.Machine

/-- `m'` comes from `m` by writes to RAM cells only. -/
inductive RamWrites (m : Memory) : Memory → Prop
  | refl : RamWrites m m
  | write {m' : Memory} (h : RamWrites m m') {k : Nat} (hk : k < 0x0800) (v : Byte) :
    RamWrites m (m'.write k v)

theorem RamWrites.trans {m m' m'' : Memory} (h : RamWrites m m') (h' : RamWrites m' m'') :
    RamWrites m m'' := by
  induction h' with
  | refl => exact h
  | write _ hk v ih => exact ih.write hk v

/-- Memory left alone. -/
theorem RamWrites.of_eq {m m' : Memory} (h : m' = m) : RamWrites m m' := h ▸ .refl

/-- Writes to RAM keep the canonical form. -/
theorem RamWrites.wf {m m' : Memory} (h : RamWrites m m') (hm : m.wf) : m'.wf := by
  induction h with
  | refl => exact hm
  | write _ _ _ ih => exact Memory.write_wf _ _ _ ih

/-- Writes to RAM list no cell outside the map (R35). -/
theorem RamWrites.isCell {m m' : Memory} {prg : PrgSize} (h : RamWrites m m')
    (hm : ∀ c ∈ m, isCell prg c.1 = true) : ∀ c ∈ m', isCell prg c.1 = true := by
  induction h with
  | refl => exact hm
  | write _ hk v ih =>
    intro c hc
    rcases Memory.mem_write _ _ _ _ hc with rfl | hc
    · simp [Machine.isCell, hk]
    · exact ih c hc

/-- A bus write writes RAM or leaves memory alone (R35, R37, R38). -/
theorem memWrite_ramWrites (addr : Word) (v : Byte) (s : State) :
    RamWrites s.mem (memWrite addr v s).mem := by
  rw [memWrite_mem]
  cases ht : s.target addr with
  | ram k => exact .write .refl (route_ram_lt ht) v
  | rom | unmapped | device => exact .refl

theorem push_ramWrites (v : Byte) (s : State) : RamWrites s.mem (push v s).mem :=
  memWrite_ramWrites (stackAddr s.sp) v s

theorem pushWord_ramWrites (w : Word) (s : State) : RamWrites s.mem (pushWord w s).mem :=
  (push_ramWrites _ s).trans (push_ramWrites _ _)

theorem takeInterrupt_ramWrites (ret : Word) (brk : Bool) (vec : Word) (s : State) :
    RamWrites s.mem (takeInterrupt ret brk vec s).mem := by
  have h := (pushWord_ramWrites ret s).trans (push_ramWrites (statusForPush brk s.p) _)
  simpa [takeInterrupt] using h

theorem writeMem_ramWrites (m : MemOperand) (v : Byte) (s : State) :
    RamWrites s.mem (writeMem m v s).mem :=
  (RamWrites.of_eq (resolve_mem m s)).trans (memWrite_ramWrites _ _ _)

theorem modifyMem_ramWrites (f : Byte → Byte) (m : MemOperand) (s : State) :
    RamWrites s.mem (modifyMem f m s).2.mem :=
  (RamWrites.of_eq (readMem_mem m s)).trans (memWrite_ramWrites _ _ _)

theorem shiftOp_ramWrites (f : Byte → Bool → Byte × Bool) (o : ShiftOperand) (s : State) :
    RamWrites s.mem (shiftOp f o s).mem := by
  cases o with
  | acc => exact .of_eq (by simp [shiftOp])
  | mem m =>
    have h := memWrite_ramWrites (resolve m s).1 (f (readMem m s).1 (s.flag .c)).1 (readMem m s).2
    simpa [shiftOp, readMem] using h

/-- What a handler does to memory: writes to RAM. -/
theorem handled_ramWrites (i : Instr) (s : State) : RamWrites s.mem (handled i s).2.mem := by
  cases i with
  | sta m | stx m | sty m => simpa only [handled, setZN_mem] using writeMem_ramWrites m _ s
  | inc m | dec m => simpa only [handled, setZN_mem] using modifyMem_ramWrites _ m s
  | asl o | lsr o | rol o | ror o => simpa only [handled, setZN_mem] using shiftOp_ramWrites _ o s
  | pha | php => simpa only [handled, setZN_mem] using push_ramWrites _ s
  | jsr => simpa only [handled, setZN_mem] using pushWord_ramWrites _ s
  | brk => simpa only [handled, setZN_mem] using takeInterrupt_ramWrites _ _ _ s
  | _ => exact .of_eq (by simp [handled, branched, pullWord_eq, returnFromInterrupt_eq])

/-! ### The step -/

theorem serviceNmi_ramWrites (s : State) : RamWrites s.mem (serviceNmi s).mem := by
  simpa [serviceNmi] using takeInterrupt_ramWrites s.pc false nmiVector s

@[simp] theorem serviceNmi_prg (s : State) : (serviceNmi s).prg = s.prg := by simp [serviceNmi]

/-- What a step does to memory, the size of the ROM and the transient flags. -/
theorem step_ramWrites {s t : State} (h : step s = .next t) :
    RamWrites s.mem t.mem ∧ t.prg = s.prg ∧ Boundary t := by
  rcases Bool.eq_false_or_eq_true s.nmiPending with hn | hn
  · obtain rfl : serviceNmi s = t := Host.Outcome.next.inj (step_of_pending hn ▸ h)
    exact ⟨serviceNmi_ramWrites s, serviceNmi_prg s, rfl, rfl⟩
  · rw [step_of_not_pending hn] at h
    rw [eq_account_of_exec h]
    exact ⟨by simpa using handled_ramWrites (fetchInstr s).1 (fetchInstr s).2, by simp, rfl, rfl⟩

/-- Settles O46: writes to RAM keep both conditions on memory, and a step ends with the flags false.
-/
theorem stepKeepsTheInvariant : Obligations.StepKeepsTheInvariant := by
  intro s t ⟨hwf, hcell, _⟩ h
  obtain ⟨hmem, hprg, hb⟩ := step_ramWrites h
  exact ⟨hmem.wf hwf, hprg ▸ hmem.isCell hcell, hb⟩

end Sys2Proof.Machine
end

section
/-! SUPPORT. The cycle counter is never read (`10_state.md` R23, `41_step_dispatch.md` R84): every
operation, run with another value in the counter, answers the same and leaves the same state with
that value. -/

namespace Sys2Proof.Machine

/-- The state with another value in the cycle counter. -/
def State.withCycles (c : Nat) (s : State) : State := { s with cycles := c }

@[simp] theorem withCycles_a (c : Nat) (s : State) : (s.withCycles c).a = s.a := rfl
@[simp] theorem withCycles_x (c : Nat) (s : State) : (s.withCycles c).x = s.x := rfl
@[simp] theorem withCycles_y (c : Nat) (s : State) : (s.withCycles c).y = s.y := rfl
@[simp] theorem withCycles_sp (c : Nat) (s : State) : (s.withCycles c).sp = s.sp := rfl
@[simp] theorem withCycles_pc (c : Nat) (s : State) : (s.withCycles c).pc = s.pc := rfl
@[simp] theorem withCycles_p (c : Nat) (s : State) : (s.withCycles c).p = s.p := rfl
@[simp] theorem target_withCycles (c : Nat) (s : State) (b : Word) :
    (s.withCycles c).target b = s.target b := rfl
@[simp] theorem flag_withCycles (c : Nat) (s : State) (f : Flag) :
    (s.withCycles c).flag f = s.flag f := rfl

/-! ### The bus -/

@[simp] theorem memRead_withCycles (addr : Word) (c : Nat) (s : State) :
    memRead addr (s.withCycles c) = ((memRead addr s).1, (memRead addr s).2.withCycles c) := by
  unfold memRead
  rw [target_withCycles]
  cases s.target addr <;> rfl

@[simp] theorem memWrite_withCycles (addr : Word) (v : Byte) (c : Nat) (s : State) :
    memWrite addr v (s.withCycles c) = (memWrite addr v s).withCycles c := by
  unfold memWrite
  rw [target_withCycles]
  cases s.target addr <;> rfl

/-! ### Flags and registers -/

@[simp] theorem setFlag_withCycles (f : Flag) (b : Bool) (c : Nat) (s : State) :
    setFlag f b (s.withCycles c) = (setFlag f b s).withCycles c := rfl
@[simp] theorem setZN_withCycles (v : Byte) (c : Nat) (s : State) :
    setZN v (s.withCycles c) = (setZN v s).withCycles c := rfl
@[simp] theorem addCore_withCycles (b : Byte) (c : Nat) (s : State) :
    addCore b (s.withCycles c) = (addCore b s).withCycles c := rfl
@[simp] theorem compareFlags_withCycles (r m : Byte) (c : Nat) (s : State) :
    compareFlags r m (s.withCycles c) = (compareFlags r m s).withCycles c := rfl
@[simp] theorem bitFlags_withCycles (m : Byte) (c : Nat) (s : State) :
    bitFlags m (s.withCycles c) = (bitFlags m s).withCycles c := rfl
@[simp] theorem markEligible_withCycles (c : Nat) (s : State) :
    markEligible (s.withCycles c) = (markEligible s).withCycles c := rfl
@[simp] theorem withReg_withCycles (r : Reg) (v : Byte) (c : Nat) (s : State) :
    (s.withCycles c).withReg r v = (s.withReg r v).withCycles c := by
  cases r <;> rfl
@[simp] theorem loadReg_withCycles (r : Reg) (v : Byte) (c : Nat) (s : State) :
    loadReg r v (s.withCycles c) = (loadReg r v s).withCycles c := by
  simp [loadReg]

/-! ### Words, the stack and interrupts -/

@[simp] theorem read16_withCycles (addr : Word) (c : Nat) (s : State) :
    read16 addr (s.withCycles c) = ((read16 addr s).1, (read16 addr s).2.withCycles c) := by
  simp [read16]

@[simp] theorem fetch8_withCycles (c : Nat) (s : State) :
    fetch8 (s.withCycles c) = ((fetch8 s).1, (fetch8 s).2.withCycles c) := by
  simp only [fetch8, withCycles_pc, memRead_withCycles]
  rfl

@[simp] theorem push_withCycles (v : Byte) (c : Nat) (s : State) :
    push v (s.withCycles c) = (push v s).withCycles c := by
  simp only [push, withCycles_sp, memWrite_withCycles]
  rfl

@[simp] theorem pushWord_withCycles (w : Word) (c : Nat) (s : State) :
    pushWord w (s.withCycles c) = (pushWord w s).withCycles c := by
  simp [pushWord]

@[simp] theorem pull_withCycles (c : Nat) (s : State) :
    pull (s.withCycles c) = ((pull s).1, (pull s).2.withCycles c) := by
  simp only [pull_eq]
  rfl

@[simp] theorem pullWord_withCycles (c : Nat) (s : State) :
    pullWord (s.withCycles c) = ((pullWord s).1, (pullWord s).2.withCycles c) := by
  simp [pullWord]

@[simp] theorem takeInterrupt_withCycles (ret : Word) (brk : Bool) (vec : Word) (c : Nat)
    (s : State) :
    takeInterrupt ret brk vec (s.withCycles c) = (takeInterrupt ret brk vec s).withCycles c := by
  simp only [takeInterrupt, withCycles_p, pushWord_withCycles, push_withCycles, setFlag_withCycles,
    read16_withCycles]
  rfl

@[simp] theorem returnFromInterrupt_withCycles (c : Nat) (s : State) :
    returnFromInterrupt (s.withCycles c) = (returnFromInterrupt s).withCycles c := by
  simp only [returnFromInterrupt_eq]
  rfl

/-! ### Operands -/

@[simp] theorem branched_withCycles (cond : Bool) (off : Byte) (c : Nat) (s : State) :
    branched cond off (s.withCycles c) =
      ((branched cond off s).1, (branched cond off s).2.withCycles c) := rfl

@[simp] theorem indexed_withCycles (base : Word) (ix : Byte) (c : Nat) (s : State) :
    indexed base ix (s.withCycles c) =
      ((indexed base ix s).1, (indexed base ix s).2.withCycles c) := by
  simp only [indexed_eq]
  rfl

@[simp] theorem zeroPagePointer_withCycles (z : Byte) (c : Nat) (s : State) :
    zeroPagePointer z (s.withCycles c) =
      ((zeroPagePointer z s).1, (zeroPagePointer z s).2.withCycles c) := by
  simp [zeroPagePointer]

@[simp] theorem indirectPointer_withCycles (ptr : Word) (c : Nat) (s : State) :
    indirectPointer ptr (s.withCycles c) =
      ((indirectPointer ptr s).1, (indirectPointer ptr s).2.withCycles c) := by
  simp [indirectPointer]

@[simp] theorem resolve_withCycles (m : MemOperand) (c : Nat) (s : State) :
    resolve m (s.withCycles c) = ((resolve m s).1, (resolve m s).2.withCycles c) := by
  cases m <;> simp [resolve]

@[simp] theorem resolveJump_withCycles (j : JumpOperand) (c : Nat) (s : State) :
    resolveJump j (s.withCycles c) = ((resolveJump j s).1, (resolveJump j s).2.withCycles c) := by
  cases j <;> simp [resolveJump]

@[simp] theorem readMem_withCycles (m : MemOperand) (c : Nat) (s : State) :
    readMem m (s.withCycles c) = ((readMem m s).1, (readMem m s).2.withCycles c) := by
  simp [readMem]

@[simp] theorem readData_withCycles (o : DataOperand) (c : Nat) (s : State) :
    readData o (s.withCycles c) = ((readData o s).1, (readData o s).2.withCycles c) := by
  cases o <;> simp [readData]

@[simp] theorem writeMem_withCycles (m : MemOperand) (v : Byte) (c : Nat) (s : State) :
    writeMem m v (s.withCycles c) = (writeMem m v s).withCycles c := by
  simp [writeMem]

@[simp] theorem modifyMem_withCycles (f : Byte → Byte) (m : MemOperand) (c : Nat) (s : State) :
    modifyMem f m (s.withCycles c) = ((modifyMem f m s).1, (modifyMem f m s).2.withCycles c) := by
  simp [modifyMem]

@[simp] theorem shiftOp_withCycles (f : Byte → Bool → Byte × Bool) (o : ShiftOperand) (c : Nat)
    (s : State) : shiftOp f o (s.withCycles c) = (shiftOp f o s).withCycles c := by
  cases o with
  | acc => rfl
  | mem m => simp [shiftOp]

/-! ### Instructions -/

/-- The handler of an instruction neither reads nor writes the cycle counter (R23, R84). -/
theorem handled_withCycles (i : Instr) (c : Nat) (s : State) :
    handled i (s.withCycles c) = ((handled i s).1, (handled i s).2.withCycles c) := by
  cases i with
  | plp | jmp | jsr | rts =>
    simp only [handled, pull_withCycles, resolveJump_withCycles, withCycles_pc, pushWord_withCycles,
      pullWord_withCycles]
    rfl
  | _ => simp [handled]

/-! ### The step -/

theorem fetchInstr_withCycles (c : Nat) (s : State) :
    fetchInstr (s.withCycles c) = ((fetchInstr s).1, (fetchInstr s).2.withCycles c) := by
  unfold fetchInstr
  simp only [fetch8_withCycles]
  split <;> rfl

/-- The handler leaves the counter to the end of the step. -/
theorem handled_cycles (i : Instr) (s : State) : (handled i s).2.cycles = s.cycles :=
  congrArg (fun r => r.2.cycles) (handled_withCycles i s.cycles s)

theorem serviceNmi_withCycles (c : Nat) (s : State) :
    serviceNmi (s.withCycles c) = (serviceNmi s).withCycles (c + 7) := by
  simp only [serviceNmi, withCycles_pc, takeInterrupt_withCycles]
  rfl

/-- An instruction advances the counter by a number that does not depend on it, and nothing else
depends on it (R23, R84). -/
theorem exec_withCycles (i : Instr) (s : State) :
    ∃ t n, exec i s = .next t ∧ t.cycles = s.cycles + n ∧
      ∀ c, exec i (s.withCycles c) = .next (t.withCycles (c + n)) := by
  refine ⟨_, _, exec_eq_ended i s, congrArg (· + _) (handled_cycles i s), fun c => ?_⟩
  rw [exec_eq_ended, handled_withCycles]
  rfl

/-- Settles O52: NMI service and the fetched instruction both commute with a change of the counter.
-/
theorem cyclesAreNeverRead : Obligations.CyclesAreNeverRead := by
  intro s c
  rcases Bool.eq_false_or_eq_true s.nmiPending with hn | hn
  · refine ⟨serviceNmi s, 7, step_of_pending hn, by simp [serviceNmi], ?_⟩
    exact (step_of_pending (s := s.withCycles c) hn).trans (congrArg _ (serviceNmi_withCycles c s))
  · obtain ⟨t, n, ht, hc, hall⟩ := exec_withCycles (fetchInstr s).1 (fetchInstr s).2
    refine ⟨t, n, (step_of_not_pending hn).trans ht, by simpa using hc, ?_⟩
    have h := step_of_not_pending (s := s.withCycles c) hn
    rw [fetchInstr_withCycles] at h
    exact h.trans (hall c)

end Sys2Proof.Machine
end

section
/-! SUPPORT. What a fetch reads where memory answers is what the decoder reads from the same bytes
(`30_encoding.md` R50, R51, `40_addressing_modes.md` R65). -/

namespace Sys2Proof

/-- An instruction has at most two operand bytes (R51). -/
theorem Mode.operandWidth_cases (m : Mode) :
    m.operandWidth = 0 ∨ m.operandWidth = 1 ∨ m.operandWidth = 2 := by
  cases m <;> decide

/-- What the decoder has read (R50, R51): the opcode byte, then as many bytes as the mode of its row
has. -/
theorem decode_cases {bytes rest : List Byte} {i : Instr} (h : decode bytes = .instr i rest) :
    (∃ op, bytes = op :: rest ∧ (lookup op).mode.operandWidth = 0 ∧ i = decodeOpcode op 0 0) ∨
    (∃ op b1, bytes = op :: b1 :: rest ∧ (lookup op).mode.operandWidth = 1 ∧
      i = decodeOpcode op b1 0) ∨
    ∃ op b1 b2, bytes = op :: b1 :: b2 :: rest ∧ (lookup op).mode.operandWidth = 2 ∧
      i = decodeOpcode op b1 b2 := by
  cases bytes with
  | nil => simp [decode] at h
  | cons op bs =>
    rcases (lookup op).mode.operandWidth_cases with hw | hw | hw
    · simp only [decode, hw, Decoded.instr.injEq] at h
      obtain ⟨rfl, rfl⟩ := h
      exact .inl ⟨op, rfl, hw, rfl⟩
    · cases bs with
      | nil => simp [decode, hw] at h
      | cons b1 bs =>
        simp only [decode, hw, Decoded.instr.injEq] at h
        obtain ⟨rfl, rfl⟩ := h
        exact .inr (.inl ⟨op, b1, rfl, hw, rfl⟩)
    · rcases bs with _ | ⟨b1, _ | ⟨b2, bs⟩⟩
      · simp [decode, hw] at h
      · simp [decode, hw] at h
      · simp only [decode, hw, Decoded.instr.injEq] at h
        obtain ⟨rfl, rfl⟩ := h
        exact .inr (.inr ⟨op, b1, b2, rfl, hw, rfl⟩)

end Sys2Proof

namespace Sys2Proof.Machine

/-- Where memory holds the bytes from PC on and the decoder reads one instruction from them, the
fetch answers it and moves PC past them (R15, R65). -/
theorem fetchInstr_of_decode {bytes : List Byte} {i : Instr} {s : State}
    (hd : decode bytes = .instr i [])
    (hs : ∀ k (h : k < bytes.length), s.stored (s.pc + BitVec.ofNat 16 k) = some bytes[k]) :
    fetchInstr s = (i, { s with pc := s.pc + BitVec.ofNat 16 bytes.length }) := by
  have hf (k : Nat) (h : k < bytes.length) :
      fetch8 { s with pc := s.pc + BitVec.ofNat 16 k } =
        (bytes[k], { s with pc := s.pc + BitVec.ofNat 16 (k + 1) }) := by
    rw [fetch8_of_stored (v := bytes[k]) (hs k h), BitVec.add_assoc, BitVec.ofNat_add]
    rfl
  have h0 (h : 0 < bytes.length) : fetch8 s = (bytes[0], { s with pc := s.pc + 1#16 }) := by
    simpa using hf 0 h
  rcases decode_cases hd with
    ⟨op, rfl, hw, rfl⟩ | ⟨op, b1, rfl, hw, rfl⟩ | ⟨op, b1, b2, rfl, hw, rfl⟩
  · simp [fetchInstr, h0, hw]
  · simp [fetchInstr, h0, hf 1, hw]
  · simp [fetchInstr, h0, hf 1, hf 2, hw]

/-- Settles O43: the step executes what it fetched. -/
theorem stepRunsTheDecodedInstruction : Obligations.StepRunsTheDecodedInstruction := by
  intro bytes i s hn hd hs
  rw [step_of_not_pending hn, fetchInstr_of_decode hd hs]

end Sys2Proof.Machine
end

section
/-! SUPPORT. Reset (`10_state.md` R25, `70_reset_and_hazards.md` R180). -/

namespace Sys2Proof.Machine

/-- Settles O47: the reset state lists no cell. -/
theorem resetMeetsTheInvariant : Obligations.ResetMeetsTheInvariant :=
  ⟨Memory.reset_wf, List.forall_mem_nil _, rfl, rfl⟩

/-- `reset()` before it reads the vector: the registers, the request, the flags and the counter at
their values (R180). -/
def powerOn (s : State) : State :=
  { s with
    a := 0x00#8, x := 0x00#8, y := 0x00#8, sp := 0xFD#8, p := 0x24#8, nmiPending := false,
    pageCrossed := false, extraEligible := false, cycles := 7 }

/-- `reset()` sets the registers and then loads PC from the vector (R180). -/
theorem hostReset_eq (s : State) :
    hostReset s =
      { (read16 resetVector (powerOn s)).2 with pc := (read16 resetVector (powerOn s)).1 } := rfl

/-- Settles O48: reading the vector changes no field but the record of accesses, and what it answers
does not depend on the fields that `reset()` has set. -/
theorem hostResetEstablishesPowerOnState : Obligations.HostResetEstablishesPowerOnState := by
  intro s t
  obtain ⟨hpc, hlog⟩ :=
    read16_congr (s := s) (t := powerOn s) (a := resetVector) rfl rfl rfl rfl
  have hmem : t.mem = s.mem := read16_mem resetVector (powerOn s)
  have hprg : t.prg = s.prg := read16_prg resetVector (powerOn s)
  refine ⟨?_, ?_, ?_, ?_, ?_, ?_, ?_, ?_, ?_, hpc, hlog, stored_congr hmem hprg, hmem, hprg⟩ <;>
    simp [t, hostReset_eq, powerOn]

end Sys2Proof.Machine
end

section
/-! SUPPORT. The address map by regions (`20_memory.md` R34 to R38): what the bus selects in each,
what a bus read and a bus write do at each kind of target, and the statements about the bus. -/

namespace Sys2Proof.Machine

/-! ### What the bus selects in each region -/

/-- Exactly the addresses below 0x2000 select RAM, each its cell modulo 0x0800 (R35). -/
theorem target_eq_ram_iff {s : State} {a : Word} {k : Nat} :
    s.target a = .ram k ↔ a.toNat < 0x2000 ∧ a.toNat % 0x0800 = k := by
  simp only [State.target, route]
  split_ifs with h
  · simp [h]
  all_goals cases s.prg <;> simp [h]

/-- Internal RAM and its mirrors (R35). -/
theorem target_of_ram {a : Word} (h : a.toNat < 0x2000) (s : State) :
    s.target a = .ram (a.toNat % 0x0800) :=
  target_eq_ram_iff.2 ⟨h, rfl⟩

/-- The PPU window (R36). -/
theorem target_of_ppu {a : Word} (h : 0x2000 ≤ a.toNat) (h' : a.toNat < 0x4000) (s : State) :
    s.target a = .device (.ppu (Fin.ofNat 8 a.toNat)) := by
  simp only [State.target, route]
  rw [if_neg (by omega), if_pos h']

/-- The OAM-DMA trigger (R36). -/
theorem target_of_oamDma {a : Word} (h : a.toNat = 0x4014) (s : State) :
    s.target a = .device .oamDma := by
  simp [State.target, route, h]

/-- The unmapped ranges (R37). -/
theorem target_of_unmapped {a : Word} (h : 0x4000 ≤ a.toNat) (h' : a.toNat < 0x4020)
    (hne : a.toNat ≠ 0x4014) (s : State) : s.target a = .unmapped := by
  simp only [State.target, route]
  rw [if_neg (by omega), if_neg (by omega), if_neg hne, if_pos h']

/-- The cartridge space below the program ROM (R38). -/
theorem target_of_cart {a : Word} (h : 0x4020 ≤ a.toNat) (h' : a.toNat < 0x8000) (s : State) :
    s.target a = .device (.cart a) := by
  simp only [State.target, route]
  rw [if_neg (by omega), if_neg (by omega), if_neg (by omega), if_neg (by omega), if_pos h']

section ProgramRom

variable {a : Word} (h : 0x8000 ≤ a.toNat) {s : State}
include h

/-- From 0x8000 on the size of the program ROM decides (R38). -/
theorem target_of_programRom :
    s.target a =
      if s.prg = .one then .rom (0x8000 + a.toNat % 0x4000)
      else if s.prg = .two then .rom a.toNat
      else .device (.cart a) := by
  simp only [State.target, route]
  rw [if_neg (by omega), if_neg (by omega), if_neg (by omega), if_neg (by omega), if_neg (by omega)]
  cases s.prg <;> rfl

/-- One bank, mirrored (R38). -/
theorem target_of_prg_one (hp : s.prg = .one) : s.target a = .rom (0x8000 + a.toNat % 0x4000) := by
  rw [target_of_programRom h, if_pos hp]

/-- Two banks, linear (R38). -/
theorem target_of_prg_two (hp : s.prg = .two) : s.target a = .rom a.toNat := by
  simp [target_of_programRom h, hp]

/-- Any other number of banks (R38). -/
theorem target_of_prg_other (h1 : s.prg ≠ .one) (h2 : s.prg ≠ .two) :
    s.target a = .device (.cart a) := by
  rw [target_of_programRom h, if_neg h1, if_neg h2]

/-- One or two banks (R38). -/
theorem exists_target_eq_rom (hp : s.prg = .one ∨ s.prg = .two) : ∃ k, s.target a = .rom k :=
  hp.elim (fun hp => ⟨_, target_of_prg_one h hp⟩) (fun hp => ⟨_, target_of_prg_two h hp⟩)

end ProgramRom

/-! ### A bus read and a bus write at each kind of target -/

section Access

variable {s : State} {a b : Word} {k : Nat} {d : Device}

/-- The address matters to a bus read by what it selects only (R31, R34). -/
theorem memRead_congr_target (h : s.target b = s.target a) : memRead b s = memRead a s := by
  simp [memRead, h]

theorem memRead_of_ram (h : s.target a = .ram k) : memRead a s = (s.mem.read k, s) :=
  memRead_of_stored (by simp [State.stored, h])

theorem memRead_of_rom (h : s.target a = .rom k) : memRead a s = (s.mem.read k, s) :=
  memRead_of_stored (by simp [State.stored, h])

theorem memRead_of_unmapped (h : s.target a = .unmapped) : memRead a s = (0x00#8, s) :=
  memRead_of_stored (by simp [State.stored, h])

theorem memWrite_of_ram (h : s.target a = .ram k) (v : Byte) :
    memWrite a v s = { s with mem := s.mem.write k v } := by
  simp [memWrite, h]

theorem memWrite_of_rom (h : s.target a = .rom k) (v : Byte) : memWrite a v s = s := by
  simp [memWrite, h]

theorem memWrite_of_unmapped (h : s.target a = .unmapped) (v : Byte) : memWrite a v s = s := by
  simp [memWrite, h]

theorem memWrite_of_device (h : s.target a = .device d) (v : Byte) :
    memWrite a v s = { s with devLog := .write d v :: s.devLog } := by
  simp [memWrite, h]

end Access

/-! ### The statements about the bus -/

/-- The cell of one mirrored bank, counted from the bank that holds the address (R38). -/
theorem bankCell_eq {n : Nat} (h : 0x8000 ≤ n) (h' : n < 0x10000) :
    n % 0x4000 = if n < 0xC000 then n - 0x8000 else n - 0xC000 := by
  split <;> omega

/-- Settles O5: the region decides the target, and the target decides the read. -/
theorem busReadsByRegion : Obligations.BusReadsByRegion := by
  intro a s
  dsimp only
  split_ifs with hram hppu hlow hdma hhigh hcart hone hbank htwo
  · exact memRead_of_ram (target_of_ram hram s)
  · exact memRead_of_device (target_of_ppu (by omega) hppu s)
  · exact memRead_of_unmapped (target_of_unmapped (by omega) (by omega) (by omega) s)
  · exact memRead_of_device (target_of_oamDma hdma s)
  · exact memRead_of_unmapped (target_of_unmapped (by omega) hhigh hdma s)
  · exact memRead_of_device (target_of_cart (by omega) hcart s)
  · rw [memRead_of_rom (target_of_prg_one (by omega) hone), bankCell_eq (by omega) a.isLt,
      if_pos hbank]
  · rw [memRead_of_rom (target_of_prg_one (by omega) hone), bankCell_eq (by omega) a.isLt,
      if_neg hbank]
  · rw [memRead_of_rom (target_of_prg_two (by omega) htwo), Nat.add_sub_cancel' (by omega)]
  · exact memRead_of_device (target_of_prg_other (by omega) hone htwo)

/-- Settles O6: the region decides the target, and the target decides the write. -/
theorem busWritesByRegion : Obligations.BusWritesByRegion := by
  intro a v s
  dsimp only
  split_ifs with hram hppu hlow hdma hhigh hcart hrom
  · exact memWrite_of_ram (target_of_ram hram s) v
  · exact memWrite_of_device (target_of_ppu (by omega) hppu s) v
  · exact memWrite_of_unmapped (target_of_unmapped (by omega) (by omega) (by omega) s) v
  · exact memWrite_of_device (target_of_oamDma hdma s) v
  · exact memWrite_of_unmapped (target_of_unmapped (by omega) hhigh hdma s) v
  · exact memWrite_of_device (target_of_cart (by omega) hcart s) v
  · obtain ⟨k, hk⟩ := exists_target_eq_rom (a := a) (by omega) hrom
    exact memWrite_of_rom hk v
  · obtain ⟨hone, htwo⟩ := not_or.1 hrom
    exact memWrite_of_device (target_of_prg_other (by omega) hone htwo) v

/-- Two addresses of RAM select one cell exactly where they agree modulo 0x0800 (R35). -/
theorem target_eq_target_iff {a b : Word} (h : a.toNat < 0x2000) (s : State) :
    s.target b = s.target a ↔ b.toNat < 0x2000 ∧ b.toNat % 0x0800 = a.toNat % 0x0800 := by
  rw [target_of_ram h, target_eq_ram_iff]

/-- Settles O7: mirrors select one cell, so they read alike and a write shows at all of them. -/
theorem ramIsMirroredStorage : Obligations.RamIsMirroredStorage := by
  intro a s ha
  have hstored (v : Byte) (b : Word) : (memWrite a v s).stored b =
      if b.toNat < 0x2000 ∧ b.toNat % 0x0800 = a.toNat % 0x0800 then some v else s.stored b := by
    simp only [stored_memWrite, target_of_ram ha, target_eq_ram_iff, isRam_ram, and_true]
  refine ⟨by rw [memRead_of_ram (target_of_ram ha s)], fun b hb hab => ?_, fun v =>
    ⟨hstored v, fun b hb hab => ?_, ?_⟩⟩
  · rw [memRead_congr_target ((target_eq_target_iff ha s).2 ⟨hb, hab⟩)]
  · rw [memRead_of_stored ((hstored v b).trans (if_pos ⟨hb, hab⟩))]
  · rw [memWrite_of_ram (target_of_ram ha s)]

/-- Settles O9: every such address selects a ROM cell, and with one bank the cell is counted modulo
0x4000. -/
theorem programRomIsReadOnly : Obligations.ProgramRomIsReadOnly := by
  intro a s ha hp
  obtain ⟨k, hk⟩ := exists_target_eq_rom ha hp
  refine ⟨by rw [memRead_of_rom hk], memWrite_of_rom hk, fun hone hlt => ?_⟩
  have hadd : (a + 0x4000#16).toNat = a.toNat + 0x4000 := by bv_omega
  apply memRead_congr_target
  rw [target_of_prg_one ha hone, target_of_prg_one (by omega) hone, hadd, Nat.add_mod_right]

/-- Settles O8: the address selects nothing, so the load reads 0x00 there; Absolute mode crosses no
page. -/
theorem unmappedAddressesReadZero : Obligations.UnmappedAddressesReadZero := by
  intro a s ha
  have ht : s.target a = .unmapped := target_of_unmapped (by omega) (by omega) (by omega) s
  have hread : readData (.mem (.abs a)) s = (0x00#8, s) := memRead_of_unmapped ht
  have hexec : exec (.lda (.mem (.abs a))) s =
      ended (.lda (.mem (.abs a))) 0 (markEligible (loadReg .a 0x00#8 s)) := by
    rw [exec_eq_ended, handled, hread]
  refine ⟨memRead_of_unmapped ht, memWrite_of_unmapped ht, _, hexec, rfl, by simp, by simp,
    fun hb => ?_⟩
  rw [account_cycles, pageCrossCycle_of_readData (o := .mem (.abs a)) hb (hread ▸ rfl) rfl]
  rfl

/-- Settles O10: the two bytes make the word, high byte first. -/
theorem read16IsLittleEndian : Obligations.Read16IsLittleEndian := by
  intro a s
  have hnext : BitVec.ofNat 16 ((a.toNat + 1) % 65536) = a + 1 := by bv_omega
  simp only [hnext]
  exact ⟨word16_toNat _ _, rfl⟩

end Sys2Proof.Machine
end

section
/-! SUPPORT. Canonical memories are equal when they read equal: the cells listed are those that do
not read as unlisted, in rising order (assumption 2). -/

namespace Sys2Proof.Machine

theorem Memory.read_cons (c : Host.Cell) (m : Memory) (k : Nat) :
    Memory.read (c :: m) k = if c.1 = k then c.2 else m.read k := rfl

/-- A cell that is not listed reads as unlisted. -/
theorem Memory.read_of_not_listed {m : Memory} {k : Nat} (h : ∀ c ∈ m, c.1 ≠ k) :
    m.read k = Memory.unlisted := by
  induction m with
  | nil => rfl
  | cons c m ih =>
    rw [List.forall_mem_cons] at h
    rw [Memory.read_cons, if_neg h.1, ih h.2]

/-- The cells a canonical memory lists are those that do not read as unlisted. -/
theorem Memory.mem_iff_read {m : Memory} (h : m.wf) (c : Host.Cell) :
    c ∈ m ↔ m.read c.1 = c.2 ∧ c.2 ≠ Memory.unlisted := by
  obtain ⟨hsort, hlisted⟩ := h
  induction m with
  | nil => simp [eq_comm]
  | cons d m ih =>
    rw [List.pairwise_cons] at hsort
    rw [List.forall_mem_cons] at hlisted
    obtain ⟨hlt, hsort⟩ := hsort
    obtain ⟨hd, hlisted⟩ := hlisted
    have ih := ih hsort hlisted
    rw [List.mem_cons, Memory.read_cons]
    by_cases hk : d.1 = c.1
    · have hc : c ∉ m := fun hc => absurd hk (hlt c hc).ne
      rw [if_pos hk]
      constructor
      · rintro (rfl | hm)
        · exact ⟨rfl, hd⟩
        · exact absurd hm hc
      · exact fun ⟨h2, _⟩ => .inl (Prod.ext hk.symm h2.symm)
    · have hne : c ≠ d := fun h => hk (h ▸ rfl)
      rw [if_neg hk, ← ih]
      simp [hne]

/-- Settles O11: a write to RAM keeps the form, and equal reads make the same cells listed, whose
order is fixed. -/
theorem memoryStaysCanonical : Obligations.MemoryStaysCanonical := by
  refine ⟨fun a v s h => (memWrite_ramWrites a v s).wf h, fun m m' h h' hread => ?_⟩
  have hirrefl : Std.Irrefl fun c d : Host.Cell => c.1 < d.1 := ⟨fun c => lt_irrefl c.1⟩
  have hasymm : Std.Asymm fun c d : Host.Cell => c.1 < d.1 := ⟨fun _ _ => lt_asymm⟩
  refine h.1.eq_of_mem_iff h'.1 fun c => ?_
  rw [Memory.mem_iff_read h, Memory.mem_iff_read h', hread]

end Sys2Proof.Machine
end

section
/-! SUPPORT. Who changes memory: no step changes a cell outside RAM (`20_memory.md` R37, R38, R47),
and only stores, read-modify-writes and pushes change memory at all (R42, `43_stack.md` R102). -/

namespace Sys2Proof.Machine

/-- Writes to RAM leave every cell outside it as it was (R38). -/
theorem RamWrites.read_of_ge {m m' : Memory} (h : RamWrites m m') {k : Nat} (hk : 0x0800 ≤ k) :
    m'.read k = m.read k := by
  induction h with
  | refl => rfl
  | write _ hlt v ih => rw [Memory.read_write, if_neg (by omega), ih]

/-- Writes to RAM leave every address outside it as it was (R37, R38). -/
theorem RamWrites.stored {s t : State} (h : RamWrites s.mem t.mem) (hp : t.prg = s.prg) {b : Word}
    (hb : (s.target b).isRam = false) : t.stored b = s.stored b := by
  unfold State.stored
  rw [target_congr hp]
  cases ht : s.target b with
  | ram k => simp [ht] at hb
  | rom k =>
    have hk : 0x0800 ≤ k := le_trans (by decide) (route_rom_ge ht)
    simp only [h.read_of_ge hk]
  | unmapped | device d => rfl

/-- Settles O53: a step writes RAM only. -/
theorem onlyRamChanges : Obligations.OnlyRamChanges := by
  intro s t h
  obtain ⟨hmem, hprg, _⟩ := step_ramWrites h
  exact ⟨hprg, fun b hb => hmem.stored hprg hb⟩

/-- A memory operand is not the accumulator. -/
theorem memOperand_mode_ne_acc (m : MemOperand) : m.mode ≠ .acc := by
  cases m <;> simp [MemOperand.mode]

/-- A handler leaves memory alone where its instruction is not listed to write it, or shifts the
accumulator (R93 to R95, R102, R120, R121, R126). -/
theorem handled_mem {i : Instr} (h : i.mnemonic ∉ memoryWriters ∨ i.mode = .acc) (s : State) :
    (handled i s).2.mem = s.mem := by
  cases i with
  | sta m | stx m | sty m | inc m | dec m =>
    simp [Instr.mnemonic, memoryWriters, Instr.mode, memOperand_mode_ne_acc] at h
  | pha | php | jsr | brk => simp [Instr.mnemonic, memoryWriters, Instr.mode] at h
  | asl o | lsr o | rol o | ror o =>
    cases o with
    | acc => simp [handled, shiftOp]
    | mem m =>
      simp [Instr.mnemonic, memoryWriters, Instr.mode, ShiftOperand.mode,
        memOperand_mode_ne_acc] at h
  | _ => simp [handled, pullWord_eq, returnFromInterrupt_eq]

/-- Settles O54: the handler leaves memory and the size of the ROM alone, and what an address holds
depends on these two only. -/
theorem onlyWritersChangeMemory : Obligations.OnlyWritersChangeMemory := by
  intro i s t h hi
  rw [eq_account_of_exec h]
  exact stored_congr (handled_mem hi s) (handled_prg i s)

end Sys2Proof.Machine
end

section
/-! SUPPORT. The encoding (`30_encoding.md` R50 to R55): an instruction is determined by its row of
the opcode table and its operand bytes, so the decoder reads a well-formed instruction from exactly
its encoding. -/

namespace Sys2Proof

/-! ### The rows of the table -/

/-- No two rows of the table have the same mnemonic and mode (R54). -/
theorem find?_opcodeTable_of_mem {r : Row} (h : r ∈ opcodeTable) :
    opcodeTable.find? (fun q => decide (q.mnemonic = r.mnemonic) && decide (q.mode = r.mode)) =
      some r := by
  revert r
  decide +kernel

/-- No row of the table is a sentinel's (R55). -/
theorem mnemonic_ne_ill_of_mem {r : Row} (h : r ∈ opcodeTable) : r.mnemonic ≠ .ill := by
  revert r
  decide +kernel

/-- The table and the list of R55 account for every opcode. -/
theorem mem_unassignedOpcodes_or_assigned (op : Byte) :
    op ∈ unassignedOpcodes ∨ ∃ r ∈ opcodeTable, r.opcode = op := by
  revert op
  decide +kernel

/-- The unassigned opcodes are those whose row is the sentinel's (R55). -/
theorem mem_unassignedOpcodes_iff (op : Byte) :
    op ∈ unassignedOpcodes ↔ (lookup op).mnemonic = .ill := by
  constructor
  · intro h
    rw [lookup_unassigned op h]
    rfl
  · intro h
    rcases mem_unassignedOpcodes_or_assigned op with hop | ⟨r, hr, rfl⟩
    · exact hop
    · exact absurd (lookup_row hr ▸ h) (mnemonic_ne_ill_of_mem hr)

/-! ### The row of an instruction -/

theorem row?_eq_find? {i : Instr} (h : i.mnemonic ≠ .ill) :
    i.row? = opcodeTable.find?
      (fun r => decide (r.mnemonic = i.mnemonic) && decide (r.mode = i.mode)) := by
  cases i with
  | ill op => exact absurd rfl h
  | _ => rfl

/-- The row of an instruction has its mnemonic and its mode (R54). -/
theorem mnemonic_mode_of_row? {i : Instr} {r : Row} (h : i.row? = some r) :
    r.mnemonic = i.mnemonic ∧ r.mode = i.mode := by
  by_cases hill : i.mnemonic = .ill
  · cases i with
    | ill op =>
      obtain rfl : sentinelRow op = r := Option.some.inj h
      exact ⟨rfl, rfl⟩
    | _ => cases hill
  · rw [row?_eq_find? hill] at h
    simpa using List.find?_some h

/-- The lists of modes in `WellFormed` are those of the table's rows (R54). -/
theorem wellFormed_eq_isSome_row? {i : Instr} (h : i.mnemonic ≠ .ill) :
    i.wellFormed = i.row?.isSome := by
  cases i with
  | lda o | ldx o | ldy o | and o | eor o | ora o | adc o | sbc o | cmp o | cpx o | cpy o =>
    cases o with
    | imm v => rfl
    | mem m => cases m <;> rfl
  | sta m | stx m | sty m | bit m | inc m | dec m => cases m <;> rfl
  | asl o | lsr o | rol o | ror o =>
    cases o with
    | acc => rfl
    | mem m => cases m <;> rfl
  | jmp t => cases t <;> rfl
  | ill op => exact absurd rfl h
  | _ => rfl

/-- An instruction is well-formed exactly where it has a row that the lookup finds again by its
opcode (R54, R55). -/
theorem wellFormed_iff_row? (i : Instr) :
    WellFormed i ↔ ∃ r, i.row? = some r ∧ lookup r.opcode = r := by
  by_cases h : i.mnemonic = .ill
  · cases i with
    | ill op =>
      have hrow : (Instr.ill op).row? = some (sentinelRow op) := rfl
      simp only [WellFormed, Instr.wellFormed, List.contains_iff_mem, hrow, Option.some.injEq,
        exists_eq_left']
      exact ⟨lookup_unassigned op,
        fun hl => (mem_unassignedOpcodes_iff op).2 (congrArg Row.mnemonic hl)⟩
    | _ => cases h
  · rw [WellFormed, wellFormed_eq_isSome_row? h, Option.isSome_iff_exists]
    refine exists_congr fun r => (and_iff_left_of_imp fun hr => ?_).symm
    rw [row?_eq_find? h] at hr
    exact lookup_row (List.mem_of_find?_eq_some hr)

theorem encode_eq {i : Instr} {r : Row} (h : i.row? = some r) :
    encode i = r.opcode :: i.operandBytes := by
  rw [encode, h]

/-- A row of the table is an instruction's exactly where mnemonic and mode agree (R54). -/
theorem row?_eq_some_iff {r : Row} (hr : r ∈ opcodeTable) (i : Instr) :
    i.row? = some r ↔ i.mnemonic = r.mnemonic ∧ i.mode = r.mode := by
  constructor
  · intro h
    obtain ⟨hm, ha⟩ := mnemonic_mode_of_row? h
    exact ⟨hm.symm, ha.symm⟩
  · rintro ⟨hm, ha⟩
    rw [row?_eq_find? (hm ▸ mnemonic_ne_ill_of_mem hr), hm, ha, find?_opcodeTable_of_mem hr]

/-- The sentinel's row is its own only (R55). -/
theorem row?_eq_some_sentinelRow_iff (op : Byte) (i : Instr) :
    i.row? = some (sentinelRow op) ↔ i = .ill op := by
  constructor
  · intro h
    obtain ⟨hm, -⟩ := mnemonic_mode_of_row? h
    cases i with
    | ill op' => exact congrArg Instr.ill (congrArg Row.opcode (Option.some.inj h))
    | _ => cases hm
  · rintro rfl
    rfl

/-! ### Operands and their bytes -/

/-- The operand bytes of a mode, when the two bytes after the opcode are `b1` and `b2` (R51). -/
def Mode.operandBytes (m : Mode) (b1 b2 : Byte) : List Byte := [b1, b2].take m.operandWidth

theorem wordBytes_eq_iff {a : Word} {b1 b2 : Byte} : wordBytes a = [b1, b2] ↔ a = word16 b2 b1 := by
  constructor
  · intro h
    simp only [wordBytes, List.cons.injEq, and_true] at h
    obtain ⟨rfl, rfl⟩ := h
    exact (word16_bytes a).symm
  · rintro rfl
    simp [wordBytes]

/-- The memory operand of a mode is the one that has these operand bytes (R53). -/
theorem memOperandOf_eq_some_iff {m : Mode} {b1 b2 : Byte} {o : MemOperand} :
    memOperandOf m b1 b2 = some o ↔ o.mode = m ∧ o.bytes = m.operandBytes b1 b2 := by
  constructor
  · intro h
    cases m with
    | zp | zpx | zpy | izx | izy =>
      cases h
      exact ⟨rfl, rfl⟩
    | abs | abx | aby =>
      cases h
      exact ⟨rfl, wordBytes_eq_iff.2 rfl⟩
    | imp | acc | imm | ind | rel => cases h
  · rintro ⟨rfl, h⟩
    cases o with
    | zp d | zpx d | zpy d | izx d | izy d =>
      cases h
      rfl
    | abs a | abx a | aby a =>
      cases wordBytes_eq_iff.1 h
      rfl

/-- A memory operand is not an immediate. -/
theorem memOperand_mode_ne_imm (m : MemOperand) : m.mode ≠ .imm := by
  cases m <;> simp [MemOperand.mode]

/-- The data operand of a mode is the one that has these operand bytes (R53). -/
theorem dataOperandOf_eq_some_iff {m : Mode} {b1 b2 : Byte} {o : DataOperand} :
    dataOperandOf m b1 b2 = some o ↔ o.mode = m ∧ o.bytes = m.operandBytes b1 b2 := by
  unfold dataOperandOf
  split
  · cases o with
    | imm v =>
      simp [DataOperand.mode, DataOperand.bytes, Mode.operandBytes, Mode.operandWidth, eq_comm]
    | mem m => simp [DataOperand.mode, memOperand_mode_ne_imm]
  · rename_i hm
    cases o with
    | imm v => simp [DataOperand.mode, Ne.symm hm]
    | mem m => simp [DataOperand.mode, DataOperand.bytes, memOperandOf_eq_some_iff]

/-- The shift target of a mode is the one that has these operand bytes (R126). -/
theorem shiftOperandOf_eq_some_iff {m : Mode} {b1 b2 : Byte} {o : ShiftOperand} :
    shiftOperandOf m b1 b2 = some o ↔ o.mode = m ∧ o.bytes = m.operandBytes b1 b2 := by
  unfold shiftOperandOf
  split
  · cases o with
    | acc => simp [ShiftOperand.mode, ShiftOperand.bytes, Mode.operandBytes, Mode.operandWidth]
    | mem m => simp [ShiftOperand.mode, Machine.memOperand_mode_ne_acc]
  · rename_i hm
    cases o with
    | acc => simp [ShiftOperand.mode, Ne.symm hm]
    | mem m => simp [ShiftOperand.mode, ShiftOperand.bytes, memOperandOf_eq_some_iff]

/-- The jump target of a mode is the one that has these operand bytes (R132). -/
theorem jumpOperandOf_eq_some_iff {m : Mode} {b1 b2 : Byte} {t : JumpOperand} :
    jumpOperandOf m b1 b2 = some t ↔ t.mode = m ∧ t.bytes = m.operandBytes b1 b2 := by
  constructor
  · intro h
    cases m with
    | abs | ind =>
      cases h
      exact ⟨rfl, wordBytes_eq_iff.2 rfl⟩
    | _ => cases h
  · rintro ⟨rfl, h⟩
    cases t with
    | abs a | ind a =>
      cases wordBytes_eq_iff.1 h
      rfl

/-! ### From a row and operand bytes to the instruction -/

/-- A row's mode is that of its instructions, also where the mnemonic has one mode only (R54). -/
theorem instrOfRow_mode_of_mem {r : Row} (h : r ∈ opcodeTable) :
    (instrOfRow r 0 0).map Instr.mode = some r.mode := by
  revert r
  decide +kernel

/-- The instruction of a row of the table is the one that has its mnemonic, its mode and these
operand bytes (R53, R54). -/
theorem instrOfRow_eq_some_iff {r : Row} (hr : r ∈ opcodeTable) (b1 b2 : Byte) (i : Instr) :
    instrOfRow r b1 b2 = some i ↔
      i.mnemonic = r.mnemonic ∧ i.mode = r.mode ∧ i.operandBytes = r.mode.operandBytes b1 b2 := by
  have hill := mnemonic_ne_ill_of_mem hr
  have hmode := instrOfRow_mode_of_mem hr
  obtain ⟨op, mn, m, n⟩ := r
  dsimp only at hill hmode ⊢
  constructor
  · intro h
    cases mn with
    | lda | ldx | ldy | and | eor | ora | adc | sbc | cmp | cpx | cpy =>
      obtain ⟨o, ho, rfl⟩ := Option.map_eq_some_iff.1 h
      exact ⟨rfl, dataOperandOf_eq_some_iff.1 ho⟩
    | sta | stx | sty | bit | inc | dec =>
      obtain ⟨o, ho, rfl⟩ := Option.map_eq_some_iff.1 h
      exact ⟨rfl, memOperandOf_eq_some_iff.1 ho⟩
    | asl | lsr | rol | ror =>
      obtain ⟨o, ho, rfl⟩ := Option.map_eq_some_iff.1 h
      exact ⟨rfl, shiftOperandOf_eq_some_iff.1 ho⟩
    | jmp =>
      obtain ⟨o, ho, rfl⟩ := Option.map_eq_some_iff.1 h
      exact ⟨rfl, jumpOperandOf_eq_some_iff.1 ho⟩
    | jsr =>
      cases h
      cases hmode
      exact ⟨rfl, rfl, wordBytes_eq_iff.2 rfl⟩
    | ill => exact absurd rfl hill
    | _ =>
      cases h
      cases hmode
      exact ⟨rfl, rfl, rfl⟩
  · rintro ⟨rfl, h⟩
    cases i with
    | lda o | ldx o | ldy o | and o | eor o | ora o | adc o | sbc o | cmp o | cpx o | cpy o =>
      exact Option.map_eq_some_iff.2 ⟨_, dataOperandOf_eq_some_iff.2 h, rfl⟩
    | sta m | stx m | sty m | bit m | inc m | dec m =>
      exact Option.map_eq_some_iff.2 ⟨_, memOperandOf_eq_some_iff.2 h, rfl⟩
    | asl o | lsr o | rol o | ror o =>
      exact Option.map_eq_some_iff.2 ⟨_, shiftOperandOf_eq_some_iff.2 h, rfl⟩
    | jmp t => exact Option.map_eq_some_iff.2 ⟨_, jumpOperandOf_eq_some_iff.2 h, rfl⟩
    | jsr a =>
      obtain ⟨rfl, h⟩ := h
      cases wordBytes_eq_iff.1 h
      rfl
    | bcc d | bcs d | beq d | bne d | bmi d | bpl d | bvc d | bvs d =>
      obtain ⟨rfl, h⟩ := h
      cases h
      rfl
    | ill op => exact absurd rfl hill
    | _ => rfl

/-! ### How many operand bytes there are -/

/-- The operand of each form has as many bytes as its mode says (R51). -/
theorem MemOperand.length_bytes (m : MemOperand) : m.bytes.length = m.mode.operandWidth := by
  cases m <;> rfl

theorem DataOperand.length_bytes (o : DataOperand) : o.bytes.length = o.mode.operandWidth := by
  cases o with
  | imm v => rfl
  | mem m => exact m.length_bytes

theorem ShiftOperand.length_bytes (o : ShiftOperand) : o.bytes.length = o.mode.operandWidth := by
  cases o with
  | acc => rfl
  | mem m => exact m.length_bytes

theorem JumpOperand.length_bytes (t : JumpOperand) : t.bytes.length = t.mode.operandWidth := by
  cases t <;> rfl

/-- An instruction has as many operand bytes as its mode says (R51). -/
theorem Instr.length_operandBytes (i : Instr) : i.operandBytes.length = i.mode.operandWidth := by
  cases i with
  | lda o | ldx o | ldy o | and o | eor o | ora o | adc o | sbc o | cmp o | cpx o | cpy o =>
    exact o.length_bytes
  | sta m | stx m | sty m | bit m | inc m | dec m => exact m.length_bytes
  | asl o | lsr o | rol o | ror o => exact o.length_bytes
  | jmp t => exact t.length_bytes
  | _ => rfl

/-! ### The decoder -/

/-- The instruction of an opcode is the one that has the opcode's row and these operand bytes (R51,
R54, R55). -/
theorem decodeOpcode_eq_iff (op b1 b2 : Byte) (i : Instr) :
    decodeOpcode op b1 b2 = i ↔
      i.row? = some (lookup op) ∧ i.operandBytes = (lookup op).mode.operandBytes b1 b2 := by
  rw [← Option.some_inj, ← decodeOpcode_row]
  rcases lookup_mem op with hr | hr
  · rw [instrOfRow_eq_some_iff hr, row?_eq_some_iff hr, and_assoc]
  · rw [hr, row?_eq_some_sentinelRow_iff]
    constructor
    · intro h
      cases h
      exact ⟨rfl, rfl⟩
    · rintro ⟨rfl, -⟩
      rfl

/-- What the decoder answers where there are as many operand bytes as the opcode's mode has (R50,
R51). -/
theorem exists_decode_append (op : Byte) {bs : List Byte}
    (h : bs.length = (lookup op).mode.operandWidth) (rest : List Byte) :
    ∃ b1 b2, bs = (lookup op).mode.operandBytes b1 b2 ∧
      decode (op :: bs ++ rest) = .instr (decodeOpcode op b1 b2) rest := by
  have hw := (lookup op).mode.operandWidth_cases
  rw [← h] at hw
  match bs with
  | [] => exact ⟨0, 0, by simp [Mode.operandBytes, ← h], by simp [decode, ← h]⟩
  | [b1] => exact ⟨b1, 0, by simp [Mode.operandBytes, ← h], by simp [decode, ← h]⟩
  | [b1, b2] => exact ⟨b1, b2, by simp [Mode.operandBytes, ← h], by simp [decode, ← h]⟩
  | _ :: _ :: _ :: _ => simp at hw

/-- What the decoder has read: an opcode and its mode's operand bytes (R50, R51). -/
theorem exists_decodeOpcode_of_decode {bytes rest : List Byte} {i : Instr}
    (h : decode bytes = .instr i rest) :
    ∃ op b1 b2, decodeOpcode op b1 b2 = i ∧
      bytes = op :: (lookup op).mode.operandBytes b1 b2 ++ rest := by
  rcases decode_cases h with
    ⟨op, rfl, hw, rfl⟩ | ⟨op, b1, rfl, hw, rfl⟩ | ⟨op, b1, b2, rfl, hw, rfl⟩ <;>
  exact ⟨op, _, _, rfl, by simp [Mode.operandBytes, hw]⟩

/-- The decoder reads an instruction exactly from its encoding, for the well-formed ones (R50, R51,
R54, R55). -/
theorem decode_eq_instr_iff (bytes rest : List Byte) (i : Instr) :
    decode bytes = .instr i rest ↔ WellFormed i ∧ encode i ++ rest = bytes := by
  rw [wellFormed_iff_row?]
  constructor
  · intro h
    obtain ⟨op, b1, b2, hi, rfl⟩ := exists_decodeOpcode_of_decode h
    obtain ⟨hrow, hbytes⟩ := (decodeOpcode_eq_iff op b1 b2 i).1 hi
    have hop := lookup_opcode op
    exact ⟨⟨lookup op, hrow, by rw [hop]⟩, by rw [encode_eq hrow, hop, hbytes]⟩
  · rintro ⟨⟨r, hrow, hl⟩, rfl⟩
    have hlen : i.operandBytes.length = (lookup r.opcode).mode.operandWidth := by
      rw [hl, (mnemonic_mode_of_row? hrow).2, i.length_operandBytes]
    obtain ⟨b1, b2, hbytes, hdec⟩ := exists_decode_append r.opcode hlen rest
    have hi : decodeOpcode r.opcode b1 b2 = i :=
      (decodeOpcode_eq_iff r.opcode b1 b2 i).2 ⟨by rw [hrow, hl], hbytes⟩
    rw [encode_eq hrow, hdec, hi]

/-- The decoder refuses an opcode whose operand bytes are not all there (assumption 13). -/
theorem decode_of_length_lt {op : Byte} {rest : List Byte}
    (h : rest.length < (lookup op).mode.operandWidth) :
    decode (op :: rest) = .rejected (.truncated op) := by
  rcases (lookup op).mode.operandWidth_cases with hw | hw | hw <;> rw [hw] at h
  · omega
  · match rest with
    | [] => simp [decode, hw]
  · match rest with
    | [] | [_] => simp [decode, hw]

/-! ### The statements about the encoding -/

/-- Settles O1: the decoder reads an instruction from exactly its encoding. -/
theorem decodeEncodeRoundTrip : Obligations.DecodeEncodeRoundTrip := by
  intro i rest h
  exact (decode_eq_instr_iff _ rest i).2 ⟨h, rfl⟩

/-- Settles O2: the decoder reads an instruction from exactly its encoding. -/
theorem decodedBytesAreTheEncoding : Obligations.DecodedBytesAreTheEncoding := by
  intro bytes i rest
  exact (decode_eq_instr_iff bytes rest i).1

/-- Settles O3: the instruction read has the opcode's row, and so its mode. -/
theorem opcodeAloneGivesLength : Obligations.OpcodeAloneGivesLength := by
  refine ⟨fun op rest h => ?_, fun op rest => decode_of_length_lt, fun m => ?_, fun op h => ?_⟩
  · have hlen := List.length_take_of_le h
    obtain ⟨b1, b2, -, hdec⟩ :=
      exists_decode_append op hlen (rest.drop (lookup op).mode.operandWidth)
    rw [List.cons_append, List.take_append_drop] at hdec
    obtain ⟨hrow, -⟩ := (decodeOpcode_eq_iff op b1 b2 _).1 rfl
    obtain ⟨-, hmode⟩ := mnemonic_mode_of_row? hrow
    exact ⟨_, hdec, by rw [Instr.length, hmode], hmode.symm⟩
  · cases m <;> rfl
  · rw [lookup_unassigned op h]
    rfl

/-- Settles O4: the decoder is run on each word. -/
theorem specExampleWordsDecode : Obligations.SpecExampleWordsDecode := by
  unfold Obligations.SpecExampleWordsDecode
  decide

end Sys2Proof
end

section
/-! SUPPORT. The unassigned opcodes run the sentinel, which does nothing (`30_encoding.md` R55,
`47_flagops_system.md` R156). -/

namespace Sys2Proof.Machine

/-- A fetch of an opcode without operand bytes reads that byte only (R65, R80). -/
theorem fetchInstr_of_operandWidth_zero {s : State}
    (h : (lookup (memRead s.pc s).1).mode.operandWidth = 0) :
    fetchInstr s =
      (decodeOpcode (memRead s.pc s).1 0 0, { (memRead s.pc s).2 with pc := s.pc + 1 }) := by
  simp [fetchInstr, fetch8, h]

/-- The end of a step that adds no cycles changes nothing at a step boundary (R80). -/
theorem account_zero_of_boundary {s : State} (hb : Boundary s) : account 0 s = s := by
  obtain ⟨hp, he⟩ := hb
  apply State.ext <;> simp [hp, he]

/-- The sentinel leaves every state at a step boundary as it is (R156). -/
theorem exec_ill_of_boundary (op : Byte) {s : State} (hb : Boundary s) :
    exec (.ill op) s = .next s := by
  rw [exec_ill, ended, pageCrossCycle_of_not_eligible hb.2]
  exact congrArg Host.Outcome.next (account_zero_of_boundary hb)

/-- Settles O42: the unassigned opcodes have the sentinel's row, so the fetch reads one byte and the
sentinel runs. -/
theorem unassignedOpcodesDoNothing : Obligations.UnassignedOpcodesDoNothing := by
  refine ⟨rfl, by decide +kernel, mem_unassignedOpcodes_iff, fun op h rest => ?_,
    fun op => ⟨rfl, rfl, fun s => exec_ill_of_boundary op, fun s h hb hn hread => ?_⟩⟩
  · exact (decode_eq_instr_iff _ _ _).2 ⟨List.contains_iff_mem.2 h, rfl⟩
  · have hrow : lookup op = sentinelRow op := lookup_unassigned op h
    have hill : decodeOpcode op 0 0 = .ill op :=
      (decodeOpcode_eq_iff op 0 0 _).2 (hrow ▸ ⟨rfl, rfl⟩)
    subst hread
    rw [step_of_not_pending hn, fetchInstr_of_operandWidth_zero (by rw [hrow]; rfl), hill]
    exact exec_ill_of_boundary _ (by simpa using hb)

end Sys2Proof.Machine
end

section
/-! SUPPORT. The addresses that the addressing modes give (`40_addressing_modes.md` R70 to R78), as
numbers, and the bytes in page zero that pointers are made of. -/

namespace Sys2Proof.Machine

/-! ### Page zero -/

/-- The sum of two bytes as an address stays in page zero (R71, R72). -/
theorem zext_add_toNat (d ix : Byte) : (zext (d + ix)).toNat = (d.toNat + ix.toNat) % 256 := by
  rw [zext_toNat, BitVec.toNat_add]

/-- What a page-zero address holds, the address given as a number. -/
theorem stored_pageZero (s : State) {z : Byte} {n : Nat} (h : z.toNat = n) :
    s.stored (BitVec.ofNat 16 n) = some (s.mem.read z.toNat) := by
  have hz : BitVec.ofNat 16 n = zext z := BitVec.eq_of_toNat_eq <| by
    rw [zext_toNat, BitVec.toNat_ofNat]
    omega
  rw [hz, stored_zext]

/-- A well-formed instruction has a row of the table, or a sentinel's (R54, R55). -/
theorem exists_row_of_wellFormed {i : Instr} (h : WellFormed i) :
    ∃ r, (r ∈ opcodeTable ∨ r = sentinelRow r.opcode) ∧ r.mnemonic = i.mnemonic ∧
      r.mode = i.mode := by
  obtain ⟨r, hrow, hl⟩ := (wellFormed_iff_row? i).1 h
  have hmem := lookup_mem r.opcode
  rw [hl] at hmem
  exact ⟨r, hmem, mnemonic_mode_of_row? hrow⟩

/-- Zero Page,Y is a mode of LDX and STX only (R72). -/
theorem mnemonic_of_mode_zpy {i : Instr} (h : WellFormed i) (hz : i.mode = .zpy) :
    i.mnemonic = .ldx ∨ i.mnemonic = .stx := by
  have table : ∀ r ∈ opcodeTable, r.mode = .zpy → r.mnemonic = .ldx ∨ r.mnemonic = .stx := by
    decide +kernel
  obtain ⟨r, hr, hm, ha⟩ := exists_row_of_wellFormed h
  rw [← hm]
  rw [← ha] at hz
  rcases hr with hr | hr
  · exact table r hr hz
  · rw [hr] at hz
    cases hz

/-- Settles O13: the index is added to the byte, and the sum is then an address. -/
theorem zeroPageAddresses : Obligations.ZeroPageAddresses := by
  exact ⟨fun i => mnemonic_of_mode_zpy, fun d s => ⟨zext_toNat d, rfl, zext_add_toNat d s.x, rfl,
    zext_add_toNat d s.y, rfl, rfl, rfl, rfl⟩⟩

/-! ### Indexing -/

/-- The sum of a word and an index (R74, R75, R78). -/
theorem add_zext_toNat (base : Word) (ix : Byte) :
    (base + zext ix).toNat = (base.toNat + ix.toNat) % 65536 := by
  rw [BitVec.toNat_add, zext_toNat]

/-- Settles O14: indexing adds to the word and compares the high bytes. -/
theorem absoluteAddresses : Obligations.AbsoluteAddresses := by
  intro a s crossed
  have habx : resolve (.abx a) s = _ := indexed_eq a s.x s
  have haby : resolve (.aby a) s = _ := indexed_eq a s.y s
  rw [habx, haby]
  refine ⟨rfl, rfl, add_zext_toNat a s.x, rfl, add_zext_toNat a s.y, rfl, loByte a, hiByte a, ?_,
    rfl, rfl, rfl⟩
  rw [← word16_toNat, word16_bytes]

/-! ### Pointers -/

/-- Settles O15: both bytes of the pointer are RAM cells, and the address is the word they make. -/
theorem indexedIndirectAddress : Obligations.IndexedIndirectAddress := by
  intro d s
  have hizx : resolve (.izx d) s = _ := zeroPagePointer_eq (d + s.x) s
  have hlo : (d + s.x).toNat = (d.toNat + s.x.toNat) % 256 := BitVec.toNat_add _ _
  have hhi : (d + s.x + 1).toNat = (d.toNat + s.x.toNat + 1) % 256 := by bv_omega
  rw [hizx]
  exact ⟨_, _, stored_pageZero s hlo, stored_pageZero s hhi, word16_toNat _ _, rfl, rfl⟩

/-- Settles O16: both bytes of the pointer are RAM cells, and the word they make is indexed. -/
theorem indirectIndexedAddress : Obligations.IndirectIndexedAddress := by
  intro d s
  have hhi : (d + 1).toNat = (d.toNat + 1) % 256 := BitVec.toNat_add _ _
  refine ⟨_, _, stored_pageZero s rfl, stored_pageZero s hhi, ?_⟩
  simp only [resolve, zeroPagePointer_eq, indexed_eq, crossesPage, add_zext_toNat, word16_toNat,
    MemOperand.bytes, and_self]

end Sys2Proof.Machine
end

section
/-! SUPPORT. The eight branches (`40_addressing_modes.md` R79, `46_jumps_branches.md` R135 to
R143). -/

namespace Sys2Proof.Machine

/-! ### Rows and modes -/

/-- An instruction whose row the lookup finds again has what that row says (R54). -/
theorem hasRows_of_row {i : Instr} {r : Row} (h : i.row? = some r) (hl : lookup r.opcode = r) :
    HasRows i [(r.mode, r.opcode, r.cycles)] := by
  obtain ⟨-, hmode⟩ := mnemonic_mode_of_row? h
  refine ⟨iff_of_true ((wellFormed_iff_row? i).2 ⟨r, h, hl⟩) (by simp [hmode]), fun q hq _ => ?_⟩
  rw [List.mem_singleton.1 hq]
  exact ⟨encode_eq h, by rw [Instr.baseCycles, h]⟩

/-- The branches are the instructions of mode Relative (R79). -/
theorem mnemonic_of_mode_rel {i : Instr} (h : i.mode = .rel) :
    i.mnemonic ∈ [Mnemonic.bcc, .bcs, .beq, .bne, .bmi, .bpl, .bvc, .bvs] := by
  cases i with
  | bcc | bcs | beq | bne | bmi | bpl | bvc | bvs => simp [Instr.mnemonic]
  | lda o | ldx o | ldy o | and o | eor o | ora o | adc o | sbc o | cmp o | cpx o | cpy o =>
    cases o with
    | imm v => cases h
    | mem m => cases m <;> cases h
  | sta m | stx m | sty m | bit m | inc m | dec m => cases m <;> cases h
  | asl o | lsr o | rol o | ror o =>
    cases o with
    | acc => cases h
    | mem m => cases m <;> cases h
  | jmp t => cases t <;> cases h
  | _ => cases h

/-! ### A branch taken and not taken -/

/-- A step that writes PC and adds cycles, and does nothing else. -/
theorem ends_account_pc (n : Nat) (p : Word) (s : State) :
    Ends [] [] n s (account n { s with pc := p }) :=
  ⟨fun r _ => by cases r <;> rfl, fun _ _ => rfl, rfl, rfl, rfl, rfl, rfl⟩

/-- The end of a branch at a step boundary: there is no page-cross cycle (R82, R135). -/
theorem exec_of_branched {i : Instr} {cond : Bool} {off : Byte} {s : State} (hb : Boundary s)
    (h : handled i s = branched cond off s) :
    exec i s = .next (account (i.baseCycles + (branched cond off s).1) (branched cond off s).2) := by
  have hx : pageCrossCycle (branched cond off s).2 = 0 := pageCrossCycle_of_not_eligible hb.2
  rw [exec_eq_ended, h, ended, hx, Nat.add_zero]

/-- The cycles a taken branch adds, by the page of the target (R135). -/
theorem takenCycles_eq (next target : Word) :
    takenCycles next target = if next.toNat / 256 = target.toNat / 256 then 1 else 2 := by
  simp only [takenCycles, ← BitVec.toNat_inj, hiByte_toNat]

/-- A branch taken moves PC to its target, at 3 cycles in the same page and 4 in another (R135). -/
theorem exec_branch_taken {i : Instr} {off : Byte} {s : State} (hb : Boundary s)
    (hc : i.baseCycles = 2) (h : handled i s = branched true off s) :
    ∃ t, exec i s = .next t ∧ t.pc = branchTarget s.pc off ∧
      Ends [] [] (if s.pc.toNat / 256 = (branchTarget s.pc off).toNat / 256 then 3 else 4) s t ∧
      KeepsMemory s t ∧ t.devLog = s.devLog := by
  have hcost : 2 + takenCycles s.pc (branchTarget s.pc off) =
      if s.pc.toNat / 256 = (branchTarget s.pc off).toNat / 256 then 3 else 4 := by
    rw [takenCycles_eq]
    split <;> rfl
  refine ⟨_, exec_of_branched hb h, rfl, ?_, fun _ => rfl, rfl⟩
  rw [← hcost, hc]
  exact ends_account_pc _ _ s

/-- A branch not taken leaves PC, at 2 cycles (R135). -/
theorem exec_branch_not_taken {i : Instr} {off : Byte} {s : State} (hb : Boundary s)
    (hc : i.baseCycles = 2) (h : handled i s = branched false off s) :
    ∃ t, exec i s = .next t ∧ Ends [] [] 2 s t ∧ Quiet s t := by
  refine ⟨_, exec_of_branched hb h, ?_, rfl, fun _ => rfl, rfl⟩
  rw [hc]
  exact ends_account_pc _ _ s

/-- Settles O36: a branch is taken exactly when its flag is as named. -/
theorem branchesOnFlags : Obligations.BranchesOnFlags := by
  unfold Obligations.BranchesOnFlags
  intro branches
  have key (k : Byte → Instr) (mn : Mnemonic) (op : Byte) (f : Flag) (b : Bool)
      (hl : lookup op = ⟨op, mn, .rel, 2⟩) (hrow : ∀ off, (k off).row? = some ⟨op, mn, .rel, 2⟩)
      (hbytes : ∀ off, (k off).operandBytes = [off])
      (hk : ∀ off s, handled (k off) s = branched (s.flag f == b) off s) : branches k op f b := by
    have hc (off : Byte) : (k off).baseCycles = 2 := by rw [Instr.baseCycles, hrow]
    refine ⟨fun off => ⟨hasRows_of_row (hrow off) hl, hbytes off⟩,
      fun off s hb => ⟨_, branchTarget_toNat s.pc off, fun hf => ?_, fun hf => ?_⟩⟩
    · exact exec_branch_taken hb (hc off) (by rw [hk, beq_iff_eq.2 hf])
    · exact exec_branch_not_taken (off := off) hb (hc off) (by rw [hk, beq_eq_false_iff_ne.2 hf])
  exact ⟨fun i => mnemonic_of_mode_rel,
    key .bcc .bcc 0x90 .c false rfl (fun _ => rfl) (fun _ => rfl) (by simp [handled]),
    key .bcs .bcs 0xB0 .c true rfl (fun _ => rfl) (fun _ => rfl) (by simp [handled]),
    key .beq .beq 0xF0 .z true rfl (fun _ => rfl) (fun _ => rfl) (by simp [handled]),
    key .bne .bne 0xD0 .z false rfl (fun _ => rfl) (fun _ => rfl) (by simp [handled]),
    key .bmi .bmi 0x30 .n true rfl (fun _ => rfl) (fun _ => rfl) (by simp [handled]),
    key .bpl .bpl 0x10 .n false rfl (fun _ => rfl) (fun _ => rfl) (by simp [handled]),
    key .bvc .bvc 0x50 .v false rfl (fun _ => rfl) (fun _ => rfl) (by simp [handled]),
    key .bvs .bvs 0x70 .v true rfl (fun _ => rfl) (fun _ => rfl) (by simp [handled])⟩

end Sys2Proof.Machine
end

section
/-! SUPPORT. That a step completes and what it costs (`41_step_dispatch.md` R80 to R85,
`70_reset_and_hazards.md` R191): the base cycles of the opcode's row, the cycles a taken branch adds,
and the page-cross cycle. -/

namespace Sys2Proof.Machine

/-! ### Every step completes -/

/-- Settles O45: NMI service and every instruction answer a next state. -/
theorem everyStepCompletes : Obligations.EveryStepCompletes := by
  intro s
  rcases Bool.eq_false_or_eq_true s.nmiPending with hn | hn
  · exact ⟨_, step_of_pending hn⟩
  · exact ⟨_, (step_of_not_pending hn).trans (exec_eq_ended _ _)⟩

/-! ### The two transient flags after a handler -/

/-- The mnemonics whose handlers ask for the page-cross cycle (R83). -/
def pageCrossMnemonics : List Mnemonic := [.adc, .and, .cmp, .eor, .lda, .ldx, .ldy, .ora, .sbc]

/-- The modes whose address computation can cross a page (R74, R75, R78). -/
def pageCrossModes : List Mode := [.abx, .aby, .izy]

@[simp] theorem loadReg_pageCrossed (r : Reg) (v : Byte) (s : State) :
    (loadReg r v s).pageCrossed = s.pageCrossed := by
  cases r <;> rfl
@[simp] theorem loadReg_extraEligible (r : Reg) (v : Byte) (s : State) :
    (loadReg r v s).extraEligible = s.extraEligible := by
  cases r <;> rfl

/-- The page-cross flag after a shift in memory (R66). -/
theorem shiftOp_mem_pageCrossed (f : Byte → Bool → Byte × Bool) (m : MemOperand) (s : State) :
    (shiftOp f (.mem m) s).pageCrossed = (s.pageCrossed || memCrosses m s) := by
  simp [shiftOp, resolve_pageCrossed]

/-- A handler sets the page-cross flag exactly where its address computation crosses a page. -/
theorem handled_pageCrossed (i : Instr) (s : State) :
    (handled i s).2.pageCrossed = (s.pageCrossed || instrCrosses i s) := by
  cases i with
  | lda | ldx | ldy | and | eor | ora | adc | sbc | cmp | cpx | cpy =>
    simp [handled, instrCrosses, readData_pageCrossed]
  | sta | stx | sty => simp [handled, instrCrosses, writeMem_pageCrossed]
  | bit => simp [handled, instrCrosses, readMem_pageCrossed]
  | inc | dec => simp [handled, instrCrosses, modifyMem_pageCrossed]
  | asl o | lsr o | rol o | ror o =>
    cases o with
    | acc => simp [handled, instrCrosses, shiftOp]
    | mem m => simp [handled, instrCrosses, shiftOp_mem_pageCrossed]
  | _ => simp [handled, instrCrosses, State.withReg, pullWord_eq, returnFromInterrupt_eq]

/-- A handler asks for the page-cross cycle exactly where its mnemonic is one of the nine (R83). -/
theorem handled_extraEligible (i : Instr) (s : State) :
    (handled i s).2.extraEligible =
      (s.extraEligible || decide (i.mnemonic ∈ pageCrossMnemonics)) := by
  cases i with
  | lda | ldx | ldy | and | eor | ora | adc | sbc | cmp =>
    simp [handled, Instr.mnemonic, pageCrossMnemonics]
  | _ =>
    simp [handled, Instr.mnemonic, pageCrossMnemonics, State.withReg, pullWord_eq,
      returnFromInterrupt_eq]

/-! ### The page-cross cycle -/

theorem mode_of_memCrosses {m : MemOperand} {s : State} (h : memCrosses m s = true) :
    m.mode ∈ pageCrossModes := by
  cases m with
  | abx | aby | izy => simp [MemOperand.mode, pageCrossModes]
  | zp | zpx | zpy | abs | izx => cases h

/-- An address computation crosses a page in the indexed modes only (R74, R75, R78). -/
theorem mode_of_instrCrosses {i : Instr} {s : State} (h : instrCrosses i s = true) :
    i.mode ∈ pageCrossModes := by
  cases i with
  | lda o | ldx o | ldy o | and o | eor o | ora o | adc o | sbc o | cmp o | cpx o | cpy o =>
    cases o with
    | imm => cases h
    | mem m => exact mode_of_memCrosses h
  | sta m | stx m | sty m | bit m | inc m | dec m => exact mode_of_memCrosses h
  | asl o | lsr o | rol o | ror o =>
    cases o with
    | acc => cases h
    | mem m => exact mode_of_memCrosses h
  | _ => cases h

/-- The 22 opcodes of R83 are those of the nine mnemonics in the modes that can cross a page. -/
theorem mem_pageCrossOpcodes_iff (op : Byte) :
    op ∈ pageCrossOpcodes ↔
      (lookup op).mnemonic ∈ pageCrossMnemonics ∧ (lookup op).mode ∈ pageCrossModes := by
  revert op
  decide +kernel

/-- The page-cross cycle of an instruction: where its opcode is one of the 22 and its address
computation crosses a page (R82, R83). -/
theorem pageCrossCycle_handled {i : Instr} {op : Byte} {s : State} (hb : Boundary s)
    (hrow : i.row? = some (lookup op)) :
    pageCrossCycle (handled i s).2 =
      if op ∈ pageCrossOpcodes ∧ instrCrosses i s = true then 1 else 0 := by
  obtain ⟨hp, he⟩ := hb
  obtain ⟨hmn, hmode⟩ := mnemonic_mode_of_row? hrow
  have hiff : (instrCrosses i s && decide (i.mnemonic ∈ pageCrossMnemonics)) = true ↔
      op ∈ pageCrossOpcodes ∧ instrCrosses i s = true := by
    rw [mem_pageCrossOpcodes_iff, hmn, hmode, Bool.and_eq_true, decide_eq_true_iff]
    exact ⟨fun ⟨hc, hm⟩ => ⟨⟨hm, mode_of_instrCrosses hc⟩, hc⟩, fun ⟨⟨hm, _⟩, hc⟩ => ⟨hc, hm⟩⟩
  rw [pageCrossCycle, handled_pageCrossed, handled_extraEligible, hp, he, Bool.false_or,
    Bool.false_or]
  exact if_congr hiff rfl rfl

/-! ### The cycles a handler adds -/

theorem takenCycles_le (next target : Word) : takenCycles next target ≤ 2 := by
  unfold takenCycles
  split <;> decide

/-- Only a branch adds cycles of its own, at most two (R84, R135). -/
theorem handled_fst_le (i : Instr) (s : State) :
    (handled i s).1 ≤ if i.mode = .rel then 2 else 0 := by
  have hbr (cond : Bool) (off : Byte) : (branched cond off s).1 ≤ 2 := by
    cases cond with
    | true => exact takenCycles_le _ _
    | false => exact Nat.zero_le 2
  cases i with
  | bcc | bcs | beq | bne | bmi | bpl | bvc | bvs => exact hbr _ _
  | _ => exact Nat.zero_le _

/-- What an instruction of the opcode `op` costs at a step boundary (R82, R83, R84). -/
theorem cycles_of_exec {i : Instr} {op : Byte} {s t : State} (hb : Boundary s)
    (hrow : i.row? = some (lookup op)) (h : exec i s = .next t) :
    t.cycles = s.cycles + (i.baseCycles + (handled i s).1 +
      if op ∈ pageCrossOpcodes ∧ instrCrosses i s = true then 1 else 0) := by
  rw [eq_account_of_exec h, account_cycles, handled_cycles, pageCrossCycle_handled hb hrow]

/-- Settles O51: an instruction that is no branch adds no cycles but the page-cross cycle. -/
theorem pageCrossCycleForListedOpcodes : Obligations.PageCrossCycleForListedOpcodes := by
  intro i s t hwf hrel hb h
  obtain ⟨r, hrow, hl⟩ := (wellFormed_iff_row? i).1 hwf
  have hop : (∃ op ∈ pageCrossOpcodes, (encode i).head? = some op) ↔
      r.opcode ∈ pageCrossOpcodes := by
    simp [encode_eq hrow]
  have hadd : (handled i s).1 = 0 := by
    simpa [hrel] using handled_fst_le i s
  rw [cycles_of_exec hb (hl.symm ▸ hrow) h, hadd, Nat.add_zero, ← Nat.add_assoc]
  simp only [hop]

/-! ### The range of the cost -/

/-- The most cycles an instruction of the opcode `op` can take beyond its base cycles: two for a
branch, one for an opcode that takes the page-cross cycle (R83, R135). -/
def maxAdded (op : Byte) : Nat :=
  (if (lookup op).mode = .rel then 2 else 0) + if op ∈ pageCrossOpcodes then 1 else 0

/-- The cost of an opcode, whatever it adds to its base cycles (R191), read off the table. -/
theorem rowCost_inRange : ∀ op : Byte, ∀ k ≤ maxAdded op,
    (lookup op).cycles + k ∈ [0, 2, 3, 4, 5, 6, 7] ∧
    ((lookup op).cycles + k = 0 ↔ (lookup op).mnemonic = .ill) ∧
    ((lookup op).cycles + k = 7 ↔ (lookup op).mnemonic = .brk ∨ ((lookup op).mode = .abx ∧
      (lookup op).mnemonic ∈ [Mnemonic.asl, .lsr, .rol, .ror, .inc, .dec])) := by
  decide +kernel

/-- The instruction fetched has the row of the opcode fetched (R81). -/
theorem row?_fetchInstr (s : State) : (fetchInstr s).1.row? = some (lookup (fetch8 s).1) := by
  obtain ⟨b1, b2, hi⟩ := fetchInstr_decodeOpcode s
  obtain ⟨hrow, -⟩ := (decodeOpcode_eq_iff _ b1 b2 _).1 hi.symm
  exact hrow

/-- An instruction of the opcode `op` costs its base cycles and at most `maxAdded op` more. -/
theorem exists_cycles_of_exec {i : Instr} {op : Byte} {s t : State} (hb : Boundary s)
    (hrow : i.row? = some (lookup op)) (h : exec i s = .next t) :
    ∃ k ≤ maxAdded op, t.cycles = s.cycles + ((lookup op).cycles + k) := by
  obtain ⟨-, hmode⟩ := mnemonic_mode_of_row? hrow
  have hbase : i.baseCycles = (lookup op).cycles := by rw [Instr.baseCycles, hrow]
  refine ⟨(handled i s).1 + if op ∈ pageCrossOpcodes ∧ instrCrosses i s = true then 1 else 0,
    Nat.add_le_add (hmode ▸ handled_fst_le i s) ?_, ?_⟩
  · by_cases hop : op ∈ pageCrossOpcodes
    · simp only [hop, true_and, if_true]
      split <;> decide
    · simp [hop]
  · rw [cycles_of_exec hb hrow h, hbase, Nat.add_assoc (lookup op).cycles]

/-- Settles O50: NMI service costs seven cycles, and an instruction what its opcode allows. -/
theorem stepCostInRange : Obligations.StepCostInRange := by
  intro s t hb h
  rcases Bool.eq_false_or_eq_true s.nmiPending with hn | hn
  · obtain rfl : serviceNmi s = t := Host.Outcome.next.inj (step_of_pending hn ▸ h)
    exact ⟨7, by decide, by simp [serviceNmi], by simp [hn], by simp [hn]⟩
  · rw [step_of_not_pending hn] at h
    have hrow := row?_fetchInstr s
    obtain ⟨hmn, hmode⟩ := mnemonic_mode_of_row? hrow
    obtain ⟨k, hk, hc⟩ := exists_cycles_of_exec (by simpa [Boundary] using hb) hrow h
    obtain ⟨hmem, h0, h7⟩ := rowCost_inRange _ k hk
    rw [hmn] at h0 h7
    rw [hmode] at h7
    exact ⟨_, hmem, by simpa using hc, by simpa [hn] using h0, by simpa [hn] using h7⟩

end Sys2Proof.Machine
end

section
/-! SUPPORT. The rows of a mnemonic (`30_encoding.md` R54), and the frame of every instruction from
the lists of who writes what (`10_state.md` R11 to R18, `41_step_dispatch.md` R80 to R84). -/

namespace Sys2Proof.Machine

/-! ### The rows of a mnemonic -/

/-- The rows of a mnemonic in the opcode table, as `HasRows` writes them (R54). -/
def tableRows (mn : Mnemonic) : List (Mode × Byte × Nat) :=
  (opcodeTable.filter (fun r => r.mnemonic = mn)).map (fun r => (r.mode, r.opcode, r.cycles))

/-- What `HasRows` says of an instruction holds of its mnemonic's rows of the table (R54). -/
theorem hasRows_tableRows {i : Instr} (hill : i.mnemonic ≠ .ill) :
    HasRows i (tableRows i.mnemonic) := by
  constructor
  · rw [WellFormed, wellFormed_eq_isSome_row? hill, row?_eq_find? hill, List.find?_isSome]
    simp [tableRows, and_assoc]
  · simp only [tableRows, List.forall_mem_map, List.mem_filter, decide_eq_true_eq]
    rintro r ⟨hr, hmn⟩ hmode
    have hrow : i.row? = some r := (row?_eq_some_iff hr i).2 ⟨hmn.symm, hmode⟩
    exact ⟨encode_eq hrow, by rw [Instr.baseCycles, hrow]⟩

/-! ### The frame of an instruction -/

/-- The 8-bit registers a mnemonic is listed to write (R11 to R14). -/
def regsWritten (mn : Mnemonic) : List Reg :=
  [Reg.a, .x, .y, .sp].filter (fun r => mn ∈ regWriters r)

/-- The bits of P a mnemonic is listed to write (R18). -/
def flagsWritten (mn : Mnemonic) : List Flag :=
  [Flag.c, .z, .i, .d, .b, .u, .v, .n].filter (fun f => mn ∈ flagWriters f)

theorem mem_regsWritten {mn : Mnemonic} {r : Reg} : r ∈ regsWritten mn ↔ mn ∈ regWriters r := by
  cases r <;> simp [regsWritten]

theorem mem_flagsWritten {mn : Mnemonic} {f : Flag} :
    f ∈ flagsWritten mn ↔ mn ∈ flagWriters f := by
  cases f <;> simp [flagsWritten]

/-- The end of an instruction whose handler adds no cycles of its own, the page-cross cycle being
`n`: it keeps every register and bit of P that its mnemonic is not listed to write (R11 to R18, R80,
R82). -/
theorem exec_of_handled {i : Instr} {s u : State} {n : Nat} (h : handled i s = (0, u))
    (hn : pageCrossCycle u = n) :
    exec i s = .next (account (i.baseCycles + n) u) ∧
      Ends (regsWritten i.mnemonic) (flagsWritten i.mnemonic) (i.baseCycles + n) s
        (account (i.baseCycles + n) u) := by
  have hexec : exec i s = .next (account (i.baseCycles + n) u) := by
    rw [exec_eq_ended, h, ended, hn, Nat.add_zero]
  have hcycles : u.cycles = s.cycles := by
    simpa only [h] using handled_cycles i s
  obtain ⟨hnmi, hprg, hbound⟩ := noInstructionTouchesTheRequest i s _ hexec
  refine ⟨hexec, fun r hr => ?_, fun f hf => ?_, ?_, hnmi, hprg, hbound⟩
  · exact registerWritersAreTheListedOnes i s _ r hexec (mt mem_regsWritten.2 hr)
  · exact flagWritersAreTheListedOnes i s _ f hexec (mt mem_flagsWritten.2 hf)
  · rw [account_cycles, hcycles]

end Sys2Proof.Machine
end

section
/-! SUPPORT. Load, store and transfer (`42_load_store_transfer.md` R90 to R101): one lemma for each
effect that several instructions share. Of a given instruction, the lists of what its mnemonic writes
and its base cycles are computed from the tables. -/

namespace Sys2Proof.Machine

/-! ### Loading a register -/

theorem reg_loadReg_same (r : Reg) (v : Byte) (s : State) : (loadReg r v s).reg r = v := by
  cases r <;> rfl

@[simp] theorem loadReg_devLog (r : Reg) (v : Byte) (s : State) :
    (loadReg r v s).devLog = s.devLog := by
  cases r <;> rfl

/-- A loaded register takes the byte, and Zero and Negative show it (R20). -/
theorem showsZN_loadReg (r : Reg) (v : Byte) (s : State) : ShowsZN v (loadReg r v s) :=
  showsZN_of (by simp) (by simp)

/-- An instruction that loads a register with a byte `v` after reading a data operand, and asks for
the page-cross cycle (R82, R90). -/
theorem exec_readOperand_loadReg {i : Instr} {r : Reg} {v : Byte} {o : DataOperand} {s : State}
    (hb : Boundary s) (h : handled i s = (0, markEligible (loadReg r v (readData o s).2))) :
    ∃ t, exec i s = .next t ∧ t.reg r = v ∧ ShowsZN v t ∧
      Ends (regsWritten i.mnemonic) (flagsWritten i.mnemonic) (readCost i o s) s t ∧
      OnlyReads o s t := by
  obtain ⟨hexec, hends⟩ := exec_of_handled h
    (pageCrossCycle_of_readData (o := o) hb (by simp) (by simp))
  refine ⟨_, hexec, ?_, ?_, hends, ?_⟩
  · exact reg_loadReg_same r v _
  · exact showsZN_loadReg r v _
  · exact ⟨by simp, fun b => stored_congr (by simp) (by simp) b, by simp⟩

/-- An instruction that loads a register with a byte `v` and does nothing else (R96). -/
theorem exec_loadReg {i : Instr} {r : Reg} {v : Byte} {s : State} (hb : Boundary s)
    (h : handled i s = (0, loadReg r v s)) :
    ∃ t, exec i s = .next t ∧ t.reg r = v ∧ ShowsZN v t ∧
      Ends (regsWritten i.mnemonic) (flagsWritten i.mnemonic) i.baseCycles s t ∧ Quiet s t := by
  obtain ⟨hexec, hends⟩ := exec_of_handled h (pageCrossCycle_of_not_eligible (by simp [hb.2]))
  refine ⟨_, hexec, ?_, ?_, hends, ?_⟩
  · exact reg_loadReg_same r v _
  · exact showsZN_loadReg r v _
  · exact ⟨by simp, fun b => stored_congr (by simp) (by simp) b, by simp⟩

/-! ### Writing memory, and SP -/

/-- An instruction that writes a byte through an operand and does nothing else (R93). -/
theorem exec_writeMem {i : Instr} {m : MemOperand} {v : Byte} {s : State} (hb : Boundary s)
    (h : handled i s = (0, writeMem m v s)) :
    ∃ t, exec i s = .next t ∧ Stores (resolve m s).1 v s t ∧ t.pc = s.pc ∧
      Ends (regsWritten i.mnemonic) (flagsWritten i.mnemonic) i.baseCycles s t := by
  obtain ⟨hexec, hends⟩ := exec_of_handled h (pageCrossCycle_of_not_eligible (by simp [hb.2]))
  exact ⟨_, hexec, stores_of_writeMem rfl (by simp) rfl, by simp, hends⟩

/-- TXS writes SP and nothing else (R101). -/
theorem exec_txs_of_boundary {s : State} (hb : Boundary s) :
    ∃ t, exec .txs s = .next t ∧ t.sp = s.x ∧ Ends [.sp] [] 2 s t ∧ Quiet s t := by
  obtain ⟨hexec, hends⟩ := exec_of_handled (i := .txs) (u := s.withReg .sp s.x) rfl
    (pageCrossCycle_of_not_eligible hb.2)
  exact ⟨_, hexec, rfl, hends, rfl, fun b => rfl, rfl⟩

/-! ### Loads, stores and transfers -/

/-- Settles O17: the rows are the table's, and the three loads share one effect. -/
theorem loadsFillTheRegister : Obligations.LoadsFillTheRegister := by
  refine ⟨fun o => hasRows_tableRows (i := .lda o) nofun,
    fun o => hasRows_tableRows (i := .ldx o) nofun, fun o => hasRows_tableRows (i := .ldy o) nofun,
    fun v s => rfl, fun m s => rfl, fun o s hb => ⟨?_, ?_, ?_⟩⟩
  · exact exec_readOperand_loadReg (i := .lda o) (r := .a) hb rfl
  · exact exec_readOperand_loadReg (i := .ldx o) (r := .x) hb rfl
  · exact exec_readOperand_loadReg (i := .ldy o) (r := .y) hb rfl

/-- Settles O18: the rows are the table's, and the three stores share one effect. -/
theorem storesWriteTheRegister : Obligations.StoresWriteTheRegister := by
  refine ⟨fun m => hasRows_tableRows (i := .sta m) nofun,
    fun m => hasRows_tableRows (i := .stx m) nofun, fun m => hasRows_tableRows (i := .sty m) nofun,
    fun m s hb => ⟨?_, ?_, ?_⟩⟩
  · exact exec_writeMem (i := .sta m) hb rfl
  · exact exec_writeMem (i := .stx m) hb rfl
  · exact exec_writeMem (i := .sty m) hb rfl

/-- Settles O19: each has one row; five share the effect of a loaded register, and TXS writes no
flag. -/
theorem transfersCopyRegisters : Obligations.TransfersCopyRegisters := by
  refine ⟨hasRows_tableRows (i := .tax) nofun, hasRows_tableRows (i := .tay) nofun,
    hasRows_tableRows (i := .txa) nofun, hasRows_tableRows (i := .tya) nofun,
    hasRows_tableRows (i := .tsx) nofun, hasRows_tableRows (i := .txs) nofun,
    fun s hb => ⟨?_, ?_, ?_, ?_, ?_, exec_txs_of_boundary hb⟩⟩
  · exact exec_loadReg (i := .tax) (r := .x) hb rfl
  · exact exec_loadReg (i := .tay) (r := .y) hb rfl
  · exact exec_loadReg (i := .txa) (r := .a) hb rfl
  · exact exec_loadReg (i := .tya) (r := .a) hb rfl
  · exact exec_loadReg (i := .tsx) (r := .x) hb rfl

end Sys2Proof.Machine
end

section
/-! SUPPORT. The stack (`43_stack.md` R102 to R107): push and pull as one equation each, and one lemma
for each effect that two instructions share. -/

namespace Sys2Proof.Machine

/-! ### Push and pull -/

theorem stackAddr_toNat (sp : Byte) : (stackAddr sp).toNat = 0x0100 + sp.toNat := by
  have := sp.isLt
  rw [stackAddr, stackBase, zext, BitVec.toNat_add, BitVec.toNat_setWidth]
  simp only [BitVec.toNat_ofNat]
  omega

/-- Everything a push does: the stack cell takes the byte and SP goes down (R102). -/
theorem push_eq (v : Byte) (s : State) :
    push v s = { s with sp := s.sp - 1, mem := s.mem.write (0x0100 + s.sp.toNat) v } := by
  simp [push, memWrite]

theorem push_sp_toNat (v : Byte) (s : State) :
    (push v s).sp.toNat = (s.sp.toNat + 255) % 256 := by
  rw [push_sp]
  bv_omega

/-- A pull undoes a push but for the byte left in memory, for every SP (R102, R103). -/
theorem pull_push (v : Byte) (s : State) :
    pull (push v s) = (v, { s with mem := (push v s).mem }) := by
  simp [pull_eq, push_eq]

/-! ### Handlers that push or pull -/

/-- An instruction that pushes a byte and does nothing else (R104). -/
theorem exec_push {i : Instr} {v : Byte} {s : State} (hb : Boundary s)
    (h : handled i s = (0, push v s)) :
    ∃ t, exec i s = .next t ∧ Holds (stackAddr s.sp) v t ∧
      t.sp.toNat = (s.sp.toNat + 255) % 256 ∧ KeepsMemoryBut [stackAddr s.sp] s t ∧ t.pc = s.pc ∧
      t.devLog = s.devLog ∧ t.p = s.p ∧
      Ends (regsWritten i.mnemonic) (flagsWritten i.mnemonic) i.baseCycles s t := by
  obtain ⟨hexec, hends⟩ := exec_of_handled h (pageCrossCycle_of_not_eligible (by simp [hb.2]))
  obtain ⟨hholds, hkeeps⟩ := holds_of_push (v := v) (s := s)
    (t := account (i.baseCycles + 0) (push v s)) rfl (by simp)
  exact ⟨_, hexec, hholds, push_sp_toNat v s, hkeeps, by simp, by simp, by simp, hends⟩

/-- The end of an instruction that pulls a byte and then writes registers and flags only (R106,
R107). -/
theorem exec_pull {i : Instr} {s u : State} (hb : Boundary s) (h : handled i s = (0, u))
    (hsp : u.sp = s.sp + 1) (hpc : u.pc = s.pc) (hmem : u.mem = s.mem)
    (hlog : u.devLog = s.devLog) (helig : u.extraEligible = s.extraEligible) :
    exec i s = .next (account i.baseCycles u) ∧
      (account i.baseCycles u).sp.toNat = (s.sp.toNat + 1) % 256 ∧
      Ends (regsWritten i.mnemonic) (flagsWritten i.mnemonic) i.baseCycles s
        (account i.baseCycles u) ∧
      Quiet s (account i.baseCycles u) := by
  obtain ⟨hexec, hends⟩ := exec_of_handled h
    (pageCrossCycle_of_not_eligible (helig.trans hb.2))
  have ⟨_, _, _, _, hprg, _⟩ := hends
  refine ⟨hexec, ?_, hends, hpc, fun b => stored_congr hmem hprg b, hlog⟩
  rw [account_sp, hsp]
  exact BitVec.toNat_add s.sp 1

/-! ### The stack and its instructions -/

/-- Settles O12: the stack page is RAM, so the byte pushed is there to be pulled. -/
theorem pushAndPull : Obligations.PushAndPull := by
  refine ⟨stackAddr_toNat, fun v s => ?_, fun s => ?_, fun v s => ?_⟩
  · obtain ⟨hholds, hkeeps⟩ := holds_of_push (v := v) (s := s) rfl (push_prg v s)
    exact ⟨hholds, hkeeps, push_sp_toNat v s, by simp [push_eq]⟩
  · exact ⟨s.sp + 1, BitVec.toNat_add s.sp 1, pull_stored s, by rw [pull_eq]⟩
  · rw [pull_push]
    exact ⟨rfl, rfl⟩

/-- Settles O20: both push one byte, PHP its copy of P with the two bits forced. -/
theorem pushInstructions : Obligations.PushInstructions := by
  refine ⟨hasRows_tableRows (i := .pha) nofun, hasRows_tableRows (i := .php) nofun,
    fun s hb => ⟨?_, ?_⟩⟩
  · obtain ⟨t, hexec, hholds, hsp, hkeeps, hpc, hlog, -, hends⟩ :=
      exec_push (i := .pha) hb rfl
    exact ⟨t, hexec, hholds, hsp, hkeeps, hpc, hlog, hends⟩
  · have hforced : statusForPush true s.p = s.p ||| 0x30#8 := BitVec.or_assoc _ _ _
    rw [← hforced]
    exact exec_push (i := .php) hb rfl

/-- Settles O21: both pull one byte, PLA into A and its two flags, PLP into the whole of P. -/
theorem pullInstructions : Obligations.PullInstructions := by
  refine ⟨hasRows_tableRows (i := .pla) nofun, hasRows_tableRows (i := .plp) nofun,
    fun s hb => ⟨?_, ?_⟩⟩
  · obtain ⟨hexec, hsp, hends, hquiet⟩ := exec_pull (i := .pla) hb rfl
      (by simp [loadReg, State.withReg]) (by simp) (by simp) (by simp) (by simp)
    exact ⟨_, hexec, pull_stored s, showsZN_loadReg .a _ _, hsp, hends, hquiet⟩
  · obtain ⟨hexec, hsp, hends, hquiet⟩ := exec_pull (i := .plp) hb rfl
      (by simp) (by simp) (by simp) (by simp) (by simp)
    exact ⟨_, hexec, pull_stored s, hsp, hends, hquiet⟩

end Sys2Proof.Machine
end

section
/-! SUPPORT. Logic, arithmetic and comparison (`44_logical_arith_compare.md` R110 to R119): one lemma
for what every instruction that reads an operand and stores nothing has in common, and the adder and
the comparison as arithmetic. -/

namespace Sys2Proof.Machine

/-! ### Instructions that read an operand and store nothing -/

/-- The bits of P that a step may write can be listed in any order, and more of them. -/
theorem Ends.mono_flags {regs : List Reg} {flags flags' : List Flag} {cost : Nat} {s t : State}
    (h : Ends regs flags cost s t) (hsub : flags ⊆ flags') : Ends regs flags' cost s t := by
  obtain ⟨hregs, hflags, hrest⟩ := h
  exact ⟨hregs, fun f hf => hflags f (mt (@hsub f) hf), hrest⟩

/-- The end of an instruction whose handler reads an operand and then writes registers and flags only,
the page-cross cycle being `n` (R82). -/
theorem exec_readOperand {i : Instr} {o : DataOperand} {s u : State} {n : Nat}
    (h : handled i s = (0, u)) (hn : pageCrossCycle u = n) (hpc : u.pc = s.pc)
    (hmem : u.mem = s.mem) (hlog : u.devLog = (readData o s).2.devLog) :
    exec i s = .next (account (i.baseCycles + n) u) ∧
      Ends (regsWritten i.mnemonic) (flagsWritten i.mnemonic) (i.baseCycles + n) s
        (account (i.baseCycles + n) u) ∧
      OnlyReads o s (account (i.baseCycles + n) u) := by
  obtain ⟨hexec, hends⟩ := exec_of_handled h hn
  have ⟨_, _, _, _, hprg, _⟩ := hends
  exact ⟨hexec, hends, hpc, fun b => stored_congr hmem hprg b, hlog⟩

/-! ### The logical operations -/

/-- An instruction that combines A and the operand byte bit by bit into A (R110). -/
theorem exec_bitwise {i : Instr} {o : DataOperand} {s : State} {op : Byte → Byte → Byte}
    {bit : Bool → Bool → Bool} (hb : Boundary s)
    (hbit : ∀ x y k, (op x y).getLsbD k = bit (x.getLsbD k) (y.getLsbD k))
    (h : handled i s = (0, markEligible (loadReg .a (op s.a (readData o s).1) (readData o s).2))) :
    ∃ t, exec i s = .next t ∧
      (∀ k, t.a.getLsbD k = bit (s.a.getLsbD k) ((readData o s).1.getLsbD k)) ∧ ShowsZN t.a t ∧
      Ends (regsWritten i.mnemonic) (flagsWritten i.mnemonic) (readCost i o s) s t ∧
      OnlyReads o s t := by
  obtain ⟨t, hexec, ha, hzn, hends, hreads⟩ := exec_readOperand_loadReg hb h
  rw [← ha] at hzn
  refine ⟨t, hexec, fun k => ?_, hzn, hends, hreads⟩
  rw [← hbit, ← ha]
  rfl

/-- Settles O22: the three share one effect, a bitwise operation each. -/
theorem logicalOperations : Obligations.LogicalOperations := by
  refine ⟨fun o => hasRows_tableRows (i := .and o) nofun,
    fun o => hasRows_tableRows (i := .eor o) nofun, fun o => hasRows_tableRows (i := .ora o) nofun,
    fun o s hb => ⟨?_, ?_, ?_⟩⟩
  · exact exec_bitwise (i := .and o) hb (fun _ _ _ => BitVec.getLsbD_and) (by simp [handled])
  · exact exec_bitwise (i := .eor o) hb (fun _ _ _ => BitVec.getLsbD_xor) (by simp [handled])
  · exact exec_bitwise (i := .ora o) hb (fun _ _ _ => BitVec.getLsbD_or) (by simp [handled])

/-- Two bytes have no bit in common exactly when their conjunction is 0 (R113). -/
theorem and_beq_zero_iff (x y : Byte) :
    (x &&& y == 0) = true ↔ ∀ k, (x.getLsbD k && y.getLsbD k) = false := by
  simp only [beq_iff_eq, ← BitVec.getLsbD_and]
  exact ⟨fun h k => h ▸ BitVec.getLsbD_zero,
    fun h => BitVec.eq_of_getLsbD_eq fun k _ => (h k).trans BitVec.getLsbD_zero.symm⟩

/-- Settles O23: the handler writes the three flags and asks for no page-cross cycle. -/
theorem bitTestsMemory : Obligations.BitTestsMemory := by
  refine ⟨fun m => hasRows_tableRows (i := .bit m) nofun, fun m s hb => ?_⟩
  obtain ⟨hexec, hends, hreads⟩ := exec_readOperand (i := .bit m) (o := .mem m) (s := s) rfl
    (pageCrossCycle_of_not_eligible (by simp [hb.2])) (by simp) (by simp) (by simp [readData])
  refine ⟨_, hexec, ?_, ?_, ?_, hends.mono_flags (by decide : flagsWritten .bit ⊆ _), hreads⟩
  · rw [flag_account, flag_bitFlags, readMem_a]
    exact and_beq_zero_iff _ _
  · exact flag_bitFlags (readMem m s).1 (readMem m s).2 .n
  · exact flag_bitFlags (readMem m s).1 (readMem m s).2 .v

/-! ### The adder -/

/-- What the adder leaves in A, as a number (R114). -/
theorem addCore_a_toNat (b : Byte) (s : State) :
    (addCore b s).a.toNat = (s.a.toNat + b.toNat + if s.flag .c then 1 else 0) % 256 := by
  rw [addCore_a, BitVec.toNat_ofNat, Bool.toNat, Bool.cond_eq_ite]

/-- The carry out of the adder (R114). -/
theorem flag_c_addCore (b : Byte) (s : State) :
    (addCore b s).flag .c = decide (255 < s.a.toNat + b.toNat + if s.flag .c then 1 else 0) := by
  rw [flag_addCore]
  cases s.flag .c <;> rfl

/-- The signed overflow of the adder (R114). -/
theorem flag_v_addCore (b : Byte) (s : State) :
    (addCore b s).flag .v =
      decide (s.a.toInt + b.toInt + (if s.flag .c then 1 else 0 : Nat) < -128 ∨
        127 < s.a.toInt + b.toInt + (if s.flag .c then 1 else 0 : Nat)) := by
  rw [flag_addCore]
  refine (overflow_eq_decide s.a b (s.flag .c)).trans ?_
  cases s.flag .c <;> rfl

/-- What the adder writes depends on A and P only. -/
theorem addCore_readData (b : Byte) (o : DataOperand) (s : State) :
    (addCore b (readData o s).2).a = (addCore b s).a ∧
      ∀ f, (addCore b (readData o s).2).flag f = (addCore b s).flag f := by
  simp [addCore_a, flag_addCore]

/-- An instruction that runs the adder on a byte `b` after reading its operand, and asks for the
page-cross cycle (R82, R115). -/
theorem exec_addCore {i : Instr} {b : Byte} {o : DataOperand} {s : State}
    (h : handled i s = (0, markEligible (addCore b (readData o s).2))) :
    ∃ t, exec i s = .next t ∧ t.a = (addCore b s).a ∧ t.flag .c = (addCore b s).flag .c ∧
      t.flag .v = (addCore b s).flag .v ∧ ShowsZN t.a t ∧
      (Boundary s →
        Ends (regsWritten i.mnemonic) (flagsWritten i.mnemonic) (readCost i o s) s t) ∧
      OnlyReads o s t := by
  obtain ⟨hexec, hends, hreads⟩ := exec_readOperand (o := o) h rfl (by simp) (by simp) (by simp)
  obtain ⟨ha, hflags⟩ := addCore_readData b o s
  refine ⟨_, hexec, ha, hflags .c, hflags .v, ?_, fun hb => ?_, hreads⟩
  · exact showsZN_of (flag_addCore b _ .z) (flag_addCore b _ .n)
  · have hcross := pageCrossCycle_of_readData (o := o)
      (u := markEligible (addCore b (readData o s).2)) hb (by simp) (by simp)
    rw [readCost, ← hcross]
    exact hends

/-- Settles O24: the adder on the operand byte. -/
theorem adcAddsWithCarry : Obligations.AdcAddsWithCarry := by
  refine ⟨fun o => hasRows_tableRows (i := .adc o) nofun, fun o s hb => ?_⟩
  obtain ⟨t, hexec, ha, hc, hv, hzn, hends, hreads⟩ := exec_addCore (i := .adc o) (s := s) rfl
  refine ⟨t, hexec, ?_, ?_, ?_, hzn, ?_, hreads⟩
  · rw [ha, addCore_a_toNat]
  · rw [hc, flag_c_addCore]
  · rw [hv, flag_v_addCore]
  · exact (hends hb).mono_flags (by decide : flagsWritten .adc ⊆ _)

/-! ### Subtraction: the adder on the complemented byte -/

/-- The complement of a byte as a signed number. -/
theorem toInt_complement (m : Byte) : (~~~m).toInt = -1 - m.toInt := by
  have := m.isLt
  simp only [BitVec.toInt_eq_toNat_cond, BitVec.toNat_not]
  split_ifs <;> omega

/-- On the complemented byte the adder subtracts the byte and the borrow (R116). -/
theorem addCore_not_a_toNat (m : Byte) (s : State) :
    ((addCore (~~~m) s).a.toNat : Int) =
      ((s.a.toNat : Int) - m.toNat - (if s.flag .c then 0 else 1)) % 256 := by
  have := m.isLt
  rw [addCore_a_toNat, BitVec.toNat_not]
  split <;> omega

/-- On the complemented byte the carry out says that there is no borrow (R116). -/
theorem flag_c_addCore_not (m : Byte) (s : State) :
    (addCore (~~~m) s).flag .c =
      decide ((m.toNat : Int) + (if s.flag .c then 0 else 1) ≤ s.a.toNat) := by
  have := m.isLt
  rw [flag_c_addCore, BitVec.toNat_not, decide_eq_decide]
  split <;> omega

/-- On the complemented byte the overflow is that of the signed difference (R116). -/
theorem flag_v_addCore_not (m : Byte) (s : State) :
    (addCore (~~~m) s).flag .v =
      decide (s.a.toInt - m.toInt - (if s.flag .c then 0 else 1) < -128 ∨
        127 < s.a.toInt - m.toInt - (if s.flag .c then 0 else 1)) := by
  rw [flag_v_addCore, toInt_complement, decide_eq_decide]
  split <;> omega

/-- Settles O25: the adder on the complement of the operand byte. -/
theorem sbcSubtractsWithBorrow : Obligations.SbcSubtractsWithBorrow := by
  refine ⟨fun o => hasRows_tableRows (i := .sbc o) nofun, fun o s hb => ?_⟩
  obtain ⟨t, hexec, ha, hc, hv, hzn, hends, hreads⟩ := exec_addCore (i := .sbc o) (s := s) rfl
  refine ⟨t, hexec, ?_, ?_, ?_, hzn, ?_, hreads⟩
  · rw [ha, addCore_not_a_toNat]
  · rw [hc, flag_c_addCore_not]
  · rw [hv, flag_v_addCore_not]
  · exact (hends hb).mono_flags (by decide : flagsWritten .sbc ⊆ _)

/-! ### Addition undone by subtraction -/

/-- With Carry clear the adder adds the byte (R114). -/
theorem addCore_a_of_carry_clear {b : Byte} {s : State} (hc : s.flag .c = false) :
    (addCore b s).a = s.a + b := by
  apply BitVec.eq_of_toNat_eq
  simp [addCore_a_toNat, hc, BitVec.toNat_add]

/-- With Carry set the adder on the complemented byte subtracts the byte (R116). -/
theorem addCore_not_a_of_carry_set {m : Byte} {s : State} (hc : s.flag .c = true) :
    (addCore (~~~m) s).a = s.a - m := by
  have := m.isLt
  apply BitVec.eq_of_toNat_eq
  rw [addCore_a_toNat, BitVec.toNat_not, BitVec.toNat_sub, hc, if_pos rfl]
  omega

/-- An instruction that writes Carry and nothing else (R146). -/
theorem exec_setCarry {i : Instr} {b : Bool} {s : State} (h : handled i s = (0, setFlag .c b s)) :
    ∃ t, exec i s = .next t ∧ t.a = s.a ∧ t.flag .c = b :=
  ⟨_, (exec_of_handled h rfl).1, rfl, flag_setFlag .c .c b s⟩

/-- A byte is at most a sum modulo 256 that it enters exactly when the sum stays below 256. -/
theorem toNat_le_toNat_add_iff {a v : Byte} :
    v.toNat ≤ (a + v).toNat ↔ a.toNat + v.toNat < 256 := by
  have := a.isLt
  have := v.isLt
  rw [BitVec.toNat_add]
  omega

/-- Settles O27: with Carry clear and then set, the value is added and subtracted again. -/
theorem addThenSubtractRestoresA : Obligations.AddThenSubtractRestoresA := by
  intro v s
  obtain ⟨s1, h1, ha1, hc1⟩ := exec_setCarry (i := .clc) (s := s) rfl
  obtain ⟨s2, h2, ha2, -⟩ := exec_addCore (i := .adc (.imm v)) (b := v) (o := .imm v) (s := s1) rfl
  obtain ⟨s3, h3, ha3, hc3⟩ := exec_setCarry (i := .sec) (s := s2) rfl
  obtain ⟨s4, h4, ha4, hc4, -⟩ :=
    exec_addCore (i := .sbc (.imm v)) (b := ~~~v) (o := .imm v) (s := s3) rfl
  have hsum : s3.a = s.a + v := by rw [ha3, ha2, addCore_a_of_carry_clear hc1, ha1]
  refine ⟨s1, s2, s3, s4, h1, h2, h3, h4, ?_, ?_⟩
  · rw [ha4, addCore_not_a_of_carry_set hc3, hsum, BitVec.add_sub_cancel]
  · rw [hc4, flag_c_addCore_not, hc3, if_pos rfl, hsum, decide_eq_decide]
    exact_mod_cast toNat_le_toNat_add_iff

/-! ### The comparison -/

/-- Carry, Zero and Negative are those of the unsigned comparison of two bytes (R117). -/
def ShowsComparison (r m : Byte) (t : State) : Prop :=
  t.flag .c = decide (m.toNat ≤ r.toNat) ∧ t.flag .z = decide (r = m) ∧
    t.flag .n = decide (128 ≤ (r.toNat + 256 - m.toNat) % 256)

theorem showsComparison_compareFlags (r m : Byte) (s : State) :
    ShowsComparison r m (compareFlags r m s) := by
  refine ⟨flag_compareFlags r m s .c, flag_compareFlags r m s .z,
    (flag_compareFlags r m s .n).trans ?_⟩
  have := m.isLt
  rw [if_pos rfl, bit7_eq_decide, BitVec.toNat_sub, decide_eq_decide]
  omega

/-- CMP compares A and asks for the page-cross cycle (R117). -/
theorem exec_cmp_of_boundary (o : DataOperand) {s : State} (hb : Boundary s) :
    ∃ t, exec (.cmp o) s = .next t ∧ ShowsComparison s.a (readData o s).1 t ∧
      Ends [] [.c, .z, .n] (readCost (.cmp o) o s) s t ∧ OnlyReads o s t := by
  obtain ⟨hexec, hends, hreads⟩ := exec_readOperand (i := .cmp o) (o := o) (s := s)
    (u := markEligible (compareFlags s.a (readData o s).1 (readData o s).2)) (by simp [handled])
    (pageCrossCycle_of_readData (o := o) hb (by simp) (by simp)) (by simp) (by simp) (by simp)
  exact ⟨_, hexec, showsComparison_compareFlags _ _ _, hends, hreads⟩

/-- An instruction that compares a byte `r` with its operand and asks for no page-cross cycle (R118).
-/
theorem exec_compareFlags {i : Instr} {r : Byte} {o : DataOperand} {s : State} (hb : Boundary s)
    (h : handled i s = (0, compareFlags r (readData o s).1 (readData o s).2)) :
    ∃ t, exec i s = .next t ∧ ShowsComparison r (readData o s).1 t ∧
      Ends (regsWritten i.mnemonic) (flagsWritten i.mnemonic) i.baseCycles s t ∧
      OnlyReads o s t := by
  obtain ⟨hexec, hends, hreads⟩ := exec_readOperand (o := o) h
    (pageCrossCycle_of_not_eligible (by simp [hb.2])) (by simp) (by simp) (by simp)
  exact ⟨_, hexec, showsComparison_compareFlags _ _ _, hends, hreads⟩

/-- Settles O28: the three compare their register, and only CMP asks for the page-cross cycle. -/
theorem comparesSetFlags : Obligations.ComparesSetFlags := by
  refine ⟨fun o => hasRows_tableRows (i := .cmp o) nofun,
    fun o => hasRows_tableRows (i := .cpx o) nofun, fun o => hasRows_tableRows (i := .cpy o) nofun,
    fun o s hb => ⟨exec_cmp_of_boundary o hb, ?_, ?_⟩⟩
  · exact exec_compareFlags (i := .cpx o) hb (by simp [handled])
  · exact exec_compareFlags (i := .cpy o) hb (by simp [handled])

end Sys2Proof.Machine
end

section
/-! SUPPORT. P is not read by an access (`40_addressing_modes.md` R66, `10_state.md` R18): reading an
operand commutes with writing a bit of P, and the adder with writing Decimal. -/

namespace Sys2Proof.Machine

theorem memRead_setFlag (addr : Word) (f : Flag) (b : Bool) (s : State) :
    memRead addr (setFlag f b s) = ((memRead addr s).1, setFlag f b (memRead addr s).2) := by
  have ht : (setFlag f b s).target addr = s.target addr := rfl
  unfold memRead
  rw [ht]
  cases s.target addr <;> rfl

theorem resolve_setFlag (m : MemOperand) (f : Flag) (b : Bool) (s : State) :
    resolve m (setFlag f b s) = ((resolve m s).1, setFlag f b (resolve m s).2) := by
  cases m with
  | zp | zpx | zpy | abs => rfl
  | abx | aby => simp only [resolve, indexed_eq]; rfl
  | izx | izy => simp only [resolve, zeroPagePointer_eq, indexed_eq]; rfl

theorem readData_setFlag (o : DataOperand) (f : Flag) (b : Bool) (s : State) :
    readData o (setFlag f b s) = ((readData o s).1, setFlag f b (readData o s).2) := by
  cases o with
  | imm v => rfl
  | mem m => simp only [readData, readMem, resolve_setFlag, memRead_setFlag]

/-- The adder neither reads nor writes Decimal (R114). -/
theorem addCore_setFlag_d (m : Byte) (b : Bool) (s : State) :
    addCore m (setFlag .d b s) = setFlag .d b (addCore m s) := by
  have hp : (addCore m (setFlag .d b s)).p = (setFlag .d b (addCore m s)).p := by
    refine status_ext _ _ fun f => ?_
    change (addCore m (setFlag .d b s)).flag f = (setFlag .d b (addCore m s)).flag f
    cases f <;> simp [flag_addCore, addCore_a]
  have ha : (addCore m (setFlag .d b s)).a = (addCore m s).a := by
    simp [addCore_a]
  exact State.ext ha rfl rfl rfl rfl hp rfl rfl rfl rfl rfl rfl rfl

/-- Settles O26: the handlers of both commute with writing Decimal, and so does the end of the step. -/
theorem decimalFlagIsIgnored : Obligations.DecimalFlagIsIgnored := by
  intro o s b
  refine ⟨⟨_, exec_eq_ended (.adc o) s, ?_⟩, ⟨_, exec_eq_ended (.sbc o) s, ?_⟩⟩
  · rw [exec_eq_ended, handled, readData_setFlag, addCore_setFlag_d]
    rfl
  · rw [exec_eq_ended, handled, readData_setFlag, addCore_setFlag_d]
    rfl

end Sys2Proof.Machine
end

section
/-! SUPPORT. Increment, decrement, shift and rotate (`45_incdec_shift.md` R120 to R130): one lemma
for the read-modify-writes of memory and one for each effect on a register, and the byte functions
as arithmetic. -/

namespace Sys2Proof.Machine

/-! ### Registers plus or minus one -/

/-- Minus one modulo 256, as a number (R121, R124, R125). -/
theorem byte_sub_one_toNat (v : Byte) : (v - 1).toNat = (v.toNat + 255) % 256 := by
  bv_omega

/-- An instruction that loads a register with the byte numbered `n` and does nothing else (R122). -/
theorem exec_loadReg_toNat {i : Instr} {r : Reg} {v : Byte} {n : Nat} {s : State} (hb : Boundary s)
    (h : handled i s = (0, loadReg r v s)) (hn : v.toNat = n) :
    ∃ t, exec i s = .next t ∧ (t.reg r).toNat = n ∧ ShowsZN (t.reg r) t ∧
      Ends (regsWritten i.mnemonic) (flagsWritten i.mnemonic) i.baseCycles s t ∧ Quiet s t := by
  obtain ⟨t, hexec, rfl, hzn, hends, hquiet⟩ := exec_loadReg hb h
  exact ⟨t, hexec, hn, hzn, hends, hquiet⟩

/-- Settles O30: the four load their register with its value plus or minus one. -/
theorem registerIncrementDecrement : Obligations.RegisterIncrementDecrement := by
  refine ⟨hasRows_tableRows (i := .inx) nofun, hasRows_tableRows (i := .iny) nofun,
    hasRows_tableRows (i := .dex) nofun, hasRows_tableRows (i := .dey) nofun,
    fun s hb => ⟨?_, ?_, ?_, ?_⟩⟩
  · exact exec_loadReg_toNat (i := .inx) (r := .x) hb rfl (BitVec.toNat_add s.x 1)
  · exact exec_loadReg_toNat (i := .iny) (r := .y) hb rfl (BitVec.toNat_add s.y 1)
  · exact exec_loadReg_toNat (i := .dex) (r := .x) hb rfl (byte_sub_one_toNat s.x)
  · exact exec_loadReg_toNat (i := .dey) (r := .y) hb rfl (byte_sub_one_toNat s.y)

/-! ### Read-modify-write of memory -/

theorem reg_modifyMem (g : Byte → Byte) (m : MemOperand) (s : State) (r : Reg) :
    (modifyMem g m s).2.reg r = s.reg r := by
  cases r <;> simp [State.reg]

@[simp] theorem reg_setZN (v : Byte) (s : State) (r : Reg) : (setZN v s).reg r = s.reg r := by
  cases r <;> rfl

/-- An instruction that reads a byte through an operand, writes `g` of it back, and then writes P
only: `p`, with Zero and Negative of the new byte (R42, R120, R126). -/
theorem exec_modifyMem {i : Instr} {g : Byte → Byte} {m : MemOperand} {p : Byte} {s : State}
    (hb : Boundary s)
    (h : handled i s = (0, setZN (g (readMem m s).1) { (modifyMem g m s).2 with p := p })) :
    ∃ t, exec i s = .next t ∧ Stores (resolve m s).1 (g (readMem m s).1) (readMem m s).2 t ∧
      KeepsMemoryBut [(resolve m s).1] s t ∧ t.flag .c = flagOf p .c ∧
      ShowsZN (g (readMem m s).1) t ∧ t.pc = s.pc ∧
      Ends [] (flagsWritten i.mnemonic) i.baseCycles s t := by
  obtain ⟨hexec, -, hends⟩ := exec_of_handled h (pageCrossCycle_of_not_eligible (by simp [hb.2]))
  obtain ⟨hstores, hkeeps⟩ := stores_of_modifyMem (f := g) (m := m) (s := s)
    (t := account (i.baseCycles + 0)
      (setZN (g (readMem m s).1) { (modifyMem g m s).2 with p := p }))
    rfl (by simp) rfl
  refine ⟨_, hexec, hstores, hkeeps, ?_, ?_, ?_, fun r _ => ?_, hends⟩
  · rw [flag_account, flag_setZN, if_neg nofun, if_neg nofun]
    rfl
  · exact showsZN_of (by simp) (by simp)
  · simp
  · rw [reg_account, reg_setZN, ← reg_modifyMem g m s r]
    cases r <;> rfl

/-- An instruction that reads a byte through an operand and writes `g` of it back, as a number `f`
of the byte, and Zero and Negative from it (R120). -/
theorem exec_modifyMem_toNat {i : Instr} {g : Byte → Byte} {f : Nat → Nat} {m : MemOperand}
    {s : State} (hb : Boundary s)
    (h : handled i s = (0, setZN (modifyMem g m s).1 (modifyMem g m s).2))
    (hg : ∀ v, (g v).toNat = f v.toNat) :
    ∃ t r, exec i s = .next t ∧ r.toNat = f (readMem m s).1.toNat ∧
      Stores (resolve m s).1 r (readMem m s).2 t ∧ KeepsMemoryBut [(resolve m s).1] s t ∧
      ShowsZN r t ∧ t.pc = s.pc ∧ Ends [] (flagsWritten i.mnemonic) i.baseCycles s t := by
  obtain ⟨t, hexec, hstores, hkeeps, -, hrest⟩ := exec_modifyMem (p := (modifyMem g m s).2.p) hb h
  exact ⟨t, _, hexec, hg _, hstores, hkeeps, hrest⟩

/-- Settles O29: the rows are the table's, and the two share one effect. -/
theorem memoryIncrementDecrement : Obligations.MemoryIncrementDecrement := by
  refine ⟨fun m => hasRows_tableRows (i := .inc m) nofun,
    fun m => hasRows_tableRows (i := .dec m) nofun, fun m s hb => ⟨?_, ?_⟩⟩
  · exact exec_modifyMem_toNat (i := .inc m) (f := fun n => (n + 1) % 256) hb rfl
      fun v => BitVec.toNat_add v 1
  · exact exec_modifyMem_toNat (i := .dec m) (f := fun n => (n + 255) % 256) hb rfl
      byte_sub_one_toNat

/-! ### The shifts as arithmetic -/

/-- A shift function, as numbers: `f` gives the new byte from the old one and the carry in, `out`
the bit shifted out of the old one (R127 to R130). -/
def ShiftsAs (g : Byte → Bool → Byte × Bool) (f : Nat → Nat → Nat) (out : Nat → Bool) : Prop :=
  ∀ v cin, (g v cin).1.toNat = f v.toNat (if cin then 1 else 0) ∧ (g v cin).2 = out v.toNat

theorem bit0_eq_decide (v : Byte) : v.getLsbD 0 = decide (v.toNat % 2 = 1) :=
  Nat.testBit_zero v.toNat

theorem shiftLeft_one_toNat (v : Byte) : (v <<< 1).toNat = 2 * v.toNat % 256 := by
  rw [BitVec.toNat_shiftLeft, Nat.shiftLeft_eq, Nat.mul_comm]

theorem ushiftRight_one_toNat (v : Byte) : (v >>> 1).toNat = v.toNat / 2 :=
  Nat.shiftRight_eq_div_pow v.toNat 1

theorem shiftsAs_aslByte :
    ShiftsAs aslByte (fun v _ => 2 * v % 256) (fun v => decide (128 ≤ v)) :=
  fun v _ => ⟨shiftLeft_one_toNat v, bit7_eq_decide v⟩

theorem shiftsAs_lsrByte : ShiftsAs lsrByte (fun v _ => v / 2) (fun v => decide (v % 2 = 1)) :=
  fun v _ => ⟨ushiftRight_one_toNat v, bit0_eq_decide v⟩

theorem carryByte_toNat (c : Bool) : (carryByte c).toNat = if c then 1 else 0 := by
  cases c <;> rfl

/-- The carry enters the bit that the shift to the left vacated (R129). -/
theorem shiftsAs_rolByte :
    ShiftsAs rolByte (fun v cin => 2 * v % 256 + cin) (fun v => decide (128 ≤ v)) := by
  refine fun v c => ⟨?_, bit7_eq_decide v⟩
  have hc : (if c then 1 else 0) < 2 ^ 1 := by cases c <;> decide
  have heven : 2 * v.toNat % 256 = 2 ^ 1 * (v.toNat % 128) := Nat.mul_mod_mul_left 2 v.toNat 128
  rw [rolByte, BitVec.toNat_or, shiftLeft_one_toNat, carryByte_toNat, heven,
    ← Nat.two_pow_add_eq_or_of_lt hc, ← heven]

/-- The carry enters the bit that the shift to the right vacated (R130). -/
theorem shiftsAs_rorByte :
    ShiftsAs rorByte (fun v cin => v / 2 + 128 * cin) (fun v => decide (v % 2 = 1)) := by
  refine fun v c => ⟨?_, bit0_eq_decide v⟩
  have hv : v.toNat / 2 < 2 ^ 7 := by
    have := v.isLt
    omega
  have hc : (carryByte c <<< 7).toNat = 2 ^ 7 * if c then 1 else 0 := by cases c <;> rfl
  rw [rorByte, BitVec.toNat_or, ushiftRight_one_toNat, hc, Nat.or_comm,
    ← Nat.two_pow_add_eq_or_of_lt hv, Nat.add_comm]

/-! ### Shifts and rotates -/

/-- A shift of the accumulator, as numbers: A is loaded, after Carry is written (R126). -/
theorem exec_shiftOp_acc {i : Instr} {g : Byte → Bool → Byte × Bool} {f : Nat → Nat → Nat}
    {out : Nat → Bool} {s : State} (hb : Boundary s) (hg : ShiftsAs g f out)
    (h : handled i s = (0, shiftOp g .acc s)) :
    ∃ t, exec i s = .next t ∧ t.a.toNat = f s.a.toNat (if s.flag .c then 1 else 0) ∧
      t.flag .c = out s.a.toNat ∧ ShowsZN t.a t ∧
      Ends (regsWritten i.mnemonic) (flagsWritten i.mnemonic) i.baseCycles s t ∧ Quiet s t := by
  obtain ⟨hval, hout⟩ := hg s.a (s.flag .c)
  obtain ⟨hexec, hends⟩ := exec_of_handled h (pageCrossCycle_of_not_eligible (by simp [hb.2]))
  refine ⟨_, hexec, hval, ?_, ?_, hends, ?_⟩
  · rw [← hout]
    simp [shiftOp]
  · exact showsZN_of (by simp [shiftOp]) (by simp [shiftOp])
  · exact ⟨by simp, fun b => by simp, rfl⟩

/-- A shift in memory is a read-modify-write, and then Carry, Zero and Negative (R42, R126). -/
theorem shiftOp_mem_eq (g : Byte → Bool → Byte × Bool) (m : MemOperand) (s : State) :
    shiftOp g (.mem m) s =
      setZN (g (readMem m s).1 (s.flag .c)).1
        (setFlag .c (g (readMem m s).1 (s.flag .c)).2
          (modifyMem (fun b => (g b (s.flag .c)).1) m s).2) := by
  simp [shiftOp, modifyMem, readMem]

/-- A shift in memory, as numbers (R126). -/
theorem exec_shiftOp_mem {i : Instr} {g : Byte → Bool → Byte × Bool} {f : Nat → Nat → Nat}
    {out : Nat → Bool} {m : MemOperand} {s : State} (hb : Boundary s) (hg : ShiftsAs g f out)
    (h : handled i s = (0, shiftOp g (.mem m) s)) :
    ∃ t r, exec i s = .next t ∧ r.toNat = f (readMem m s).1.toNat (if s.flag .c then 1 else 0) ∧
      Stores (resolve m s).1 r (readMem m s).2 t ∧ KeepsMemoryBut [(resolve m s).1] s t ∧
      t.flag .c = out (readMem m s).1.toNat ∧ ShowsZN r t ∧ t.pc = s.pc ∧
      Ends [] (flagsWritten i.mnemonic) i.baseCycles s t := by
  obtain ⟨hval, hout⟩ := hg (readMem m s).1 (s.flag .c)
  rw [shiftOp_mem_eq] at h
  obtain ⟨t, hexec, hstores, hkeeps, hc, hrest⟩ :=
    exec_modifyMem (g := fun b => (g b (s.flag .c)).1) hb h
  refine ⟨t, _, hexec, hval, hstores, hkeeps, ?_, hrest⟩
  rw [hc, flagOf_withFlag, if_pos rfl, hout]

/-- Settles O31: the rows are the table's, and each of the four is a shift of A and one of memory,
its byte function being the arithmetic one. -/
theorem shiftsAndRotates : Obligations.ShiftsAndRotates := by
  refine ⟨fun o => hasRows_tableRows (i := .asl o) nofun,
    fun o => hasRows_tableRows (i := .lsr o) nofun, fun o => hasRows_tableRows (i := .rol o) nofun,
    fun o => hasRows_tableRows (i := .ror o) nofun, fun s hb => ?_, fun s hb => ?_, fun s hb => ?_,
    fun s hb => ?_⟩
  · exact ⟨exec_shiftOp_acc (i := .asl .acc) hb shiftsAs_aslByte rfl,
      fun m => exec_shiftOp_mem (i := .asl (.mem m)) hb shiftsAs_aslByte rfl⟩
  · exact ⟨exec_shiftOp_acc (i := .lsr .acc) hb shiftsAs_lsrByte rfl,
      fun m => exec_shiftOp_mem (i := .lsr (.mem m)) hb shiftsAs_lsrByte rfl⟩
  · exact ⟨exec_shiftOp_acc (i := .rol .acc) hb shiftsAs_rolByte rfl,
      fun m => exec_shiftOp_mem (i := .rol (.mem m)) hb shiftsAs_rolByte rfl⟩
  · exact ⟨exec_shiftOp_acc (i := .ror .acc) hb shiftsAs_rorByte rfl,
      fun m => exec_shiftOp_mem (i := .ror (.mem m)) hb shiftsAs_rorByte rfl⟩

end Sys2Proof.Machine
end

section
/-! SUPPORT. Jumps, calls and returns (`46_jumps_branches.md` R132 to R134): one lemma for the two
forms of JMP, and a word pushed as its two cells and as what a pull of a word takes back. -/

namespace Sys2Proof.Machine

/-! ### JMP -/

theorem memOperand_mode_ne_ind (m : MemOperand) : m.mode ≠ .ind := by
  cases m <;> nofun

/-- JMP is the only instruction of mode Indirect (R76). -/
theorem mnemonic_of_mode_ind {i : Instr} (h : i.mode = .ind) : i.mnemonic = .jmp := by
  cases i with
  | jmp t => rfl
  | lda o | ldx o | ldy o | and o | eor o | ora o | adc o | sbc o | cmp o | cpx o | cpy o =>
    cases o with
    | imm v => cases h
    | mem m => exact absurd h (memOperand_mode_ne_ind m)
  | sta m | stx m | sty m | bit m | inc m | dec m => exact absurd h (memOperand_mode_ne_ind m)
  | asl o | lsr o | rol o | ror o =>
    cases o with
    | acc => cases h
    | mem m => exact absurd h (memOperand_mode_ne_ind m)
  | _ => cases h

/-- JMP takes PC from its operand and does nothing else but the reads of the pointer (R132). -/
theorem exec_jmp_of_boundary (j : JumpOperand) {s : State} (hb : Boundary s) :
    ∃ t, exec (.jmp j) s = .next t ∧ t.pc = (resolveJump j s).1 ∧ KeepsMemory s t ∧
      t.devLog = (resolveJump j s).2.devLog ∧ Ends [] [] (Instr.jmp j).baseCycles s t := by
  obtain ⟨hexec, hends⟩ := exec_of_handled (i := .jmp j) (s := s) rfl
    (pageCrossCycle_of_not_eligible (by simp [hb.2]))
  exact ⟨_, hexec, rfl, fun b => stored_resolveJump j s b, rfl, hends⟩

/-- The address of the pointer's high byte, as a number: the page of the low byte is kept (R76). -/
theorem pointerHigh_eq (ptr : Word) :
    word16 (hiByte ptr) (loByte ptr + 1) =
      BitVec.ofNat 16 (ptr.toNat / 256 * 256 + (ptr.toNat + 1) % 256) := by
  apply BitVec.eq_of_toNat_eq
  have hptr := ptr.isLt
  have hlo : (loByte ptr + 1).toNat = (ptr.toNat % 256 + 1) % 256 := by
    rw [BitVec.toNat_add, loByte_toNat]
    rfl
  rw [word16_toNat, hiByte_toNat, hlo, BitVec.toNat_ofNat]
  omega

/-- Settles O32: the two forms share one effect, and the operand's target is the resolver's. -/
theorem jumpSetsPc : Obligations.JumpSetsPc := by
  refine ⟨fun i => mnemonic_of_mode_ind, fun j => hasRows_tableRows (i := .jmp j) nofun,
    fun a s hb => ⟨exec_jmp_of_boundary (.abs a) hb, ?_⟩⟩
  obtain ⟨t, hexec, hpc, hkeeps, hlog, hends⟩ := exec_jmp_of_boundary (.ind a) hb
  rw [← pointerHigh_eq]
  refine ⟨t, hexec, ?_, hkeeps, hlog, hends⟩
  rw [hpc]
  exact word16_toNat _ _

/-! ### Words on the stack -/

/-- A state reached by pushing a word: its two bytes lie in two different cells (R133). -/
theorem holds_of_pushWord {w : Word} {s t : State} (hm : t.mem = (pushWord w s).mem)
    (hp : t.prg = s.prg) :
    Holds (stackAddr s.sp) (hiByte w) t ∧ Holds (stackAddr (s.sp - 1)) (loByte w) t ∧
      KeepsMemoryBut [stackAddr s.sp, stackAddr (s.sp - 1)] s t := by
  have hs : ∀ b, t.stored b = (pushWord w s).stored b :=
    fun b => stored_congr hm (by simpa using hp) b
  have hne := stackCell_ne (p := s.sp) (q := s.sp - 1) (by bv_omega)
  refine ⟨fun b hb => ?_, fun b hb => ?_, fun b hb => ?_⟩
  · rw [target_congr hp, target_congr hp, target_stackAddr] at hb
    rw [hs, stored_pushWord, hb, if_neg (by simpa using hne), if_pos rfl]
  · rw [target_congr hp, target_congr hp, target_stackAddr] at hb
    rw [hs, stored_pushWord, hb, if_pos rfl]
  · simp only [List.forall_mem_cons, target_stackAddr] at hb
    obtain ⟨hhi, hlo, -⟩ := hb
    rw [hs, stored_pushWord, if_neg hlo, if_neg hhi]

/-- A word is pulled as it was pushed, whatever else has changed but memory and SP (R133, R134). -/
theorem pullWord_of_pushWord {w : Word} {s t : State} (hm : t.mem = (pushWord w s).mem)
    (hsp : t.sp = (pushWord w s).sp) : pullWord t = (w, { t with sp := s.sp }) := by
  have hne := stackCell_ne (p := s.sp) (q := s.sp - 1) (by bv_omega)
  have hlo : t.sp + 1 = s.sp - 1 := by
    rw [hsp, pushWord_sp]
    bv_omega
  have hhi : t.sp + 2 = s.sp := by
    rw [hsp, pushWord_sp]
    exact BitVec.sub_add_cancel _ _
  rw [pullWord_eq, hlo, hhi, hm]
  simp only [pushWord, push_mem, push_sp, Memory.read_write, if_pos, if_neg hne, word16_bytes]

/-! ### JSR and RTS -/

/-- Settles O33: the return address is a word pushed, and then PC is written. -/
theorem jsrPushesReturnAddress : Obligations.JsrPushesReturnAddress := by
  refine ⟨fun a => hasRows_tableRows (i := .jsr a) nofun, fun a s hb => ?_⟩
  obtain ⟨hexec, hends⟩ := exec_of_handled (i := .jsr a) (s := s) rfl
    (pageCrossCycle_of_not_eligible (by simp [hb.2]))
  obtain ⟨hhi, hlo, hkeeps⟩ := holds_of_pushWord (w := s.pc - 1) (s := s)
    (t := account 6 { pushWord (s.pc - 1) s with pc := a }) rfl (by simp)
  refine ⟨_, s.pc - 1, hexec, by bv_omega, rfl, hhi, hlo, hkeeps, ?_, by simp, hends⟩
  rw [account_sp, pushWord_sp]
  bv_omega

/-- Everything RTS does before the end of the step, by the cells it pulls from (R134). -/
theorem handled_rts (s : State) :
    handled .rts s = (0, { s with
      sp := s.sp + 2
      pc := word16 (s.mem.read (0x0100 + (s.sp + 2).toNat))
        (s.mem.read (0x0100 + (s.sp + 1).toNat)) + 1 }) := by
  rw [handled, pullWord_eq]

/-- Settles O34: the word pulled is what the two cells above SP hold, and PC is one past it. -/
theorem rtsReturns : Obligations.RtsReturns := by
  refine ⟨hasRows_tableRows (i := .rts) nofun, fun s hb => ?_⟩
  obtain ⟨hexec, hends⟩ := exec_of_handled (handled_rts s) (pageCrossCycle_of_not_eligible hb.2)
  refine ⟨_, _, _, hexec, stored_stackAddr s _, stored_stackAddr s _, ?_, ?_, fun _ => rfl, rfl,
    hends⟩
  · rw [account_pc, BitVec.toNat_add, word16_toNat]
    rfl
  · exact BitVec.toNat_add s.sp 2

/-- RTS resumes one past the word it pulls (R134). -/
theorem exec_rts_of_pullWord {s u : State} {w : Word} (h : pullWord s = (w, u)) :
    ∃ n, exec .rts s = .next (account n { u with pc := w + 1 }) :=
  ⟨_, by rw [exec_rts, h, ended]⟩

/-- Settles O35: RTS pulls the word that JSR pushed, and one past it is the PC that JSR found. -/
theorem jsrThenRtsReturns : Obligations.JsrThenRtsReturns := by
  intro a s
  obtain ⟨hjsr, -⟩ := exec_of_handled (i := .jsr a) (s := s) rfl rfl
  obtain ⟨n, hrts⟩ := exec_rts_of_pullWord (pullWord_of_pushWord (w := s.pc - 1) (s := s)
    (t := account _ { pushWord (s.pc - 1) s with pc := a }) rfl rfl)
  refine ⟨_, _, hjsr, hrts, BitVec.sub_add_cancel s.pc 1, fun r _ => ?_, fun f _ => ?_⟩
  · cases r <;> simp [State.reg]
  · exact flag_congr (by simp) f

end Sys2Proof.Machine
end

section
/-! SUPPORT. Flag operations and system instructions (`47_flagops_system.md` R146 to R155): one lemma
for the seven writes of one bit of P, the interrupt sequence of BRK, and the return that undoes it. -/

namespace Sys2Proof.Machine

/-! ### Flag operations -/

/-- An instruction that writes one bit of P and does nothing else (R146). -/
theorem exec_setFlag {i : Instr} {f : Flag} {b : Bool} {s : State} (hb : Boundary s)
    (h : handled i s = (0, setFlag f b s)) :
    ∃ t, exec i s = .next t ∧ t.flag f = b ∧
      Ends (regsWritten i.mnemonic) (flagsWritten i.mnemonic) i.baseCycles s t ∧ Quiet s t := by
  obtain ⟨hexec, hends⟩ := exec_of_handled h (pageCrossCycle_of_not_eligible hb.2)
  refine ⟨_, hexec, ?_, hends, rfl, fun _ => rfl, rfl⟩
  rw [flag_account, flag_setFlag, if_pos rfl]

/-- Settles O37: the rows are the table's, and the seven share one effect. -/
theorem flagOperations : Obligations.FlagOperations := by
  refine ⟨⟨hasRows_tableRows (i := .clc) nofun, fun s hb => ?_⟩,
    ⟨hasRows_tableRows (i := .cld) nofun, fun s hb => ?_⟩,
    ⟨hasRows_tableRows (i := .cli) nofun, fun s hb => ?_⟩,
    ⟨hasRows_tableRows (i := .clv) nofun, fun s hb => ?_⟩,
    ⟨hasRows_tableRows (i := .sec) nofun, fun s hb => ?_⟩,
    ⟨hasRows_tableRows (i := .sed) nofun, fun s hb => ?_⟩,
    ⟨hasRows_tableRows (i := .sei) nofun, fun s hb => ?_⟩⟩
  · exact exec_setFlag (i := .clc) hb rfl
  · exact exec_setFlag (i := .cld) hb rfl
  · exact exec_setFlag (i := .cli) hb rfl
  · exact exec_setFlag (i := .clv) hb rfl
  · exact exec_setFlag (i := .sec) hb rfl
  · exact exec_setFlag (i := .sed) hb rfl
  · exact exec_setFlag (i := .sei) hb rfl

/-! ### BRK -/

/-- An address above the mirrors of RAM selects no RAM cell (R35). -/
theorem isRam_target_of_ge {a : Word} (h : 0x2000 ≤ a.toNat) (s : State) :
    (s.target a).isRam = false := by
  cases ht : s.target a with
  | ram k =>
    obtain ⟨hlt, -⟩ := target_eq_ram_iff.1 ht
    omega
  | rom | unmapped | device => rfl

/-- The status byte that PHP and BRK push: bits 4 and 5 are set (R19). -/
theorem statusForPush_forced (p : Byte) : statusForPush true p = p ||| 0x30#8 :=
  BitVec.or_assoc _ _ _

/-- BRK from any state, the page-cross cycle being left over from before it: the vector lies outside
RAM, so the pushes do not change it (R153). -/
theorem exec_brk_entersHandler (s : State) :
    ∃ t, exec .brk s = .next t ∧ EntersHandler (s.pc + 1) (s.p ||| 0x30#8) brkVector s t ∧
      Ends [.sp] [.i] (7 + pageCrossCycle s) s t := by
  obtain ⟨hexec, hends⟩ := exec_of_handled (i := .brk) (s := s) (n := pageCrossCycle s) rfl
    (by simp [pageCrossCycle])
  refine ⟨_, hexec, ?_, hends⟩
  rw [← statusForPush_forced]
  exact entersHandler_of_takeInterrupt (isRam_target_of_ge (by decide) s)
    (isRam_target_of_ge (by decide) s) (account_mem _ _) (by simp) (account_devLog _ _)
    (account_sp _ _) (account_p _ _) (account_pc _ _)

/-- Settles O38: at a step boundary no page-cross cycle is left over. -/
theorem brkEntersHandler : Obligations.BrkEntersHandler := by
  refine ⟨hasRows_tableRows (i := .brk) nofun, fun s hb => ?_⟩
  obtain ⟨t, hexec, henters, hends⟩ := exec_brk_entersHandler s
  rw [pageCrossCycle_of_not_eligible hb.2] at hends
  exact ⟨t, s.pc + 1, hexec, BitVec.toNat_add s.pc 1, henters, hends⟩

/-! ### RTI -/

/-- Settles O39: the three cells above SP are what P and the two halves of PC take. -/
theorem rtiRestoresStatusAndPc : Obligations.RtiRestoresStatusAndPc := by
  refine ⟨hasRows_tableRows (i := .rti) nofun, fun s hb => ?_⟩
  obtain ⟨hexec, hends⟩ := exec_of_handled (i := .rti)
    (congrArg (Prod.mk 0) (returnFromInterrupt_eq s)) (pageCrossCycle_of_not_eligible hb.2)
  exact ⟨_, _, _, hexec, stored_stackAddr s _, stored_stackAddr s _, stored_stackAddr s _,
    word16_toNat _ _, BitVec.toNat_add s.sp 3, fun _ => rfl, rfl, hends⟩

/-- Settles O40: BRK leaves its frame in the three cells that RTI pulls from. -/
theorem brkThenRtiReturns : Obligations.BrkThenRtiReturns := by
  intro s
  obtain ⟨t, hbrk, ⟨hhi, hlo, hstatus, -, hdown, -⟩, hregs, -, -, hnmi, -, hb⟩ :=
    exec_brk_entersHandler s
  obtain ⟨-, hrti⟩ := rtiRestoresStatusAndPc
  obtain ⟨u, l, h, hexec, hp, hl, hh, hpc, hup, -, -, hregs', -, -, hnmi', -⟩ := hrti t hb
  have h1 : t.sp + 1 = s.sp - 2 := by bv_omega
  have h2 : t.sp + 2 = s.sp - 1 := by bv_omega
  have h3 : t.sp + 3 = s.sp := by bv_omega
  rw [h1, hstatus _ rfl, Option.some_inj] at hp
  rw [h2, hlo _ rfl, Option.some_inj] at hl
  rw [h3, hhi _ rfl, Option.some_inj] at hh
  rw [← hh, ← hl, ← word16_toNat, word16_bytes, BitVec.toNat_inj] at hpc
  refine ⟨t, u, hbrk, hexec, hpc, hp.symm, fun r _ => ?_, hnmi'.trans hnmi⟩
  by_cases hr : r = .sp
  · have hsp : u.sp = s.sp := by bv_omega
    subst hr
    exact hsp
  · rw [hregs' r (by simpa using hr), hregs r (by simpa using hr)]

/-! ### NOP -/

/-- The end of a step at a step boundary adds its cycles and changes nothing else (R80). -/
theorem account_of_boundary (n : Nat) {s : State} (hb : Boundary s) :
    account n s = { s with cycles := s.cycles + n } := by
  obtain ⟨hp, he⟩ := hb
  apply State.ext <;> simp [hp, he]

/-- NOP adds two cycles and changes nothing else (R155). -/
theorem exec_nop_of_boundary {s : State} (hb : Boundary s) :
    exec .nop s = .next { s with cycles := s.cycles + 2 } := by
  rw [exec_nop, ended, pageCrossCycle_of_not_eligible hb.2]
  exact congrArg Host.Outcome.next (account_of_boundary 2 hb)

/-- Settles O41: the fetch reads one byte, which decodes to NOP. -/
theorem nopDoesNothing : Obligations.NopDoesNothing := by
  refine ⟨hasRows_tableRows (i := .nop) nofun, fun s hb => exec_nop_of_boundary hb,
    fun s hb hn hread => ?_⟩
  have hnop : decodeOpcode 0xEA#8 0 0 = .nop := rfl
  rw [step_of_not_pending hn, fetchInstr_of_operandWidth_zero (by rw [hread]; rfl), hread, hnop,
    exec_nop_of_boundary (by simpa using hb), memRead_cycles]

end Sys2Proof.Machine
end

section
/-! SUPPORT. Exceptions (`60_exceptions.md` R160 to R170): NMI service, which shares the interrupt
sequence of BRK, and the host's calls between steps. -/

namespace Sys2Proof.Machine

/-! ### NMI service -/

/-- The status byte that NMI service pushes: bit 5 is set, Break is as held (R19, R164). -/
theorem statusForPush_unforced (p : Byte) : statusForPush false p = p ||| 0x20#8 :=
  BitVec.or_zero

/-- The end of NMI service leaves the frame and PC as the interrupt sequence made them; the vector
lies outside RAM, so the pushes do not change it (R164). -/
theorem serviceNmi_entersHandler (s : State) :
    EntersHandler s.pc (s.p ||| 0x20#8) nmiVector s (serviceNmi s) := by
  rw [← statusForPush_unforced]
  refine entersHandler_of_takeInterrupt (isRam_target_of_ge (by decide) s)
    (isRam_target_of_ge (by decide) s) ?_ (serviceNmi_prg s) ?_ ?_ ?_ ?_ <;>
    simp [serviceNmi]

theorem serviceNmi_cycles (s : State) : (serviceNmi s).cycles = s.cycles + 7 := by
  simp [serviceNmi]

/-- NMI service writes no 8-bit register but SP (R164). -/
theorem serviceNmi_keepsRegs (s : State) : KeepsRegsBut [.sp] s (serviceNmi s) := by
  intro r hr
  cases r with
  | sp => simp at hr
  | a | x | y => simp [serviceNmi, State.reg]

/-- NMI service writes no bit of P but Interrupt-Disable (R164). -/
theorem serviceNmi_keepsFlags (s : State) : KeepsFlagsBut [.i] s (serviceNmi s) := by
  intro f hf
  have hp : (serviceNmi s).p = (takeInterrupt s.pc false nmiVector s).p := by simp [serviceNmi]
  rw [flag_congr hp, flag_takeInterrupt, if_neg (by simpa using hf)]

/-- Settles O44: the step is NMI service. -/
theorem stepServicesPendingNmi : Obligations.StepServicesPendingNmi := fun s hn =>
  ⟨serviceNmi s, step_of_pending hn, serviceNmi_entersHandler s, rfl, serviceNmi_cycles s,
    serviceNmi_keepsRegs s, serviceNmi_keepsFlags s, serviceNmi_prg s, rfl, rfl⟩

/-! ### The host's calls -/

/-- A bus read writes no field but the record of accesses (R31). -/
theorem memRead_snd_eq (a : Word) (s : State) :
    (memRead a s).2 = { s with devLog := (memRead a s).2.devLog } := by
  apply State.ext <;> simp

/-- A bus write writes no field but memory and the record of accesses (R32). -/
theorem memWrite_eq (a : Word) (v : Byte) (s : State) :
    memWrite a v s =
      { s with mem := (memWrite a v s).mem, devLog := (memWrite a v s).devLog } := by
  apply State.ext <;> simp

/-- Settles O49: a peek is a bus read and a poke a bus write. -/
theorem hostCallsLeaveTheCoreAlone : Obligations.HostCallsLeaveTheCoreAlone := fun a v s =>
  ⟨rfl, rfl, rfl, memRead_snd_eq a s, memWrite_eq a v s⟩

end Sys2Proof.Machine
end
